-- ==== Sys2Proof/Word.lean ====
section
/-! DEFINITION. The value types of the machine: words, bytes, the command word, the state width and the
named states of the model, the encoder and the decoder. -/

namespace Sys2Proof

/-- A byte of a stream or of a header (20_memory.md R59). -/
abbrev Byte := BitVec 8

/-- A 32-bit register: a count, `RES`, `BR_LEN`, or an interval register, whose W bits are its low W bits
(10_state.md R22, R26, R32 to R34; log 1). -/
abbrev Word := BitVec 32

/-- A command word of the one format `CMD64` (30_encoding.md R70). -/
abbrev Cmd := BitVec 64

/-- The interval state width `W`, a synthesis-time parameter with `2 ≤ W ≤ 32` (00_scope.md R6).
No other width can be written down. -/
structure Width where
  bits  : Nat
  two_le : 2 ≤ bits
  le_32 : bits ≤ 32
  deriving DecidableEq, Repr

/-- `FM_STATE` (10_state.md R29). -/
inductive FmState where
  | openModel
  | ready
  deriving DecidableEq, Repr, Inhabited

/-- `ENC_STATE` (10_state.md R33); code 3 of its STATUS field never occurs (R24, I13). -/
inductive EncState where
  | idle
  | active
  | flushed
  deriving DecidableEq, Repr, Inhabited

/-- `DEC_STATE` (10_state.md R34); code 3 of its STATUS field never occurs (R24, I13). -/
inductive DecState where
  | idle
  | active
  | done
  deriving DecidableEq, Repr, Inhabited

end Sys2Proof
end

