-- ==== Sys2Proof/Config.lean ====
section
/-! DEFINITION. What an implementation fixes (the width of 00_scope.md R6, the revision of R1) and the free
values: what each register holds after an `IO_FAILURE` (60_exceptions.md R245, 93_implementation_defined.md I1; log 6).

A free value has no body, so nothing can be proved of it beyond its type; the step applies it to a counter of
State, which every use advances. -/

namespace Sys2Proof.Config

/-- The default width, 32 (00_scope.md R6). -/
def defaultWidth : Width := ⟨32, by decide, by decide⟩

/-- `CONFIG.REV`: revision 1 of the command set (10_state.md R23, 00_scope.md R1). -/
def revision : BitVec 8 := 1

/-! The registers R245 leaves unspecified, one constant each, in its order. -/

opaque freeRes      : Nat → Word
opaque freeCount    : Nat → Vector Word 256
opaque freeCum      : Nat → Vector Nat 258
opaque freeTotal    : Nat → Nat
opaque freeFmState  : Nat → FmState
opaque freeAcc      : Nat → Byte
opaque freeNacc     : Nat → BitVec 3
opaque freeFinBits  : Nat → BitVec 3
opaque freeBrLen    : Nat → Word
opaque freeRpos     : Nat → Nat
opaque freeElow     : Nat → Word
opaque freeEhigh    : Nat → Word
opaque freeUfc      : Nat → Nat
opaque freeEncState : Nat → EncState
opaque freeDlow     : Nat → Word
opaque freeDhigh    : Nat → Word
opaque freeDcode    : Nat → Word
opaque freeDecState : Nat → DecState

end Sys2Proof.Config
end

