-- ==== Sys2Proof/Syntax.lean ====
section
/-! DEFINITION. The commands: one constructor per row of spec/opcode_table.json (30_encoding.md R73), its operands
as R72 and R75 give them. An operand's type has exactly the values its field can encode. -/

namespace Sys2Proof

/-- `SRC` of `FM_SEAL`: 0 = counts built from data, 1 = counts loaded from a header (30_encoding.md R72, R78). -/
inductive SealSource where
  | built
  | header
  deriving DecidableEq, Repr

inductive Instr where
  | nop                                       -- 0x00 NOP, R230
  | coreReset                                 -- 0x01 CORE_RESET, R231
  | fmReset                                   -- 0x10 FM_RESET, R110
  | fmCount (byte : Byte)                     -- 0x11 FM_COUNT, R111
  | fmSetcount (sym : BitVec 9) (count : Word) -- 0x12 FM_SETCOUNT, R112
  | fmSeal (src : SealSource)                 -- 0x13 FM_SEAL, R113
  | fmGetcount (sym : BitVec 9)               -- 0x14 FM_GETCOUNT, R114
  | fmGetlow (sym : BitVec 9)                 -- 0x15 FM_GETLOW, R115
  | fmGethigh (sym : BitVec 9)                -- 0x16 FM_GETHIGH, R116
  | fmGettotal                                -- 0x17 FM_GETTOTAL, R117
  | fmLookup (value : Word)                   -- 0x18 FM_LOOKUP, R118
  | fmWriteHeader                             -- 0x19 FM_WRITE_HEADER, R119
  | fmReadHeader                              -- 0x1A FM_READ_HEADER, R120
  | bwWriteBit (bit : Bool)                   -- 0x20 BW_WRITE_BIT, R150
  | bwWriteRawByte (byte : Byte)              -- 0x21 BW_WRITE_RAW_BYTE, R151
  | bwFinalize                                -- 0x22 BW_FINALIZE, R152
  | brAttach (len : Word)                     -- 0x28 BR_ATTACH, R153
  | brReadBit                                 -- 0x29 BR_READ_BIT, R154
  | encInit                                   -- 0x30 ENC_INIT, R180
  | encUpdate (sym : BitVec 9)                -- 0x31 ENC_UPDATE, R181
  | encFinish                                 -- 0x32 ENC_FINISH, R182
  | decInit                                   -- 0x38 DEC_INIT, R210
  | decNext                                   -- 0x39 DEC_NEXT, R211
  deriving DecidableEq, Repr

end Sys2Proof
end

