-- ==== Sys2Proof/WellFormed.lean ====
section
/-! DEFINITION. Which command words are well formed. Every operand type of `Instr` holds exactly what its field can
encode, so every `Instr` can be encoded; what can be ill formed is a word. This file transcribes
spec/opcode_table.json's masks and matches and 30_encoding.md R74's test; the decoder (Decode.lean) is written
from R70 to R75 instead, so the two descriptions can be compared. -/

namespace Sys2Proof

/-- A row of spec/opcode_table.json. -/
structure OpcodeRow where
  mnemonic : String
  pat      : Cmd
  mask     : Cmd
  deriving DecidableEq, Repr

def OpcodeRow.accepts (r : OpcodeRow) (w : Cmd) : Bool := (w &&& r.mask) == r.pat

def coreRows : List OpcodeRow := [
  ⟨"NOP", 0x0000000000000000, 0xFFFFFFFFFFFFFFFF⟩,
  ⟨"CORE_RESET", 0x0100000000000000, 0xFFFFFFFFFFFFFFFF⟩]

def modelRows : List OpcodeRow := [
  ⟨"FM_RESET", 0x1000000000000000, 0xFFFFFFFFFFFFFFFF⟩,
  ⟨"FM_COUNT", 0x1100000000000000, 0xFFFFFFFFFFFFFF00⟩,
  ⟨"FM_SETCOUNT", 0x1200000000000000, 0xFFFFFE0000000000⟩,
  ⟨"FM_SEAL", 0x1300000000000000, 0xFFFFFFFFFFFFFFFE⟩,
  ⟨"FM_GETCOUNT", 0x1400000000000000, 0xFFFFFE00FFFFFFFF⟩,
  ⟨"FM_GETLOW", 0x1500000000000000, 0xFFFFFE00FFFFFFFF⟩,
  ⟨"FM_GETHIGH", 0x1600000000000000, 0xFFFFFE00FFFFFFFF⟩,
  ⟨"FM_GETTOTAL", 0x1700000000000000, 0xFFFFFFFFFFFFFFFF⟩,
  ⟨"FM_LOOKUP", 0x1800000000000000, 0xFFFFFFFF00000000⟩,
  ⟨"FM_WRITE_HEADER", 0x1900000000000000, 0xFFFFFFFFFFFFFFFF⟩,
  ⟨"FM_READ_HEADER", 0x1A00000000000000, 0xFFFFFFFFFFFFFFFF⟩]

def packerRows : List OpcodeRow := [
  ⟨"BW_WRITE_BIT", 0x2000000000000000, 0xFFFFFFFFFFFFFFFE⟩,
  ⟨"BW_WRITE_RAW_BYTE", 0x2100000000000000, 0xFFFFFFFFFFFFFF00⟩,
  ⟨"BW_FINALIZE", 0x2200000000000000, 0xFFFFFFFFFFFFFFFF⟩,
  ⟨"BR_ATTACH", 0x2800000000000000, 0xFFFFFFFF00000000⟩,
  ⟨"BR_READ_BIT", 0x2900000000000000, 0xFFFFFFFFFFFFFFFF⟩]

def coderRows : List OpcodeRow := [
  ⟨"ENC_INIT", 0x3000000000000000, 0xFFFFFFFFFFFFFFFF⟩,
  ⟨"ENC_UPDATE", 0x3100000000000000, 0xFFFFFE00FFFFFFFF⟩,
  ⟨"ENC_FINISH", 0x3200000000000000, 0xFFFFFFFFFFFFFFFF⟩,
  ⟨"DEC_INIT", 0x3800000000000000, 0xFFFFFFFFFFFFFFFF⟩,
  ⟨"DEC_NEXT", 0x3900000000000000, 0xFFFFFFFFFFFFFFFF⟩]

/-- The 23 rows of spec/opcode_table.json, in its order. -/
def opcodeTable : List OpcodeRow := coreRows ++ modelRows ++ packerRows ++ coderRows

/-- A word is legal exactly when `(word & mask) = match` for some row (30_encoding.md R74). -/
def wellFormed (w : Cmd) : Bool := opcodeTable.any (·.accepts w)

end Sys2Proof
end

