-- ==== Sys2Proof/Decode.lean ====
section
/-! DEFINITION. The decoder, total on every 64-bit word, and the encoder, both written from the fields and operand
columns of 30_encoding.md R70 to R75. -/

namespace Sys2Proof

/-! ## The fields of CMD64 (R70) -/

def opField (w : Cmd) : BitVec 8 := w.extractLsb' 56 8
def reservedField (w : Cmd) : BitVec 15 := w.extractLsb' 41 15
def symField (w : Cmd) : BitVec 9 := w.extractLsb' 32 9
def dataField (w : Cmd) : Word := w.extractLsb' 0 32

/-- The word with the given fields and the reserved bits 0 (R70). -/
def cmdWord (op : BitVec 8) (sym : BitVec 9) (data : Word) : Cmd :=
  op ++ (0 : BitVec 15) ++ sym ++ data

/-- Bit 0 of `DATA` as `SRC` (R75). -/
def sealSourceOf (data : Word) : SealSource := if data.getLsbD 0 then .header else .built

/-! ## The opcode map (R71, R72, R73) -/

/-- One line of R73: the opcode, whether it uses `SYM` (R71), how many low bits of `DATA` it uses (R72), and the
instruction its operands make (R75). -/
structure OpForm where
  op       : BitVec 8
  usesSym  : Bool
  dataBits : Nat
  build    : BitVec 9 → Word → Instr

def coreForms : List OpForm := [
  ⟨0x00, false, 0, fun _ _ => .nop⟩,
  ⟨0x01, false, 0, fun _ _ => .coreReset⟩]

def modelForms : List OpForm := [
  ⟨0x10, false, 0, fun _ _ => .fmReset⟩,
  ⟨0x11, false, 8, fun _ data => .fmCount (data.extractLsb' 0 8)⟩,
  ⟨0x12, true, 32, fun sym data => .fmSetcount sym data⟩,
  ⟨0x13, false, 1, fun _ data => .fmSeal (sealSourceOf data)⟩,
  ⟨0x14, true, 0, fun sym _ => .fmGetcount sym⟩,
  ⟨0x15, true, 0, fun sym _ => .fmGetlow sym⟩,
  ⟨0x16, true, 0, fun sym _ => .fmGethigh sym⟩,
  ⟨0x17, false, 0, fun _ _ => .fmGettotal⟩,
  ⟨0x18, false, 32, fun _ data => .fmLookup data⟩,
  ⟨0x19, false, 0, fun _ _ => .fmWriteHeader⟩,
  ⟨0x1A, false, 0, fun _ _ => .fmReadHeader⟩]

def packerForms : List OpForm := [
  ⟨0x20, false, 1, fun _ data => .bwWriteBit (data.getLsbD 0)⟩,
  ⟨0x21, false, 8, fun _ data => .bwWriteRawByte (data.extractLsb' 0 8)⟩,
  ⟨0x22, false, 0, fun _ _ => .bwFinalize⟩,
  ⟨0x28, false, 32, fun _ data => .brAttach data⟩,
  ⟨0x29, false, 0, fun _ _ => .brReadBit⟩]

def coderForms : List OpForm := [
  ⟨0x30, false, 0, fun _ _ => .encInit⟩,
  ⟨0x31, true, 0, fun sym _ => .encUpdate sym⟩,
  ⟨0x32, false, 0, fun _ _ => .encFinish⟩,
  ⟨0x38, false, 0, fun _ _ => .decInit⟩,
  ⟨0x39, false, 0, fun _ _ => .decNext⟩]

def opForms : List OpForm := coreForms ++ modelForms ++ packerForms ++ coderForms

/-- R74's conditions 2 to 4 hold of none of the word's bits: the reserved bits are 0, `SYM` is 0 unless the opcode
uses it, and `DATA` is 0 above the bits it uses. -/
def OpForm.operandsLegal (f : OpForm) (w : Cmd) : Bool :=
  reservedField w == 0 && (f.usesSym || symField w == 0) && decide ((dataField w).toNat < 2 ^ f.dataBits)

/-- The whole decoder (R74, R77): one word, one instruction or none. `none` is an illegal word. -/
def decode (w : Cmd) : Option Instr :=
  match opForms.find? (fun f => f.op == opField w) with
  | some f => if f.operandsLegal w then some (f.build (symField w) (dataField w)) else none
  | none => none

/-! ## The encoder (R70 to R73) -/

/-- The `OP` column of R73. -/
def Instr.opcode : Instr → BitVec 8
  | .nop => 0x00
  | .coreReset => 0x01
  | .fmReset => 0x10
  | .fmCount _ => 0x11
  | .fmSetcount _ _ => 0x12
  | .fmSeal _ => 0x13
  | .fmGetcount _ => 0x14
  | .fmGetlow _ => 0x15
  | .fmGethigh _ => 0x16
  | .fmGettotal => 0x17
  | .fmLookup _ => 0x18
  | .fmWriteHeader => 0x19
  | .fmReadHeader => 0x1A
  | .bwWriteBit _ => 0x20
  | .bwWriteRawByte _ => 0x21
  | .bwFinalize => 0x22
  | .brAttach _ => 0x28
  | .brReadBit => 0x29
  | .encInit => 0x30
  | .encUpdate _ => 0x31
  | .encFinish => 0x32
  | .decInit => 0x38
  | .decNext => 0x39

/-- The `SYM` column of R73; 0 where the command does not use it (R71). -/
def Instr.symOperand : Instr → BitVec 9
  | .fmSetcount sym _ => sym
  | .fmGetcount sym => sym
  | .fmGetlow sym => sym
  | .fmGethigh sym => sym
  | .encUpdate sym => sym
  | .nop | .coreReset | .fmReset | .fmCount _ | .fmSeal _ | .fmGettotal | .fmLookup _ | .fmWriteHeader | .fmReadHeader
  | .bwWriteBit _ | .bwWriteRawByte _ | .bwFinalize | .brAttach _ | .brReadBit | .encInit | .encFinish | .decInit
  | .decNext => 0

/-- The `DATA` column of R73 (R72); 0 where the command uses no bit of it. -/
def Instr.dataOperand : Instr → Word
  | .fmCount byte => byte.setWidth 32
  | .fmSetcount _ count => count
  | .fmSeal .built => 0
  | .fmSeal .header => 1
  | .fmLookup value => value
  | .bwWriteBit bit => if bit then 1 else 0
  | .bwWriteRawByte byte => byte.setWidth 32
  | .brAttach len => len
  | .nop | .coreReset | .fmReset | .fmGetcount _ | .fmGetlow _ | .fmGethigh _ | .fmGettotal | .fmWriteHeader
  | .fmReadHeader | .bwFinalize | .brReadBit | .encInit | .encUpdate _ | .encFinish | .decInit | .decNext => 0

/-- The word of an instruction. -/
def encode (i : Instr) : Cmd := cmdWord i.opcode i.symOperand i.dataOperand

/-- The mnemonic of R73. -/
def Instr.mnemonic : Instr → String
  | .nop => "NOP"
  | .coreReset => "CORE_RESET"
  | .fmReset => "FM_RESET"
  | .fmCount _ => "FM_COUNT"
  | .fmSetcount _ _ => "FM_SETCOUNT"
  | .fmSeal _ => "FM_SEAL"
  | .fmGetcount _ => "FM_GETCOUNT"
  | .fmGetlow _ => "FM_GETLOW"
  | .fmGethigh _ => "FM_GETHIGH"
  | .fmGettotal => "FM_GETTOTAL"
  | .fmLookup _ => "FM_LOOKUP"
  | .fmWriteHeader => "FM_WRITE_HEADER"
  | .fmReadHeader => "FM_READ_HEADER"
  | .bwWriteBit _ => "BW_WRITE_BIT"
  | .bwWriteRawByte _ => "BW_WRITE_RAW_BYTE"
  | .bwFinalize => "BW_FINALIZE"
  | .brAttach _ => "BR_ATTACH"
  | .brReadBit => "BR_READ_BIT"
  | .encInit => "ENC_INIT"
  | .encUpdate _ => "ENC_UPDATE"
  | .encFinish => "ENC_FINISH"
  | .decInit => "DEC_INIT"
  | .decNext => "DEC_NEXT"

/-- The one word accepted while `ERR ≠ 0` (60_exceptions.md R242). -/
def coreResetWord : Cmd := 0x0100000000000000

/-! ## The host's numbering -/

/-- The word whose bits are `w`: one 64-bit word with bit 0 its least significant bit; the bits above `nbits`
are 0. -/
def tableWord (nbits w : Nat) : Cmd := BitVec.ofNat 64 (w % 2 ^ nbits)

/-- The instruction the decoder reads from the word whose bits are `w`, as spec/opcode_table.json numbers them. -/
def decodeTableWord (nbits w : Nat) : Option Instr := decode (tableWord nbits w)

end Sys2Proof
end

