-- ==== Sys2Proof/Machine/State.lean ====
section
/-! DEFINITION. The state of the machine (10_state.md R20 to R38, 20_memory.md R50 to R53) and the reasons a step
can stop. The state is plain data. -/

namespace Sys2Proof.Machine

/-- The error codes of 60_exceptions.md R241; codes 11 to 15 are never produced and have no name here. -/
inductive ErrCode where
  | noError
  | ioFailure
  | corruptHeader
  | corruptModel
  | precisionOverflow
  | illegalCommand
  | invalidSymbol
  | sequenceError
  | zeroFrequency
  | misalignedRaw
  | valueOutOfRange
  deriving DecidableEq, Repr, Inhabited

/-- Bytes by index, sparse: strictly rising indices, and no byte 0, which is what an unlisted index reads as
(`Memory.wf`; log 3). It holds the input source `IN` (20_memory.md R53). -/
abbrev Memory := List Host.Cell

/-- The environment's answer to one access (00_scope.md R12). -/
inductive IoAnswer where
  | success
  | failure
  deriving DecidableEq, Repr

/-- An access of a command to the sink or the source, with the environment's answer (00_scope.md R4, 20_memory.md
R60). -/
inductive IoEvent where
  | sinkWrite (byte : Byte) (answer : IoAnswer)
  | sourceRead (index : Nat) (answer : IoAnswer)
  deriving DecidableEq, Repr

/-- What the host can do to the core (70_reset_and_hazards.md R283). -/
inductive HostAction where
  /-- Issue a command word (30_encoding.md R70). -/
  | command (word : Cmd)
  /-- Put an input array on the source port, for the next `BR_ATTACH` to attach (41_bit_packer.md R153). -/
  | present (bytes : List Byte)
  /-- Read the register read port (10_state.md R25). -/
  | readPort (addr : BitVec 4)
  /-- Assert the reset input (70_reset_and_hazards.md R270). -/
  | resetInput
  deriving DecidableEq, Repr

/-- The registers of the core that an `IO_FAILURE` leaves unspecified: all but `ERR`, `ERR_OP` and `CONFIG`
(10_state.md R22, R26 to R34; 60_exceptions.md R245). -/
structure Regs where
  res      : Word
  count    : Vector Word 256
  cum      : Vector Nat 258
  total    : Nat
  fmState  : FmState
  acc      : Byte
  nacc     : BitVec 3
  finBits  : BitVec 3
  brLen    : Word
  rpos     : Nat
  elow     : Word
  ehigh    : Word
  ufc      : Nat
  encState : EncState
  dlow     : Word
  dhigh    : Word
  dcode    : Word
  decState : DecState
  deriving DecidableEq, Repr

structure State where
  /-- `CONFIG.W` (10_state.md R23). -/
  width     : Width
  /-- `ERR` and `ERR_OP` (10_state.md R21). -/
  err       : ErrCode
  errOp     : BitVec 8
  /-- Every other register of the core. -/
  regs      : Regs
  /-- `OUT`, the bytes the sink has taken, oldest first (20_memory.md R52). -/
  out       : List Byte
  /-- `IN`, the attached input array (20_memory.md R53). -/
  input     : Memory
  /-- The array on the source port that the next `BR_ATTACH` attaches (41_bit_packer.md R153). -/
  presented : Memory
  /-- `IO_ORACLE`: the environment's coming answers; an exhausted list answers success (00_scope.md R12; log 4). -/
  draws     : List IoAnswer
  /-- Every access so far, oldest first (00_scope.md R4, 20_memory.md R61). -/
  history   : List IoEvent
  /-- What the host does next, first action first (70_reset_and_hazards.md R282, R283; log 2). -/
  queue     : List HostAction
  /-- What the host has read from the register port, oldest first (10_state.md R25; log 13). -/
  portReads : List (BitVec 4 × Word)
  /-- The model's own: which free values an `IO_FAILURE` takes next (log 6). -/
  freeCtr   : Nat
  deriving DecidableEq, Repr

/-- No step of this machine stops with a fault: an error is latched in `ERR` and the machine goes on
(60_exceptions.md R240). Nothing raises one. -/
inductive Fault where
  deriving DecidableEq, Repr

/-- A step that has no meaning. -/
inductive Refusal where
  /-- Raised by an arm of `exec` for a command that has no meaning yet; safe. No arm of this model raises it. -/
  | notModelled (mnemonic : String)
  deriving DecidableEq, Repr

/-- What every command ends in (60_exceptions.md R240). -/
abbrev Result := Host.Outcome State Fault Refusal

/-- `MASK = 2^W − 1` as an interval register holds it (00_scope.md R7). -/
def Regs.resetBound (width : Width) : Word := BitVec.ofNat 32 (2 ^ width.bits - 1)

/-- The reset values of 70_reset_and_hazards.md R270. -/
def Regs.reset (width : Width) : Regs where
  res := 0
  count := Vector.replicate 256 0
  cum := Vector.replicate 258 0
  total := 0
  fmState := .openModel
  acc := 0
  nacc := 0
  finBits := 0
  brLen := 0
  rpos := 0
  elow := 0
  ehigh := Regs.resetBound width
  ufc := 0
  encState := .idle
  dlow := 0
  dhigh := Regs.resetBound width
  dcode := 0
  decState := .idle

/-- The machine right after reset (70_reset_and_hazards.md R270, R271), at the default width, with nothing written,
attached, read or waiting (log 2, 3, 4, 12, 13). -/
def State.reset : State where
  width := Config.defaultWidth
  err := .noError
  errOp := 0
  regs := Regs.reset Config.defaultWidth
  out := []
  input := []
  presented := []
  draws := []
  history := []
  queue := []
  portReads := []
  freeCtr := 0

end Sys2Proof.Machine
end

