-- ==== Sys2Proof/Machine/Operands.lean ====
section
/-! DEFINITION. What the rules compute from operands before a command acts: the constants derived from `W`, the
symbol numbers and ranges, and the interval registers read as naturals. -/

namespace Sys2Proof.Machine

/-! ## Constants derived from W (00_scope.md R7, R8) -/

def half (w : Width) : Nat := 2 ^ (w.bits - 1)
def quarter (w : Width) : Nat := 2 ^ (w.bits - 2)
def mask (w : Width) : Nat := 2 ^ w.bits - 1

/-- `MAX_TOTAL`, the precision budget (R8). -/
abbrev maxTotal (w : Width) : Nat := quarter w

/-! ## Symbols and header sizes (00_scope.md R9, R10) -/

/-- The end-of-stream symbol. -/
abbrev sentinel : Nat := 256

/-- `COUNT_MAX`. -/
abbrev countMax : Nat := 2 ^ 32 - 1

abbrev headerWords : Nat := 256

abbrev headerBytesLen : Nat := 4 * headerWords

/-! ## Range checks of SYM (30_encoding.md R76) -/

/-- The symbols of `FM_SETCOUNT` and `ENC_UPDATE`: 0..255. -/
def isByteSymbol (sym : BitVec 9) : Bool := decide (sym.toNat ≤ 255)

/-- The symbols of the getters: 0..256. -/
def isSymbol (sym : BitVec 9) : Bool := decide (sym.toNat ≤ sentinel)

/-! ## Interval registers -/

/-- `(low, high)` (42_encoder.md R171). -/
structure Interval where
  low  : Nat
  high : Nat
  deriving DecidableEq, Repr

/-- A W-bit value as its register holds it (log 1). -/
def toReg (v : Nat) : Word := BitVec.ofNat 32 v

def Regs.encInterval (r : Regs) : Interval := ⟨r.elow.toNat, r.ehigh.toNat⟩

def Regs.decInterval (r : Regs) : Interval := ⟨r.dlow.toNat, r.dhigh.toNat⟩

def Regs.setEncInterval (r : Regs) (iv : Interval) : Regs :=
  { r with elow := toReg iv.low, ehigh := toReg iv.high }

def Regs.setDecInterval (r : Regs) (iv : Interval) : Regs :=
  { r with dlow := toReg iv.low, dhigh := toReg iv.high }

/-- The initial interval `[0, MASK]` of encoder and decoder (42_encoder.md R180, 43_decoder.md R210). -/
def fullInterval (w : Width) : Interval := ⟨0, mask w⟩

end Sys2Proof.Machine
end

