-- ==== Sys2Proof/Machine/Flags.lean ====
section
/-! DEFINITION. The status view, the configuration word, the register read port and the state conditions that commands
check (10_state.md R23 to R25, 40_frequency_model.md R105). -/

namespace Sys2Proof.Machine

/-- The error numbers (60_exceptions.md R241). -/
def ErrCode.code : ErrCode → BitVec 4
  | .noError => 0
  | .ioFailure => 1
  | .corruptHeader => 2
  | .corruptModel => 3
  | .precisionOverflow => 4
  | .illegalCommand => 5
  | .invalidSymbol => 6
  | .sequenceError => 7
  | .zeroFrequency => 8
  | .misalignedRaw => 9
  | .valueOutOfRange => 10

/-! ## STATUS (10_state.md R24) -/

/-- `FM_READY`. -/
def Regs.fmReady (r : Regs) : Bool := r.fmState == .ready

/-- The `ENC_STATE` field. -/
def encStateCode : EncState → BitVec 2
  | .idle => 0
  | .active => 1
  | .flushed => 2

/-- The `DEC_STATE` field. -/
def decStateCode : DecState → BitVec 2
  | .idle => 0
  | .active => 1
  | .done => 2

/-- The number of bits of the attached input, `8·BR_LEN`. -/
abbrev Regs.inputBits (r : Regs) : Nat := 8 * r.brLen.toNat

/-- `BR_EXHAUSTED`: `RPOS = 8·BR_LEN`. -/
def Regs.brExhausted (r : Regs) : Bool := r.rpos == r.inputBits

def status (s : State) : Word :=
  s.errOp ++ (0 : BitVec 8) ++ BitVec.ofBool s.regs.brExhausted ++ s.regs.finBits ++ s.regs.nacc
    ++ decStateCode s.regs.decState ++ encStateCode s.regs.encState ++ BitVec.ofBool s.regs.fmReady ++ s.err.code

/-! ## CONFIG (10_state.md R23) and the register read port (R25) -/

def configWord (s : State) : Word :=
  (0 : BitVec 16) ++ Config.revision ++ (0 : BitVec 2) ++ BitVec.ofNat 6 s.width.bits

/-- What a read of the port at an address returns. -/
def portValue (s : State) (addr : BitVec 4) : Word :=
  if addr = 0 then status s
  else if addr = 1 then s.regs.res
  else if addr = 2 then configWord s
  else 0

/-! ## Conditions commands check -/

/-- `CoderActive` (40_frequency_model.md R105). -/
def Regs.coderActive (r : Regs) : Bool := r.encState == .active || r.decState == .active

end Sys2Proof.Machine
end

