-- ==== Sys2Proof/Machine/Ops.lean ====
section
/-! DEFINITION. The shared operations: the byte-stream ports (20_memory.md R52, R53), error entry and reset
(60_exceptions.md R244, R245; 70_reset_and_hazards.md R270), and the bit-packer primitives (41_bit_packer.md R140 to R143). -/

namespace Sys2Proof.Machine

/-! ## The input array -/

/-- The byte at an index; an unlisted index reads 0 (log 3). -/
def Memory.read : Memory → Nat → Byte
  | [], _ => 0
  | (a, b) :: rest, i => if a = i then b else Memory.read rest i

/-- The bytes from an index on, those that are 0 left unlisted. -/
def Memory.ofBytesFrom : Nat → List Byte → Memory
  | _, [] => []
  | i, b :: bs => if b = 0 then Memory.ofBytesFrom (i + 1) bs else (i, b) :: Memory.ofBytesFrom (i + 1) bs

def Memory.ofBytes (bs : List Byte) : Memory := Memory.ofBytesFrom 0 bs

/-- The array's first `len` bytes. -/
def Memory.restrict (len : Nat) (m : Memory) : Memory := m.filter fun c => decide (c.1 < len)

/-- The canonical form: strictly rising indices, and no byte an unlisted index reads as. -/
abbrev Memory.wf (m : Memory) : Prop := (m.map Prod.fst).Pairwise (· < ·) ∧ ∀ c ∈ m, c.2 ≠ 0

/-! ## Register updates -/

def State.withRegs (s : State) (r : Regs) : State := { s with regs := r }

def State.withQueue (s : State) (q : List HostAction) : State := { s with queue := q }

/-! ## Error entry and the way out of it -/

/-- `ErrorEntry(E)`, precise: `ERR` and `ERR_OP` and nothing else (60_exceptions.md R244). -/
def errorEntry (e : ErrCode) (op : BitVec 8) (s : State) : State := { s with err := e, errOp := op }

/-- Free values for every register `IO_FAILURE` leaves unspecified (60_exceptions.md R245; log 6). -/
def freeRegs (n : Nat) : Regs where
  res := Config.freeRes n
  count := Config.freeCount n
  cum := Config.freeCum n
  total := Config.freeTotal n
  fmState := Config.freeFmState n
  acc := Config.freeAcc n
  nacc := Config.freeNacc n
  finBits := Config.freeFinBits n
  brLen := Config.freeBrLen n
  rpos := Config.freeRpos n
  elow := Config.freeElow n
  ehigh := Config.freeEhigh n
  ufc := Config.freeUfc n
  encState := Config.freeEncState n
  dlow := Config.freeDlow n
  dhigh := Config.freeDhigh n
  dcode := Config.freeDcode n
  decState := Config.freeDecState n

/-- `IoFailureEntry()`, imprecise: `ERR`, `ERR_OP`, and free values in every other register but `CONFIG`
(60_exceptions.md R245). -/
def ioFailureEntry (op : BitVec 8) (s : State) : State :=
  { s with err := .ioFailure, errOp := op, regs := freeRegs s.freeCtr, freeCtr := s.freeCtr + 1 }

/-- `raise E` of a command with opcode `op`, for every code but `IO_FAILURE` (00_scope.md R12). -/
def raise (e : ErrCode) (op : BitVec 8) (s : State) : Result := .next (errorEntry e op s)

/-- `ResetAll()`: every register to its reset value; `CONFIG`, the sink, the input array and the host's side are not
touched (70_reset_and_hazards.md R270). -/
def resetAll (s : State) : State := { s with err := .noError, errOp := 0, regs := Regs.reset s.width }

/-! ## Accesses to the sink and the source -/

/-- What a sequence of accesses ends in: all succeeded, with a value, or one failed. -/
inductive Access (α : Type) where
  | done (a : α) (s : State)
  | ioFailed (s : State)

/-- Go on only if every access so far succeeded. -/
def Access.andThen {α β : Type} (x : Access α) (f : α → State → Access β) : Access β :=
  match x with
  | .done a s => f a s
  | .ioFailed s => .ioFailed s

/-- Change the registers after the accesses. -/
def Access.thenRegs {α : Type} (x : Access α) (f : α → Regs → Regs) : Access α :=
  x.andThen fun a s => .done a (s.withRegs (f a s.regs))

/-- How a command with opcode `op` ends after its accesses (60_exceptions.md R240, R245). -/
def Access.finish {α : Type} (op : BitVec 8) (x : Access α) : Result :=
  match x with
  | .done _ s => .next s
  | .ioFailed s => .next (ioFailureEntry op s)

/-- The answer of the next draw (00_scope.md R12); success when no answer is listed (log 4). -/
def State.nextAnswer (s : State) : IoAnswer := s.draws.headD .success

/-- Take a draw for an access and record the access with its answer (00_scope.md R4; log 12). -/
def State.recordAccess (event : IoAnswer → IoEvent) (s : State) : State :=
  { s with draws := s.draws.tail, history := s.history ++ [event s.nextAnswer] }

/-- `OUT <- OUT ++ [b]` (20_memory.md R52). -/
def State.appendOut (b : Byte) (s : State) : State := { s with out := s.out ++ [b] }

/-- `SinkWrite(b)` (20_memory.md R52). -/
def sinkWrite (b : Byte) (s : State) : Access Unit :=
  let s' := s.recordAccess (.sinkWrite b)
  match s.nextAnswer with
  | .success => .done () (s'.appendOut b)
  | .failure => .ioFailed s'

/-- `SourceRead(i)`, for `i < BR_LEN` (20_memory.md R53). -/
def sourceRead (i : Nat) (s : State) : Access Byte :=
  let s' := s.recordAccess (.sourceRead i)
  match s.nextAnswer with
  | .success => .done (s.input.read i) s'
  | .failure => .ioFailed s'

/-! ## Bit-packer primitives -/

/-- `ACC` with a bit shifted in at its low end, `((ACC << 1) | b) & 0xFF` (41_bit_packer.md R140). -/
def shiftInBit (acc : Byte) (b : Bool) : Byte := (acc <<< 1) ||| (BitVec.ofBool b).setWidth 8

/-- `EmitBit(b)` (41_bit_packer.md R140). -/
def emitBit (b : Bool) (s : State) : Access Unit :=
  if s.regs.nacc = 7 then
    (sinkWrite (shiftInBit s.regs.acc b) s).thenRegs fun _ r => { r with acc := 0, nacc := 0 }
  else
    .done () (s.withRegs { s.regs with acc := shiftInBit s.regs.acc b, nacc := s.regs.nacc + 1 })

/-- `repeat n times: EmitBit(b)`. -/
def emitRepeated (b : Bool) : Nat → State → Access Unit
  | 0, s => .done () s
  | n + 1, s => (emitBit b s).andThen fun _ s' => emitRepeated b n s'

/-- `EmitRawByte(v)`; the caller guarantees `NACC = 0` (41_bit_packer.md R141). -/
def emitRawByte (v : Byte) (s : State) : Access Unit := sinkWrite v s

/-- `EmitRawByte` of each byte in order. -/
def emitRawBytes : List Byte → State → Access Unit
  | [], s => .done () s
  | v :: vs, s => (emitRawByte v s).andThen fun _ s' => emitRawBytes vs s'

/-- The partial byte, its low bits padded with 0: `(ACC << (8 − NACC)) & 0xFF` (41_bit_packer.md R152). -/
def paddedByte (r : Regs) : Byte := r.acc <<< (8 - r.nacc.toNat)

/-- Bit `7 − (RPOS mod 8)` of a byte (41_bit_packer.md R142, 20_memory.md R54). -/
def bitAt (byte : Byte) (rpos : Nat) : Bool := byte.getLsbD (7 - rpos % 8)

/-- `NextBit()` (41_bit_packer.md R142). -/
def nextBit (s : State) : Access Bool :=
  if s.regs.rpos < s.regs.inputBits then
    (sourceRead (s.regs.rpos / 8) s).andThen fun byte s' =>
      .done (bitAt byte s.regs.rpos) (s'.withRegs { s'.regs with rpos := s'.regs.rpos + 1 })
  else
    .done false s

/-- `ReadRawByte()`; the caller guarantees `RPOS mod 8 = 0` and `RPOS/8 < BR_LEN` (41_bit_packer.md R143). -/
def readRawByte (s : State) : Access Byte :=
  (sourceRead (s.regs.rpos / 8) s).thenRegs fun _ r => { r with rpos := r.rpos + 8 }

/-- `SourceRead` of `n` bytes from index `i` on, in order. -/
def sourceReadMany : Nat → Nat → State → Access (List Byte)
  | 0, _, s => .done [] s
  | n + 1, i, s =>
    (sourceRead i s).andThen fun b s' =>
      (sourceReadMany n (i + 1) s').andThen fun bs s'' => .done (b :: bs) s''

/-! ## Big-endian header words (20_memory.md R55) -/

/-- `c[31:24]`, `c[23:16]`, `c[15:8]`, `c[7:0]`. -/
def bigEndianBytes (c : Word) : List Byte :=
  [c.extractLsb' 24 8, c.extractLsb' 16 8, c.extractLsb' 8 8, c.extractLsb' 0 8]

/-- `(b0 << 24) | (b1 << 16) | (b2 << 8) | b3`. -/
def bigEndianWord (b0 b1 b2 b3 : Byte) : Word :=
  (b0.setWidth 32 <<< 24) ||| (b1.setWidth 32 <<< 16) ||| (b2.setWidth 32 <<< 8) ||| b3.setWidth 32

/-- The words of a byte sequence, four bytes each. -/
def bigEndianWords : List Byte → List Word
  | b0 :: b1 :: b2 :: b3 :: rest => bigEndianWord b0 b1 b2 b3 :: bigEndianWords rest
  | _ => []

/-- The header of a count table: 256 words in symbol order (20_memory.md R56). -/
def headerBytes (count : Vector Word 256) : List Byte := count.toList.flatMap bigEndianBytes

/-- The counts a header's bytes hold (40_frequency_model.md R120, `k[s]`). -/
def headerCounts (bytes : List Byte) : Vector Word 256 :=
  let words := bigEndianWords bytes
  Vector.ofFn fun s => words.getD s 0

/-! ## The host's side -/

/-- The host puts an array on the source port (41_bit_packer.md R153). -/
def presentInput (bytes : List Byte) (s : State) : State := { s with presented := Memory.ofBytes bytes }

/-- A read of the register read port: the host gets a value, and no register changes (10_state.md R25). -/
def readPort (addr : BitVec 4) (s : State) : State :=
  { s with portReads := s.portReads ++ [(addr, portValue s addr)] }

/-- Fix the presented array's first `len` bytes as `IN` (41_bit_packer.md R153, 20_memory.md R53). -/
def State.attach (len : Word) (s : State) : State := { s with input := s.presented.restrict len.toNat }

/-! ## The checks before a command's own rule (60_exceptions.md R243, steps 1 and 2) -/

/-- What becomes of a command word. -/
inductive Verdict where
  | refuse
  | illegal (op : BitVec 8)
  | run (i : Instr)
  deriving DecidableEq, Repr

/-- Refused while `ERR ≠ 0` unless it is exactly the word of `CORE_RESET` (R242); else decoded (30_encoding.md R74). -/
def screen (w : Cmd) (s : State) : Verdict :=
  if s.err ≠ .noError ∧ w ≠ coreResetWord then .refuse
  else match decode w with
    | some i => .run i
    | none => .illegal (opField w)

end Sys2Proof.Machine
end

