-- ==== Sys2Proof/Machine/Model.lean ====
section
/-! DEFINITION. The frequency-model primitives (40_frequency_model.md R100 to R104). -/

namespace Sys2Proof.Machine

/-- `count(s)`: `COUNT[s]` for a byte value, 1 for the sentinel (10_state.md R27). -/
def countOf (count : Vector Word 256) (s : Nat) : Nat := if h : s < 256 then count[s].toNat else 1

/-- The running sums of a list from a start value, the start value first. -/
def runningSums : Nat → List Nat → List Nat
  | a, [] => [a]
  | a, c :: cs => a :: runningSums (a + c) cs

theorem runningSums_length (a : Nat) (cs : List Nat) : (runningSums a cs).length = cs.length + 1 := by
  induction cs generalizing a with
  | nil => rfl
  | cons c cs ih => simp [runningSums, ih]

/-- `CumTable()` (R101): the running sums of the 256 counts and the sentinel's 1. -/
def cumTable (count : Vector Word 256) : Vector Nat 258 :=
  ⟨(runningSums 0 (count.toList.map BitVec.toNat ++ [1])).toArray, by simp [runningSums_length]⟩

/-- `CUM[i]`; every rule's index is at most 257 (20_memory.md R51). -/
def cumAt (cum : Vector Nat 258) (i : Nat) : Nat := cum[i]?.getD 0

/-- The binary search of R103 over `[lo, hi)`, with a bound on its probes. -/
def searchCum (cum : Vector Nat 258) (value : Nat) : (probes lo hi : Nat) → Nat
  | 0, lo, _ => lo
  | n + 1, lo, hi =>
    if hi - lo > 1 then
      let mid := (lo + hi) / 2
      if cumAt cum mid ≤ value then searchCum cum value n mid hi else searchCum cum value n lo mid
    else lo

/-- `Lookup(value)` (R103): at most 9 probes narrow `[0, 257)` to one symbol (70_reset_and_hazards.md R281). -/
def lookup (cum : Vector Nat 258) (value : Nat) : Nat := searchCum cum value 9 0 257

/-- The validation of `Seal(E)` (R104): the table, or the error it raises. The total of 0 never occurs (90_conflicts.md C5). -/
def sealTable (w : Width) (count : Vector Word 256) (e : ErrCode) : Except ErrCode (Vector Nat 258) :=
  let table := cumTable count
  if table[257] = 0 then .error (if e = .corruptHeader then .corruptHeader else .corruptModel)
  else if table[257] > maxTotal w then .error e
  else .ok table

/-- `CUM <- c; TOTAL <- c[257]; FM_STATE <- READY` (R104). -/
def Regs.commitTable (r : Regs) (table : Vector Nat 258) : Regs :=
  { r with cum := table, total := table[257], fmState := .ready }

/-- `COUNT[i] <- v; FM_STATE <- OPEN` (R111, R112). -/
def Regs.writeCount (r : Regs) (i : Nat) (v : Word) : Regs :=
  { r with count := r.count.setIfInBounds i v, fmState := .openModel }

/-- One more occurrence, saturating at `2^32 − 1` (R111). -/
def saturatingSucc (c : Word) : Word := if c.toNat < countMax then c + 1 else c

end Sys2Proof.Machine
end

