-- ==== Sys2Proof/Machine/Interval.lean ====
section
/-! DEFINITION. The interval algebra that encoder and decoder share (42_encoder.md R170 to R179), on naturals (00_scope.md
R11), and one renormalisation routine for both: it answers the shifts it made, and each coder says what a
shift does with a bit. -/

namespace Sys2Proof.Machine

/-- `range = high − low + 1` (R171). -/
def Interval.range (iv : Interval) : Nat := iv.high - iv.low + 1

/-- `Narrow(low, high, s)`, both results from the old `low` (R171). -/
def narrow (cum : Vector Nat 258) (total : Nat) (iv : Interval) (s : Nat) : Interval where
  low := iv.low + cumAt cum s * iv.range / total
  high := iv.low + cumAt cum (s + 1) * iv.range / total - 1

/-- `msb(v)`, bit `W − 1` (00_scope.md R11). -/
def msb (w : Width) (v : Nat) : Bool := v.testBit (w.bits - 1)

/-- Bit `W − 2`, the second-highest. -/
def secondBit (w : Width) (v : Nat) : Bool := v.testBit (w.bits - 2)

/-- `E12(low, high)`: the top bits agree (R172). -/
def Interval.e12 (w : Width) (iv : Interval) : Bool := msb w iv.low == msb w iv.high

/-- `E3(low, high)`: `low[W−2] = 1` and `high[W−2] = 0` (R173). -/
def Interval.e3 (w : Width) (iv : Interval) : Bool := secondBit w iv.low && !secondBit w iv.high

/-- `((v << 1) & MASK) | b`: the E1/E2 transform, a bit filled in at the low end (R174, 43_decoder.md R202). -/
def shiftE12 (w : Width) (v : Nat) (b : Bool) : Nat := ((v <<< 1) &&& mask w) ||| b.toNat

/-- `(((v xor QUARTER) << 1) & MASK) | b`: the E3 transform (R174, 43_decoder.md R203; 90_conflicts.md C1). -/
def shiftE3 (w : Width) (v : Nat) (b : Bool) : Nat := (((v ^^^ quarter w) <<< 1) &&& mask w) ||| b.toNat

/-- `ShiftE12(low, high)`: fill 0 and fill 1 (R174). -/
def Interval.shiftE12 (w : Width) (iv : Interval) : Interval :=
  ⟨Machine.shiftE12 w iv.low false, Machine.shiftE12 w iv.high true⟩

/-- `ShiftE3(low, high)` (R174). -/
def Interval.shiftE3 (w : Width) (iv : Interval) : Interval :=
  ⟨Machine.shiftE3 w iv.low false, Machine.shiftE3 w iv.high true⟩

/-- A shift of the renormalisation: E1/E2 with the converged top bit, or E3. -/
inductive Shift where
  | e12 (bit : Bool)
  | e3
  deriving DecidableEq, Repr

/-- The E1/E2 loop (R176, 43_decoder.md R202), at most `n` shifts. -/
def e12Loop (w : Width) : Nat → Interval → List Shift × Interval
  | 0, iv => ([], iv)
  | n + 1, iv =>
    if iv.e12 w then
      let rest := e12Loop w n (iv.shiftE12 w)
      (.e12 (msb w iv.low) :: rest.1, rest.2)
    else ([], iv)

/-- The E3 loop (R177, 43_decoder.md R203), at most `n` shifts. -/
def e3Loop (w : Width) : Nat → Interval → List Shift × Interval
  | 0, iv => ([], iv)
  | n + 1, iv =>
    if iv.e3 w then
      let rest := e3Loop w n (iv.shiftE3 w)
      (.e3 :: rest.1, rest.2)
    else ([], iv)

/-- Both loops in order (R175): the shifts made and the interval left. One call makes at most `W` shifts (R178; log 8). -/
def renorm (w : Width) (iv : Interval) : List Shift × Interval :=
  let first := e12Loop w w.bits iv
  let second := e3Loop w w.bits first.2
  (first.1 ++ second.1, second.2)

/-- `DecValue()` (43_decoder.md R200). -/
def decValue (total : Nat) (iv : Interval) (code : Nat) : Nat := ((code - iv.low + 1) * total - 1) / iv.range

end Sys2Proof.Machine
end

