-- ==== Sys2Proof/Machine/Control.lean ====
section
/-! DEFINITION. The core control commands (44_core_control.md). Every meaning in the family files runs after the
checks of `screen` (60_exceptions.md R243, steps 1 and 2). -/

namespace Sys2Proof.Machine

/-- `NOP` (R230). -/
def execNop (s : State) : Result := .next s

/-- `CORE_RESET` (R231). -/
def execCoreReset (s : State) : Result := .next (resetAll s)

end Sys2Proof.Machine
end

