-- ==== Sys2Proof/Machine/Decoder.lean ====
section
/-! DEFINITION. The decoder: what a shift does with its bit, and the decoder commands (43_decoder.md R200 to R211). -/

namespace Sys2Proof.Machine

/-- `DCODE` takes the bounds' transform, the next input bit at its low end (R202, R203). -/
def shiftCode (w : Width) : Shift → Nat → Bool → Nat
  | .e12 _, code, b => shiftE12 w code b
  | .e3, code, b => shiftE3 w code b

def decShift (x : Shift) (s : State) : Access Unit :=
  (nextBit s).andThen fun b s' =>
    .done () (s'.withRegs { s'.regs with dcode := toReg (shiftCode s'.width x s'.regs.dcode.toNat b) })

def decShifts : List Shift → State → Access Unit
  | [], s => .done () s
  | x :: xs, s => (decShift x s).andThen fun _ s' => decShifts xs s'

/-- The value of `DecValue()` in a state (R200). -/
def currentValue (r : Regs) : Nat := decValue r.total r.decInterval r.dcode.toNat

/-- `DecodeSymbol()` (R204). -/
def decodeSymbol (s : State) : Access Nat :=
  let sym := lookup s.regs.cum (currentValue s.regs)
  let result := renorm s.width (narrow s.regs.cum s.regs.total s.regs.decInterval sym)
  ((decShifts result.1 s).thenRegs fun _ r => r.setDecInterval result.2).andThen fun _ s' => .done sym s'

/-- `repeat n times: DCODE <- ((DCODE << 1) & MASK) | NextBit()` (R206). -/
def primeBits : Nat → State → Access Unit
  | 0, s => .done () s
  | n + 1, s =>
    (nextBit s).andThen fun b s' =>
      primeBits n (s'.withRegs { s'.regs with dcode := toReg (shiftE12 s'.width s'.regs.dcode.toNat b) })

/-- `Prime()` (R206). -/
def prime (s : State) : Access Unit := primeBits s.width.bits (s.withRegs { s.regs with dcode := 0 })

/-- `DEC_INIT` (R210). -/
def execDecInit (s : State) : Result :=
  if !s.regs.fmReady || s.regs.decState == .active then raise .sequenceError Instr.decInit.opcode s
  else ((prime (s.withRegs (s.regs.setDecInterval (fullInterval s.width)))).thenRegs fun _ r =>
    { r with decState := .active }).finish Instr.decInit.opcode

/-- `DEC_STATE` after the symbol: `DONE` on the sentinel (R211). -/
def decStateAfter (sym : Nat) (old : DecState) : DecState := if sym = sentinel then .done else old

/-- `DEC_NEXT` (R211). -/
def execDecNext (s : State) : Result :=
  if s.regs.decState ≠ .active then raise .sequenceError Instr.decNext.opcode s
  else ((decodeSymbol s).thenRegs fun sym r =>
    { r with res := BitVec.ofNat 32 sym, decState := decStateAfter sym r.decState }).finish Instr.decNext.opcode

end Sys2Proof.Machine
end

