-- ==== Sys2Proof/Machine/Encoder.lean ====
section
/-! DEFINITION. The encoder: what a shift does with its bit, and the encoder commands (42_encoder.md R175 to R182). -/

namespace Sys2Proof.Machine

/-- An E1/E2 shift sends the converged bit and then `UFC` opposite bits (R176); an E3 shift defers one (R177). -/
def encShift : Shift → State → Access Unit
  | .e12 b, s =>
    (emitBit b s).andThen fun _ s1 =>
      (emitRepeated (!b) s.regs.ufc s1).thenRegs fun _ r => { r with ufc := 0 }
  | .e3, s => .done () (s.withRegs { s.regs with ufc := s.regs.ufc + 1 })

def encShifts : List Shift → State → Access Unit
  | [], s => .done () s
  | x :: xs, s => (encShift x s).andThen fun _ s' => encShifts xs s'

/-- `EncodeSymbol(s)` (R175). -/
def encodeSymbol (sym : Nat) (s : State) : Access Unit :=
  let result := renorm s.width (narrow s.regs.cum s.regs.total s.regs.encInterval sym)
  (encShifts result.1 s).thenRegs fun _ r => r.setEncInterval result.2

/-- `ENC_INIT` (R180). -/
def execEncInit (s : State) : Result :=
  if !s.regs.fmReady || s.regs.encState == .active then raise .sequenceError Instr.encInit.opcode s
  else .next (s.withRegs { s.regs.setEncInterval (fullInterval s.width) with ufc := 0, encState := .active })

/-- `ENC_UPDATE sym` (R181). -/
def execEncUpdate (sym : BitVec 9) (s : State) : Result :=
  if !isByteSymbol sym then raise .invalidSymbol (Instr.encUpdate sym).opcode s
  else if s.regs.encState ≠ .active then raise .sequenceError (Instr.encUpdate sym).opcode s
  else if cumAt s.regs.cum (sym.toNat + 1) = cumAt s.regs.cum sym.toNat then
    raise .zeroFrequency (Instr.encUpdate sym).opcode s
  else (encodeSymbol sym.toNat s).finish (Instr.encUpdate sym).opcode

/-- `ENC_FINISH` (R182): the sentinel, then the final bit 1; the pending `UFC` bits are not sent. -/
def execEncFinish (s : State) : Result :=
  if s.regs.encState ≠ .active then raise .sequenceError Instr.encFinish.opcode s
  else (((encodeSymbol sentinel s).andThen fun _ s' => emitBit true s').thenRegs fun _ r =>
    { r with encState := .flushed }).finish Instr.encFinish.opcode

end Sys2Proof.Machine
end

