-- ==== Sys2Proof/Machine/Frequency.lean ====
section
/-! DEFINITION. The frequency-model commands (40_frequency_model.md R110 to R120), their checks in the order of each rule. -/

namespace Sys2Proof.Machine

/-- `FM_RESET` (R110). `CUM` and `TOTAL` are left as they were (log 9). -/
def execFmReset (s : State) : Result :=
  if s.regs.coderActive then raise .sequenceError Instr.fmReset.opcode s
  else .next (s.withRegs { s.regs with count := Vector.replicate 256 0, fmState := .openModel })

/-- `FM_COUNT byte` (R111). -/
def execFmCount (byte : Byte) (s : State) : Result :=
  if s.regs.coderActive then raise .sequenceError (Instr.fmCount byte).opcode s
  else .next (s.withRegs (s.regs.writeCount byte.toNat (saturatingSucc s.regs.count[byte.toNat])))

/-- `FM_SETCOUNT sym, count` (R112). -/
def execFmSetcount (sym : BitVec 9) (count : Word) (s : State) : Result :=
  if !isByteSymbol sym then raise .invalidSymbol (Instr.fmSetcount sym count).opcode s
  else if s.regs.coderActive then raise .sequenceError (Instr.fmSetcount sym count).opcode s
  else .next (s.withRegs (s.regs.writeCount sym.toNat count))

/-- The error of an over-budget total: `PRECISION_OVERFLOW` for built counts, `CORRUPT_MODEL` for loaded ones (R113). -/
def sealError : SealSource → ErrCode
  | .built => .precisionOverflow
  | .header => .corruptModel

/-- `FM_SEAL SRC` (R113). -/
def execFmSeal (src : SealSource) (s : State) : Result :=
  if s.regs.coderActive then raise .sequenceError (Instr.fmSeal src).opcode s
  else match sealTable s.width s.regs.count (sealError src) with
    | .error e => raise e (Instr.fmSeal src).opcode s
    | .ok table => .next (s.withRegs (s.regs.commitTable table))

/-- `RES <- v`. -/
def setRes (v : Nat) (s : State) : Result := .next (s.withRegs { s.regs with res := BitVec.ofNat 32 v })

/-- `FM_GETCOUNT sym` (R114). -/
def execFmGetcount (sym : BitVec 9) (s : State) : Result :=
  if !isSymbol sym then raise .invalidSymbol (Instr.fmGetcount sym).opcode s
  else setRes (countOf s.regs.count sym.toNat) s

/-- `FM_GETLOW sym` (R115). -/
def execFmGetlow (sym : BitVec 9) (s : State) : Result :=
  if !isSymbol sym then raise .invalidSymbol (Instr.fmGetlow sym).opcode s
  else if !s.regs.fmReady then raise .sequenceError (Instr.fmGetlow sym).opcode s
  else setRes (cumAt s.regs.cum sym.toNat) s

/-- `FM_GETHIGH sym` (R116). -/
def execFmGethigh (sym : BitVec 9) (s : State) : Result :=
  if !isSymbol sym then raise .invalidSymbol (Instr.fmGethigh sym).opcode s
  else if !s.regs.fmReady then raise .sequenceError (Instr.fmGethigh sym).opcode s
  else setRes (cumAt s.regs.cum (sym.toNat + 1)) s

/-- `FM_GETTOTAL` (R117). -/
def execFmGettotal (s : State) : Result :=
  if !s.regs.fmReady then raise .sequenceError Instr.fmGettotal.opcode s
  else setRes s.regs.total s

/-- `FM_LOOKUP value` (R118). -/
def execFmLookup (value : Word) (s : State) : Result :=
  if !s.regs.fmReady then raise .sequenceError (Instr.fmLookup value).opcode s
  else if value.toNat ≥ s.regs.total then raise .valueOutOfRange (Instr.fmLookup value).opcode s
  else setRes (lookup s.regs.cum value.toNat) s

/-- `FM_WRITE_HEADER` (R119). -/
def execFmWriteHeader (s : State) : Result :=
  if !s.regs.fmReady || s.regs.encState == .active then raise .sequenceError Instr.fmWriteHeader.opcode s
  else if s.regs.nacc ≠ 0 then raise .misalignedRaw Instr.fmWriteHeader.opcode s
  else (emitRawBytes (headerBytes s.regs.count) s).finish Instr.fmWriteHeader.opcode

/-- The end of `FM_READ_HEADER`, from the loaded counts on: commit all of it or raise (R120). -/
def commitHeader (counts : Vector Word 256) (s : State) : Result :=
  match sealTable s.width counts .corruptHeader with
  | .error e => raise e Instr.fmReadHeader.opcode s
  | .ok table =>
    .next (s.withRegs { s.regs.commitTable table with count := counts, rpos := s.regs.rpos + 8 * headerBytesLen })

/-- `FM_READ_HEADER` (R120). -/
def execFmReadHeader (s : State) : Result :=
  if s.regs.coderActive then raise .sequenceError Instr.fmReadHeader.opcode s
  else if s.regs.rpos % 8 ≠ 0 then raise .misalignedRaw Instr.fmReadHeader.opcode s
  else if s.regs.rpos / 8 + headerBytesLen > s.regs.brLen.toNat then raise .corruptHeader Instr.fmReadHeader.opcode s
  else match sourceReadMany headerBytesLen (s.regs.rpos / 8) s with
    | .ioFailed s' => .next (ioFailureEntry Instr.fmReadHeader.opcode s')
    | .done bytes s' => commitHeader (headerCounts bytes) s'

end Sys2Proof.Machine
end

