-- ==== Sys2Proof/Machine/Packer.lean ====
section
/-! DEFINITION. The bit-packer commands (41_bit_packer.md R150 to R154), their checks in the order of each rule. -/

namespace Sys2Proof.Machine

/-- `BW_WRITE_BIT bit` (R150). -/
def execBwWriteBit (bit : Bool) (s : State) : Result :=
  if s.regs.encState = .active then raise .sequenceError (Instr.bwWriteBit bit).opcode s
  else (emitBit bit s).finish (Instr.bwWriteBit bit).opcode

/-- `BW_WRITE_RAW_BYTE byte` (R151). -/
def execBwWriteRawByte (byte : Byte) (s : State) : Result :=
  if s.regs.encState = .active then raise .sequenceError (Instr.bwWriteRawByte byte).opcode s
  else if s.regs.nacc ≠ 0 then raise .misalignedRaw (Instr.bwWriteRawByte byte).opcode s
  else (emitRawByte byte s).finish (Instr.bwWriteRawByte byte).opcode

/-- `BW_FINALIZE` (R152). -/
def execBwFinalize (s : State) : Result :=
  if s.regs.encState = .active then raise .sequenceError Instr.bwFinalize.opcode s
  else if s.regs.nacc ≠ 0 then
    ((sinkWrite (paddedByte s.regs) s).thenRegs fun _ r =>
      { r with finBits := r.nacc, acc := 0, nacc := 0 }).finish Instr.bwFinalize.opcode
  else .next (s.withRegs { s.regs with finBits := 0 })

/-- `BR_ATTACH len` (R153). -/
def execBrAttach (len : Word) (s : State) : Result :=
  if s.regs.decState = .active then raise .sequenceError (Instr.brAttach len).opcode s
  else .next ((s.withRegs { s.regs with brLen := len, rpos := 0 }).attach len)

/-- `BR_READ_BIT` (R154). -/
def execBrReadBit (s : State) : Result :=
  if s.regs.decState = .active then raise .sequenceError Instr.brReadBit.opcode s
  else ((nextBit s).thenRegs fun b r => { r with res := BitVec.ofNat 32 b.toNat }).finish Instr.brReadBit.opcode

end Sys2Proof.Machine
end

