-- ==== Sys2Proof/Machine/Dispatch.lean ====
section
/-! DEFINITION. The meaning of each command, one arm per constructor of `Instr` (30_encoding.md R73). -/

namespace Sys2Proof.Machine

def exec (i : Instr) (s : State) : Host.Outcome State Fault Refusal :=
  match i with
  | .nop => Sys2Proof.Machine.execNop s
  | .coreReset => Sys2Proof.Machine.execCoreReset s
  | .fmReset => Sys2Proof.Machine.execFmReset s
  | .fmCount byte => Sys2Proof.Machine.execFmCount byte s
  | .fmSetcount sym count => Sys2Proof.Machine.execFmSetcount sym count s
  | .fmSeal src => Sys2Proof.Machine.execFmSeal src s
  | .fmGetcount sym => Sys2Proof.Machine.execFmGetcount sym s
  | .fmGetlow sym => Sys2Proof.Machine.execFmGetlow sym s
  | .fmGethigh sym => Sys2Proof.Machine.execFmGethigh sym s
  | .fmGettotal => Sys2Proof.Machine.execFmGettotal s
  | .fmLookup value => Sys2Proof.Machine.execFmLookup value s
  | .fmWriteHeader => Sys2Proof.Machine.execFmWriteHeader s
  | .fmReadHeader => Sys2Proof.Machine.execFmReadHeader s
  | .bwWriteBit bit => Sys2Proof.Machine.execBwWriteBit bit s
  | .bwWriteRawByte byte => Sys2Proof.Machine.execBwWriteRawByte byte s
  | .bwFinalize => Sys2Proof.Machine.execBwFinalize s
  | .brAttach len => Sys2Proof.Machine.execBrAttach len s
  | .brReadBit => Sys2Proof.Machine.execBrReadBit s
  | .encInit => Sys2Proof.Machine.execEncInit s
  | .encUpdate sym => Sys2Proof.Machine.execEncUpdate sym s
  | .encFinish => Sys2Proof.Machine.execEncFinish s
  | .decInit => Sys2Proof.Machine.execDecInit s
  | .decNext => Sys2Proof.Machine.execDecNext s

end Sys2Proof.Machine
end

