-- ==== Sys2Proof/Machine/Step.lean ====
section
/-! DEFINITION. One step: the host's next action (70_reset_and_hazards.md R282, R283; log 2). -/

namespace Sys2Proof.Machine

/-- A command word from the host (60_exceptions.md R242, R243; 30_encoding.md R74). -/
def stepCommand (word : Cmd) (s : State) : Host.Outcome State Fault Refusal :=
  match screen word s with
  | .refuse => .next s
  | .illegal op => raise .illegalCommand op s
  | .run i => exec i s

/-- The first waiting action of the host is taken off and happens; with none waiting the core is idle (R282). -/
def step (s : State) : Host.Outcome State Fault Refusal :=
  match s.queue with
  | [] => .next s
  | .command word :: rest => stepCommand word (s.withQueue rest)
  | .present bytes :: rest => .next (presentInput bytes (s.withQueue rest))
  | .readPort addr :: rest => .next (readPort addr (s.withQueue rest))
  | .resetInput :: rest => .next (resetAll (s.withQueue rest))

/-- The host issues the word whose bits are `w` before anything else it has waiting, so the next step takes it. -/
def State.withFetchWord (s : State) (nbits w : Nat) : State :=
  s.withQueue (.command (tableWord nbits w) :: s.queue)

end Sys2Proof.Machine
end

