-- ==== Sys2Proof/Safety.lean ====
section
/-! DEFINITION. What claims about the machine are stated in: the invariants of 10_state.md R36 and of the rules that say
"always", and the bits, bytes and accesses of a command as plain lists. -/

namespace Sys2Proof.Machine

/-! ## Invariants between commands -/

/-- The sum of `count(0)` to `count(n−1)` (40_frequency_model.md R101). -/
def countsBelow (count : Vector Word 256) (n : Nat) : Nat := ((List.range n).map (countOf count)).sum

/-- While `READY`, `CUM` and `TOTAL` are the table of the current counts and within the budget (10_state.md R28, R29). -/
abbrev Regs.modelSealed (w : Width) (r : Regs) : Prop :=
  r.fmState = .ready → r.cum = cumTable r.count ∧ r.total = r.cum[257] ∧ r.total ≤ maxTotal w

/-- A coder that is active has a sealed model (42_encoder.md R181, 40_frequency_model.md R105). -/
abbrev Regs.activeHasModel (r : Regs) : Prop := r.coderActive = true → r.fmState = .ready

/-- `low ≤ high`, both W-bit values (10_state.md R33, R36). -/
abbrev Interval.legal (w : Width) (iv : Interval) : Prop := iv.low ≤ iv.high ∧ iv.high ≤ mask w

/-- Wide enough for every sealed model (42_encoder.md R179). -/
abbrev Interval.wide (w : Width) (iv : Interval) : Prop := quarter w + 2 ≤ iv.range

/-- The encoder's interval (10_state.md R36, 42_encoder.md R179). -/
abbrev Regs.encoderLegal (w : Width) (r : Regs) : Prop :=
  r.encInterval.legal w ∧ (r.encState = .active → r.encInterval.wide w)

/-- The decoder's interval and its code inside it (10_state.md R36, 43_decoder.md R204, R205). -/
abbrev Regs.decoderLegal (w : Width) (r : Regs) : Prop :=
  r.decInterval.legal w ∧ r.dlow ≤ r.dcode ∧ r.dcode ≤ r.dhigh ∧ (r.decState = .active → r.decInterval.wide w)

/-- The bits the writer holds sit in `ACC[NACC−1:0]` (10_state.md R30). -/
abbrev Regs.writerLegal (r : Regs) : Prop := r.acc.toNat < 2 ^ r.nacc.toNat

/-- `RPOS ≤ 8·BR_LEN` (10_state.md R32). -/
abbrev Regs.readerLegal (r : Regs) : Prop := r.rpos ≤ r.inputBits

abbrev Regs.Inv (w : Width) (r : Regs) : Prop :=
  r.modelSealed w ∧ r.activeHasModel ∧ r.encoderLegal w ∧ r.decoderLegal w ∧ r.writerLegal ∧ r.readerLegal

/-- The byte a successful sink write adds to `OUT`, if the event is one (20_memory.md R52). -/
def IoEvent.sunk : IoEvent → Option Byte
  | .sinkWrite b .success => some b
  | .sinkWrite _ .failure => none
  | .sourceRead _ _ => none

def IoEvent.answer : IoEvent → IoAnswer
  | .sinkWrite _ a => a
  | .sourceRead _ a => a

/-- The invariant of the machine. The registers are unspecified after an `IO_FAILURE` (60_exceptions.md R245), so what it
says of them holds in every other state. -/
abbrev State.Inv (s : State) : Prop :=
  (s.err ≠ .ioFailure → s.regs.Inv s.width) ∧ (s.err = .noError → s.errOp = 0)
    ∧ Memory.wf s.input ∧ Memory.wf s.presented ∧ s.out = s.history.filterMap IoEvent.sunk

/-! ## Accesses -/

/-- The environment answers the next `n` accesses with success (00_scope.md R12; an exhausted list answers success, log 4). -/
abbrev State.grants (n : Nat) (s : State) : Prop := ∀ a ∈ s.draws.take n, a = .success

/-- The state after the sink took these bytes in order. -/
def State.afterWrites (bytes : List Byte) (s : State) : State :=
  { s with
    draws := s.draws.drop bytes.length
    history := s.history ++ bytes.map fun b => .sinkWrite b .success
    out := s.out ++ bytes }

/-- The state after the source answered reads of these indices in order. -/
def State.afterReads (indices : List Nat) (s : State) : State :=
  { s with
    draws := s.draws.drop indices.length
    history := s.history ++ indices.map fun i => .sourceRead i .success }

/-! ## The output bitstream (20_memory.md R54) -/

/-- The bits of a byte, bit 7 first. -/
def bitsMsbFirst (b : Byte) : List Bool := (List.range 8).map fun k => b.getLsbD (7 - k)

/-- The bits in the accumulator, the oldest first (10_state.md R30). -/
def Regs.pendingBits (r : Regs) : List Bool :=
  (List.range r.nacc.toNat).map fun k => r.acc.getLsbD (r.nacc.toNat - 1 - k)

/-- Every bit written so far: those in `OUT`, then those pending. -/
def State.writtenBits (s : State) : List Bool := s.out.flatMap bitsMsbFirst ++ s.regs.pendingBits

/-- What writing bits from a given accumulator sends: the full bytes, and the accumulator and its count left. -/
def packBits : List Bool → Byte → BitVec 3 → List Byte × Byte × BitVec 3
  | [], acc, n => ([], acc, n)
  | b :: bs, acc, n =>
    if n = 7 then
      let rest := packBits bs 0 0
      (shiftInBit acc b :: rest.1, rest.2)
    else packBits bs (shiftInBit acc b) (n + 1)

/-- The bits an encoder sends for a sequence of shifts, and the underflow count left (42_encoder.md R176, R177). -/
def codedBits : Nat → List Shift → List Bool × Nat
  | ufc, [] => ([], ufc)
  | ufc, .e12 b :: xs =>
    let rest := codedBits 0 xs
    (b :: List.replicate ufc (!b) ++ rest.1, rest.2)
  | ufc, .e3 :: xs => codedBits (ufc + 1) xs

/-! ## The input bitstream (41_bit_packer.md R142) -/

/-- Bit `i` of the attached input, 0 at and past its end. -/
def State.inputBit (s : State) (i : Nat) : Bool :=
  if i < s.regs.inputBits then bitAt (s.input.read (i / 8)) i else false

/-- The next `n` bits the reader returns. -/
def State.comingBits (n : Nat) (s : State) : List Bool := (List.range n).map fun k => s.inputBit (s.regs.rpos + k)

/-- The indices of the source bytes read for the next `n` bits, one read for each bit before the end (log 5). -/
def Regs.comingReads (n : Nat) (r : Regs) : List Nat :=
  (List.range (min n (r.inputBits - r.rpos))).map fun k => (r.rpos + k) / 8

/-- `RPOS` after `n` bits: it stops at the end. -/
def Regs.rposAfter (n : Nat) (r : Regs) : Nat := r.rpos + min n (r.inputBits - r.rpos)

/-- The number a bit sequence spells, the first bit most significant. -/
def bitsToNat : List Bool → Nat
  | [] => 0
  | b :: bs => b.toNat * 2 ^ bs.length + bitsToNat bs

/-- `DCODE` after a sequence of shifts, each with the bit it takes in (43_decoder.md R202, R203). -/
def shiftedCode (w : Width) : List Shift → List Bool → Nat → Nat
  | x :: xs, b :: bs, code => shiftedCode w xs bs (shiftCode w x code b)
  | [], _, code => code
  | _ :: _, [], code => code

/-! ## Command sequences -/

/-- The commands one after another (20_memory.md R61). -/
def execAll : List Instr → State → Result
  | [], s => .next s
  | i :: is, s =>
    match exec i s with
    | .next t => execAll is t
    | .fault f => .fault f
    | .refused r => .refused r

end Sys2Proof.Machine
end

