-- ==== Sys2Proof/Laws/State.lean ====
section
/-! SUPPORT. One lemma per field per update, so that no proof unfolds a record update. -/

namespace Sys2Proof.Machine

section StateUpdates
variable (s : State)

/-! State.withRegs -/

@[simp] theorem State.withRegs_width (r : Regs) : (s.withRegs r).width = s.width := rfl
@[simp] theorem State.withRegs_err (r : Regs) : (s.withRegs r).err = s.err := rfl
@[simp] theorem State.withRegs_errOp (r : Regs) : (s.withRegs r).errOp = s.errOp := rfl
@[simp] theorem State.withRegs_regs (r : Regs) : (s.withRegs r).regs = r := rfl
@[simp] theorem State.withRegs_out (r : Regs) : (s.withRegs r).out = s.out := rfl
@[simp] theorem State.withRegs_input (r : Regs) : (s.withRegs r).input = s.input := rfl
@[simp] theorem State.withRegs_presented (r : Regs) : (s.withRegs r).presented = s.presented := rfl
@[simp] theorem State.withRegs_draws (r : Regs) : (s.withRegs r).draws = s.draws := rfl
@[simp] theorem State.withRegs_history (r : Regs) : (s.withRegs r).history = s.history := rfl
@[simp] theorem State.withRegs_queue (r : Regs) : (s.withRegs r).queue = s.queue := rfl
@[simp] theorem State.withRegs_portReads (r : Regs) : (s.withRegs r).portReads = s.portReads := rfl
@[simp] theorem State.withRegs_freeCtr (r : Regs) : (s.withRegs r).freeCtr = s.freeCtr := rfl

/-! State.withQueue -/

@[simp] theorem State.withQueue_width (q : List HostAction) : (s.withQueue q).width = s.width := rfl
@[simp] theorem State.withQueue_err (q : List HostAction) : (s.withQueue q).err = s.err := rfl
@[simp] theorem State.withQueue_errOp (q : List HostAction) : (s.withQueue q).errOp = s.errOp := rfl
@[simp] theorem State.withQueue_regs (q : List HostAction) : (s.withQueue q).regs = s.regs := rfl
@[simp] theorem State.withQueue_out (q : List HostAction) : (s.withQueue q).out = s.out := rfl
@[simp] theorem State.withQueue_input (q : List HostAction) : (s.withQueue q).input = s.input := rfl
@[simp] theorem State.withQueue_presented (q : List HostAction) : (s.withQueue q).presented = s.presented := rfl
@[simp] theorem State.withQueue_draws (q : List HostAction) : (s.withQueue q).draws = s.draws := rfl
@[simp] theorem State.withQueue_history (q : List HostAction) : (s.withQueue q).history = s.history := rfl
@[simp] theorem State.withQueue_queue (q : List HostAction) : (s.withQueue q).queue = q := rfl
@[simp] theorem State.withQueue_portReads (q : List HostAction) : (s.withQueue q).portReads = s.portReads := rfl
@[simp] theorem State.withQueue_freeCtr (q : List HostAction) : (s.withQueue q).freeCtr = s.freeCtr := rfl

/-! errorEntry -/

@[simp] theorem errorEntry_width (e : ErrCode) (op : BitVec 8) : (errorEntry e op s).width = s.width := rfl
@[simp] theorem errorEntry_err (e : ErrCode) (op : BitVec 8) : (errorEntry e op s).err = e := rfl
@[simp] theorem errorEntry_errOp (e : ErrCode) (op : BitVec 8) : (errorEntry e op s).errOp = op := rfl
@[simp] theorem errorEntry_regs (e : ErrCode) (op : BitVec 8) : (errorEntry e op s).regs = s.regs := rfl
@[simp] theorem errorEntry_out (e : ErrCode) (op : BitVec 8) : (errorEntry e op s).out = s.out := rfl
@[simp] theorem errorEntry_input (e : ErrCode) (op : BitVec 8) : (errorEntry e op s).input = s.input := rfl
@[simp] theorem errorEntry_presented (e : ErrCode) (op : BitVec 8) : (errorEntry e op s).presented = s.presented := rfl
@[simp] theorem errorEntry_draws (e : ErrCode) (op : BitVec 8) : (errorEntry e op s).draws = s.draws := rfl
@[simp] theorem errorEntry_history (e : ErrCode) (op : BitVec 8) : (errorEntry e op s).history = s.history := rfl
@[simp] theorem errorEntry_queue (e : ErrCode) (op : BitVec 8) : (errorEntry e op s).queue = s.queue := rfl
@[simp] theorem errorEntry_portReads (e : ErrCode) (op : BitVec 8) : (errorEntry e op s).portReads = s.portReads := rfl
@[simp] theorem errorEntry_freeCtr (e : ErrCode) (op : BitVec 8) : (errorEntry e op s).freeCtr = s.freeCtr := rfl

/-! ioFailureEntry -/

@[simp] theorem ioFailureEntry_width (op : BitVec 8) : (ioFailureEntry op s).width = s.width := rfl
@[simp] theorem ioFailureEntry_err (op : BitVec 8) : (ioFailureEntry op s).err = .ioFailure := rfl
@[simp] theorem ioFailureEntry_errOp (op : BitVec 8) : (ioFailureEntry op s).errOp = op := rfl
@[simp] theorem ioFailureEntry_regs (op : BitVec 8) : (ioFailureEntry op s).regs = freeRegs s.freeCtr := rfl
@[simp] theorem ioFailureEntry_out (op : BitVec 8) : (ioFailureEntry op s).out = s.out := rfl
@[simp] theorem ioFailureEntry_input (op : BitVec 8) : (ioFailureEntry op s).input = s.input := rfl
@[simp] theorem ioFailureEntry_presented (op : BitVec 8) : (ioFailureEntry op s).presented = s.presented := rfl
@[simp] theorem ioFailureEntry_draws (op : BitVec 8) : (ioFailureEntry op s).draws = s.draws := rfl
@[simp] theorem ioFailureEntry_history (op : BitVec 8) : (ioFailureEntry op s).history = s.history := rfl
@[simp] theorem ioFailureEntry_queue (op : BitVec 8) : (ioFailureEntry op s).queue = s.queue := rfl
@[simp] theorem ioFailureEntry_portReads (op : BitVec 8) : (ioFailureEntry op s).portReads = s.portReads := rfl
@[simp] theorem ioFailureEntry_freeCtr (op : BitVec 8) : (ioFailureEntry op s).freeCtr = s.freeCtr + 1 := rfl

/-! resetAll -/

@[simp] theorem resetAll_width : (resetAll s).width = s.width := rfl
@[simp] theorem resetAll_err : (resetAll s).err = .noError := rfl
@[simp] theorem resetAll_errOp : (resetAll s).errOp = 0 := rfl
@[simp] theorem resetAll_regs : (resetAll s).regs = Regs.reset s.width := rfl
@[simp] theorem resetAll_out : (resetAll s).out = s.out := rfl
@[simp] theorem resetAll_input : (resetAll s).input = s.input := rfl
@[simp] theorem resetAll_presented : (resetAll s).presented = s.presented := rfl
@[simp] theorem resetAll_draws : (resetAll s).draws = s.draws := rfl
@[simp] theorem resetAll_history : (resetAll s).history = s.history := rfl
@[simp] theorem resetAll_queue : (resetAll s).queue = s.queue := rfl
@[simp] theorem resetAll_portReads : (resetAll s).portReads = s.portReads := rfl
@[simp] theorem resetAll_freeCtr : (resetAll s).freeCtr = s.freeCtr := rfl

/-! State.recordAccess -/

@[simp] theorem State.recordAccess_width (ev : IoAnswer → IoEvent) : (s.recordAccess ev).width = s.width := rfl
@[simp] theorem State.recordAccess_err (ev : IoAnswer → IoEvent) : (s.recordAccess ev).err = s.err := rfl
@[simp] theorem State.recordAccess_errOp (ev : IoAnswer → IoEvent) : (s.recordAccess ev).errOp = s.errOp := rfl
@[simp] theorem State.recordAccess_regs (ev : IoAnswer → IoEvent) : (s.recordAccess ev).regs = s.regs := rfl
@[simp] theorem State.recordAccess_out (ev : IoAnswer → IoEvent) : (s.recordAccess ev).out = s.out := rfl
@[simp] theorem State.recordAccess_input (ev : IoAnswer → IoEvent) : (s.recordAccess ev).input = s.input := rfl
@[simp] theorem State.recordAccess_presented (ev : IoAnswer → IoEvent) : (s.recordAccess ev).presented = s.presented := rfl
@[simp] theorem State.recordAccess_draws (ev : IoAnswer → IoEvent) : (s.recordAccess ev).draws = s.draws.tail := rfl
@[simp] theorem State.recordAccess_history (ev : IoAnswer → IoEvent) : (s.recordAccess ev).history = s.history ++ [ev s.nextAnswer] := rfl
@[simp] theorem State.recordAccess_queue (ev : IoAnswer → IoEvent) : (s.recordAccess ev).queue = s.queue := rfl
@[simp] theorem State.recordAccess_portReads (ev : IoAnswer → IoEvent) : (s.recordAccess ev).portReads = s.portReads := rfl
@[simp] theorem State.recordAccess_freeCtr (ev : IoAnswer → IoEvent) : (s.recordAccess ev).freeCtr = s.freeCtr := rfl

/-! State.appendOut -/

@[simp] theorem State.appendOut_width (b : Byte) : (s.appendOut b).width = s.width := rfl
@[simp] theorem State.appendOut_err (b : Byte) : (s.appendOut b).err = s.err := rfl
@[simp] theorem State.appendOut_errOp (b : Byte) : (s.appendOut b).errOp = s.errOp := rfl
@[simp] theorem State.appendOut_regs (b : Byte) : (s.appendOut b).regs = s.regs := rfl
@[simp] theorem State.appendOut_out (b : Byte) : (s.appendOut b).out = s.out ++ [b] := rfl
@[simp] theorem State.appendOut_input (b : Byte) : (s.appendOut b).input = s.input := rfl
@[simp] theorem State.appendOut_presented (b : Byte) : (s.appendOut b).presented = s.presented := rfl
@[simp] theorem State.appendOut_draws (b : Byte) : (s.appendOut b).draws = s.draws := rfl
@[simp] theorem State.appendOut_history (b : Byte) : (s.appendOut b).history = s.history := rfl
@[simp] theorem State.appendOut_queue (b : Byte) : (s.appendOut b).queue = s.queue := rfl
@[simp] theorem State.appendOut_portReads (b : Byte) : (s.appendOut b).portReads = s.portReads := rfl
@[simp] theorem State.appendOut_freeCtr (b : Byte) : (s.appendOut b).freeCtr = s.freeCtr := rfl

/-! State.attach -/

@[simp] theorem State.attach_width (len : Word) : (s.attach len).width = s.width := rfl
@[simp] theorem State.attach_err (len : Word) : (s.attach len).err = s.err := rfl
@[simp] theorem State.attach_errOp (len : Word) : (s.attach len).errOp = s.errOp := rfl
@[simp] theorem State.attach_regs (len : Word) : (s.attach len).regs = s.regs := rfl
@[simp] theorem State.attach_out (len : Word) : (s.attach len).out = s.out := rfl
@[simp] theorem State.attach_input (len : Word) : (s.attach len).input = s.presented.restrict len.toNat := rfl
@[simp] theorem State.attach_presented (len : Word) : (s.attach len).presented = s.presented := rfl
@[simp] theorem State.attach_draws (len : Word) : (s.attach len).draws = s.draws := rfl
@[simp] theorem State.attach_history (len : Word) : (s.attach len).history = s.history := rfl
@[simp] theorem State.attach_queue (len : Word) : (s.attach len).queue = s.queue := rfl
@[simp] theorem State.attach_portReads (len : Word) : (s.attach len).portReads = s.portReads := rfl
@[simp] theorem State.attach_freeCtr (len : Word) : (s.attach len).freeCtr = s.freeCtr := rfl

/-! presentInput -/

@[simp] theorem presentInput_width (bs : List Byte) : (presentInput bs s).width = s.width := rfl
@[simp] theorem presentInput_err (bs : List Byte) : (presentInput bs s).err = s.err := rfl
@[simp] theorem presentInput_errOp (bs : List Byte) : (presentInput bs s).errOp = s.errOp := rfl
@[simp] theorem presentInput_regs (bs : List Byte) : (presentInput bs s).regs = s.regs := rfl
@[simp] theorem presentInput_out (bs : List Byte) : (presentInput bs s).out = s.out := rfl
@[simp] theorem presentInput_input (bs : List Byte) : (presentInput bs s).input = s.input := rfl
@[simp] theorem presentInput_presented (bs : List Byte) : (presentInput bs s).presented = Memory.ofBytes bs := rfl
@[simp] theorem presentInput_draws (bs : List Byte) : (presentInput bs s).draws = s.draws := rfl
@[simp] theorem presentInput_history (bs : List Byte) : (presentInput bs s).history = s.history := rfl
@[simp] theorem presentInput_queue (bs : List Byte) : (presentInput bs s).queue = s.queue := rfl
@[simp] theorem presentInput_portReads (bs : List Byte) : (presentInput bs s).portReads = s.portReads := rfl
@[simp] theorem presentInput_freeCtr (bs : List Byte) : (presentInput bs s).freeCtr = s.freeCtr := rfl

/-! readPort -/

@[simp] theorem readPort_width (a : BitVec 4) : (readPort a s).width = s.width := rfl
@[simp] theorem readPort_err (a : BitVec 4) : (readPort a s).err = s.err := rfl
@[simp] theorem readPort_errOp (a : BitVec 4) : (readPort a s).errOp = s.errOp := rfl
@[simp] theorem readPort_regs (a : BitVec 4) : (readPort a s).regs = s.regs := rfl
@[simp] theorem readPort_out (a : BitVec 4) : (readPort a s).out = s.out := rfl
@[simp] theorem readPort_input (a : BitVec 4) : (readPort a s).input = s.input := rfl
@[simp] theorem readPort_presented (a : BitVec 4) : (readPort a s).presented = s.presented := rfl
@[simp] theorem readPort_draws (a : BitVec 4) : (readPort a s).draws = s.draws := rfl
@[simp] theorem readPort_history (a : BitVec 4) : (readPort a s).history = s.history := rfl
@[simp] theorem readPort_queue (a : BitVec 4) : (readPort a s).queue = s.queue := rfl
@[simp] theorem readPort_portReads (a : BitVec 4) : (readPort a s).portReads = s.portReads ++ [(a, portValue s a)] := rfl
@[simp] theorem readPort_freeCtr (a : BitVec 4) : (readPort a s).freeCtr = s.freeCtr := rfl

/-! State.afterWrites -/

@[simp] theorem State.afterWrites_width (bs : List Byte) : (s.afterWrites bs).width = s.width := rfl
@[simp] theorem State.afterWrites_err (bs : List Byte) : (s.afterWrites bs).err = s.err := rfl
@[simp] theorem State.afterWrites_errOp (bs : List Byte) : (s.afterWrites bs).errOp = s.errOp := rfl
@[simp] theorem State.afterWrites_regs (bs : List Byte) : (s.afterWrites bs).regs = s.regs := rfl
@[simp] theorem State.afterWrites_out (bs : List Byte) : (s.afterWrites bs).out = s.out ++ bs := rfl
@[simp] theorem State.afterWrites_input (bs : List Byte) : (s.afterWrites bs).input = s.input := rfl
@[simp] theorem State.afterWrites_presented (bs : List Byte) : (s.afterWrites bs).presented = s.presented := rfl
@[simp] theorem State.afterWrites_draws (bs : List Byte) : (s.afterWrites bs).draws = s.draws.drop bs.length := rfl
@[simp] theorem State.afterWrites_history (bs : List Byte) : (s.afterWrites bs).history = s.history ++ bs.map fun b => .sinkWrite b .success := rfl
@[simp] theorem State.afterWrites_queue (bs : List Byte) : (s.afterWrites bs).queue = s.queue := rfl
@[simp] theorem State.afterWrites_portReads (bs : List Byte) : (s.afterWrites bs).portReads = s.portReads := rfl
@[simp] theorem State.afterWrites_freeCtr (bs : List Byte) : (s.afterWrites bs).freeCtr = s.freeCtr := rfl

/-! State.afterReads -/

@[simp] theorem State.afterReads_width (is : List Nat) : (s.afterReads is).width = s.width := rfl
@[simp] theorem State.afterReads_err (is : List Nat) : (s.afterReads is).err = s.err := rfl
@[simp] theorem State.afterReads_errOp (is : List Nat) : (s.afterReads is).errOp = s.errOp := rfl
@[simp] theorem State.afterReads_regs (is : List Nat) : (s.afterReads is).regs = s.regs := rfl
@[simp] theorem State.afterReads_out (is : List Nat) : (s.afterReads is).out = s.out := rfl
@[simp] theorem State.afterReads_input (is : List Nat) : (s.afterReads is).input = s.input := rfl
@[simp] theorem State.afterReads_presented (is : List Nat) : (s.afterReads is).presented = s.presented := rfl
@[simp] theorem State.afterReads_draws (is : List Nat) : (s.afterReads is).draws = s.draws.drop is.length := rfl
@[simp] theorem State.afterReads_history (is : List Nat) : (s.afterReads is).history = s.history ++ is.map fun i => .sourceRead i .success := rfl
@[simp] theorem State.afterReads_queue (is : List Nat) : (s.afterReads is).queue = s.queue := rfl
@[simp] theorem State.afterReads_portReads (is : List Nat) : (s.afterReads is).portReads = s.portReads := rfl
@[simp] theorem State.afterReads_freeCtr (is : List Nat) : (s.afterReads is).freeCtr = s.freeCtr := rfl

end StateUpdates

section RegsUpdates
variable (r : Regs)

/-! Regs.setEncInterval -/

@[simp] theorem Regs.setEncInterval_res (iv : Interval) : (r.setEncInterval iv).res = r.res := rfl
@[simp] theorem Regs.setEncInterval_count (iv : Interval) : (r.setEncInterval iv).count = r.count := rfl
@[simp] theorem Regs.setEncInterval_cum (iv : Interval) : (r.setEncInterval iv).cum = r.cum := rfl
@[simp] theorem Regs.setEncInterval_total (iv : Interval) : (r.setEncInterval iv).total = r.total := rfl
@[simp] theorem Regs.setEncInterval_fmState (iv : Interval) : (r.setEncInterval iv).fmState = r.fmState := rfl
@[simp] theorem Regs.setEncInterval_acc (iv : Interval) : (r.setEncInterval iv).acc = r.acc := rfl
@[simp] theorem Regs.setEncInterval_nacc (iv : Interval) : (r.setEncInterval iv).nacc = r.nacc := rfl
@[simp] theorem Regs.setEncInterval_finBits (iv : Interval) : (r.setEncInterval iv).finBits = r.finBits := rfl
@[simp] theorem Regs.setEncInterval_brLen (iv : Interval) : (r.setEncInterval iv).brLen = r.brLen := rfl
@[simp] theorem Regs.setEncInterval_rpos (iv : Interval) : (r.setEncInterval iv).rpos = r.rpos := rfl
@[simp] theorem Regs.setEncInterval_elow (iv : Interval) : (r.setEncInterval iv).elow = toReg iv.low := rfl
@[simp] theorem Regs.setEncInterval_ehigh (iv : Interval) : (r.setEncInterval iv).ehigh = toReg iv.high := rfl
@[simp] theorem Regs.setEncInterval_ufc (iv : Interval) : (r.setEncInterval iv).ufc = r.ufc := rfl
@[simp] theorem Regs.setEncInterval_encState (iv : Interval) : (r.setEncInterval iv).encState = r.encState := rfl
@[simp] theorem Regs.setEncInterval_dlow (iv : Interval) : (r.setEncInterval iv).dlow = r.dlow := rfl
@[simp] theorem Regs.setEncInterval_dhigh (iv : Interval) : (r.setEncInterval iv).dhigh = r.dhigh := rfl
@[simp] theorem Regs.setEncInterval_dcode (iv : Interval) : (r.setEncInterval iv).dcode = r.dcode := rfl
@[simp] theorem Regs.setEncInterval_decState (iv : Interval) : (r.setEncInterval iv).decState = r.decState := rfl

/-! Regs.setDecInterval -/

@[simp] theorem Regs.setDecInterval_res (iv : Interval) : (r.setDecInterval iv).res = r.res := rfl
@[simp] theorem Regs.setDecInterval_count (iv : Interval) : (r.setDecInterval iv).count = r.count := rfl
@[simp] theorem Regs.setDecInterval_cum (iv : Interval) : (r.setDecInterval iv).cum = r.cum := rfl
@[simp] theorem Regs.setDecInterval_total (iv : Interval) : (r.setDecInterval iv).total = r.total := rfl
@[simp] theorem Regs.setDecInterval_fmState (iv : Interval) : (r.setDecInterval iv).fmState = r.fmState := rfl
@[simp] theorem Regs.setDecInterval_acc (iv : Interval) : (r.setDecInterval iv).acc = r.acc := rfl
@[simp] theorem Regs.setDecInterval_nacc (iv : Interval) : (r.setDecInterval iv).nacc = r.nacc := rfl
@[simp] theorem Regs.setDecInterval_finBits (iv : Interval) : (r.setDecInterval iv).finBits = r.finBits := rfl
@[simp] theorem Regs.setDecInterval_brLen (iv : Interval) : (r.setDecInterval iv).brLen = r.brLen := rfl
@[simp] theorem Regs.setDecInterval_rpos (iv : Interval) : (r.setDecInterval iv).rpos = r.rpos := rfl
@[simp] theorem Regs.setDecInterval_elow (iv : Interval) : (r.setDecInterval iv).elow = r.elow := rfl
@[simp] theorem Regs.setDecInterval_ehigh (iv : Interval) : (r.setDecInterval iv).ehigh = r.ehigh := rfl
@[simp] theorem Regs.setDecInterval_ufc (iv : Interval) : (r.setDecInterval iv).ufc = r.ufc := rfl
@[simp] theorem Regs.setDecInterval_encState (iv : Interval) : (r.setDecInterval iv).encState = r.encState := rfl
@[simp] theorem Regs.setDecInterval_dlow (iv : Interval) : (r.setDecInterval iv).dlow = toReg iv.low := rfl
@[simp] theorem Regs.setDecInterval_dhigh (iv : Interval) : (r.setDecInterval iv).dhigh = toReg iv.high := rfl
@[simp] theorem Regs.setDecInterval_dcode (iv : Interval) : (r.setDecInterval iv).dcode = r.dcode := rfl
@[simp] theorem Regs.setDecInterval_decState (iv : Interval) : (r.setDecInterval iv).decState = r.decState := rfl

/-! Regs.commitTable -/

@[simp] theorem Regs.commitTable_res (t : Vector Nat 258) : (r.commitTable t).res = r.res := rfl
@[simp] theorem Regs.commitTable_count (t : Vector Nat 258) : (r.commitTable t).count = r.count := rfl
@[simp] theorem Regs.commitTable_cum (t : Vector Nat 258) : (r.commitTable t).cum = t := rfl
@[simp] theorem Regs.commitTable_total (t : Vector Nat 258) : (r.commitTable t).total = t[257] := rfl
@[simp] theorem Regs.commitTable_fmState (t : Vector Nat 258) : (r.commitTable t).fmState = .ready := rfl
@[simp] theorem Regs.commitTable_acc (t : Vector Nat 258) : (r.commitTable t).acc = r.acc := rfl
@[simp] theorem Regs.commitTable_nacc (t : Vector Nat 258) : (r.commitTable t).nacc = r.nacc := rfl
@[simp] theorem Regs.commitTable_finBits (t : Vector Nat 258) : (r.commitTable t).finBits = r.finBits := rfl
@[simp] theorem Regs.commitTable_brLen (t : Vector Nat 258) : (r.commitTable t).brLen = r.brLen := rfl
@[simp] theorem Regs.commitTable_rpos (t : Vector Nat 258) : (r.commitTable t).rpos = r.rpos := rfl
@[simp] theorem Regs.commitTable_elow (t : Vector Nat 258) : (r.commitTable t).elow = r.elow := rfl
@[simp] theorem Regs.commitTable_ehigh (t : Vector Nat 258) : (r.commitTable t).ehigh = r.ehigh := rfl
@[simp] theorem Regs.commitTable_ufc (t : Vector Nat 258) : (r.commitTable t).ufc = r.ufc := rfl
@[simp] theorem Regs.commitTable_encState (t : Vector Nat 258) : (r.commitTable t).encState = r.encState := rfl
@[simp] theorem Regs.commitTable_dlow (t : Vector Nat 258) : (r.commitTable t).dlow = r.dlow := rfl
@[simp] theorem Regs.commitTable_dhigh (t : Vector Nat 258) : (r.commitTable t).dhigh = r.dhigh := rfl
@[simp] theorem Regs.commitTable_dcode (t : Vector Nat 258) : (r.commitTable t).dcode = r.dcode := rfl
@[simp] theorem Regs.commitTable_decState (t : Vector Nat 258) : (r.commitTable t).decState = r.decState := rfl

/-! Regs.writeCount -/

@[simp] theorem Regs.writeCount_res (i : Nat) (v : Word) : (r.writeCount i v).res = r.res := rfl
@[simp] theorem Regs.writeCount_count (i : Nat) (v : Word) : (r.writeCount i v).count = r.count.setIfInBounds i v := rfl
@[simp] theorem Regs.writeCount_cum (i : Nat) (v : Word) : (r.writeCount i v).cum = r.cum := rfl
@[simp] theorem Regs.writeCount_total (i : Nat) (v : Word) : (r.writeCount i v).total = r.total := rfl
@[simp] theorem Regs.writeCount_fmState (i : Nat) (v : Word) : (r.writeCount i v).fmState = .openModel := rfl
@[simp] theorem Regs.writeCount_acc (i : Nat) (v : Word) : (r.writeCount i v).acc = r.acc := rfl
@[simp] theorem Regs.writeCount_nacc (i : Nat) (v : Word) : (r.writeCount i v).nacc = r.nacc := rfl
@[simp] theorem Regs.writeCount_finBits (i : Nat) (v : Word) : (r.writeCount i v).finBits = r.finBits := rfl
@[simp] theorem Regs.writeCount_brLen (i : Nat) (v : Word) : (r.writeCount i v).brLen = r.brLen := rfl
@[simp] theorem Regs.writeCount_rpos (i : Nat) (v : Word) : (r.writeCount i v).rpos = r.rpos := rfl
@[simp] theorem Regs.writeCount_elow (i : Nat) (v : Word) : (r.writeCount i v).elow = r.elow := rfl
@[simp] theorem Regs.writeCount_ehigh (i : Nat) (v : Word) : (r.writeCount i v).ehigh = r.ehigh := rfl
@[simp] theorem Regs.writeCount_ufc (i : Nat) (v : Word) : (r.writeCount i v).ufc = r.ufc := rfl
@[simp] theorem Regs.writeCount_encState (i : Nat) (v : Word) : (r.writeCount i v).encState = r.encState := rfl
@[simp] theorem Regs.writeCount_dlow (i : Nat) (v : Word) : (r.writeCount i v).dlow = r.dlow := rfl
@[simp] theorem Regs.writeCount_dhigh (i : Nat) (v : Word) : (r.writeCount i v).dhigh = r.dhigh := rfl
@[simp] theorem Regs.writeCount_dcode (i : Nat) (v : Word) : (r.writeCount i v).dcode = r.dcode := rfl
@[simp] theorem Regs.writeCount_decState (i : Nat) (v : Word) : (r.writeCount i v).decState = r.decState := rfl

end RegsUpdates

/-! The register updates seen through the views. -/

@[simp] theorem State.withRegs_withRegs (s : State) (r r' : Regs) : (s.withRegs r).withRegs r' = s.withRegs r' := rfl

@[simp] theorem State.withRegs_self (s : State) : s.withRegs s.regs = s := rfl

@[simp] theorem State.nextAnswer_withRegs (s : State) (r : Regs) : (s.withRegs r).nextAnswer = s.nextAnswer := rfl

@[simp] theorem State.nextAnswer_withQueue (s : State) (q : List HostAction) :
    (s.withQueue q).nextAnswer = s.nextAnswer := rfl

@[simp] theorem Regs.encInterval_setEncInterval (r : Regs) (iv : Interval) :
    (r.setEncInterval iv).encInterval = ⟨(toReg iv.low).toNat, (toReg iv.high).toNat⟩ := rfl

@[simp] theorem Regs.decInterval_setDecInterval (r : Regs) (iv : Interval) :
    (r.setDecInterval iv).decInterval = ⟨(toReg iv.low).toNat, (toReg iv.high).toNat⟩ := rfl

@[simp] theorem Regs.encInterval_setDecInterval (r : Regs) (iv : Interval) :
    (r.setDecInterval iv).encInterval = r.encInterval := rfl

@[simp] theorem Regs.decInterval_setEncInterval (r : Regs) (iv : Interval) :
    (r.setEncInterval iv).decInterval = r.decInterval := rfl

end Sys2Proof.Machine
end

