-- ==== Sys2Proof/Laws/Memory.lean ====
section
/-! SUPPORT. The input array: every operation keeps the canonical form, and what a read returns. -/

namespace Sys2Proof.Machine

theorem Memory.ofBytesFrom_cons_zero (i : Nat) (b : Byte) (bs : List Byte) (hb : b = 0) :
    Memory.ofBytesFrom i (b :: bs) = Memory.ofBytesFrom (i + 1) bs := if_pos hb

theorem Memory.ofBytesFrom_cons_nonzero (i : Nat) (b : Byte) (bs : List Byte) (hb : ¬ b = 0) :
    Memory.ofBytesFrom i (b :: bs) = (i, b) :: Memory.ofBytesFrom (i + 1) bs := if_neg hb

theorem Memory.ofBytesFrom_index_ge (i : Nat) (bs : List Byte) :
    ∀ c ∈ Memory.ofBytesFrom i bs, i ≤ c.1 := by
  induction bs generalizing i with
  | nil => simp [Memory.ofBytesFrom]
  | cons b bs ih =>
    intro c hc
    have step := fun c' (h : c' ∈ Memory.ofBytesFrom (i + 1) bs) => Nat.le_of_succ_le (ih (i + 1) c' h)
    by_cases hb : b = 0
    · rw [Memory.ofBytesFrom_cons_zero i b bs hb] at hc
      exact step c hc
    · rw [Memory.ofBytesFrom_cons_nonzero i b bs hb] at hc
      rcases List.mem_cons.mp hc with rfl | h
      · exact Nat.le_refl _
      · exact step c h

theorem Memory.ofBytesFrom_wf (i : Nat) (bs : List Byte) : (Memory.ofBytesFrom i bs).wf := by
  induction bs generalizing i with
  | nil => simp [Memory.ofBytesFrom, Memory.wf]
  | cons b bs ih =>
    by_cases hb : b = 0
    · rw [Memory.ofBytesFrom_cons_zero i b bs hb]
      exact ih (i + 1)
    · obtain ⟨sorted, nonzero⟩ := ih (i + 1)
      rw [Memory.ofBytesFrom_cons_nonzero i b bs hb]
      refine ⟨?_, ?_⟩
      · simp only [List.map_cons, List.pairwise_cons]
        refine ⟨?_, sorted⟩
        intro a ha
        obtain ⟨c, hc, rfl⟩ := List.mem_map.mp ha
        exact Memory.ofBytesFrom_index_ge (i + 1) bs c hc
      · simp only [List.mem_cons]
        rintro c (rfl | h)
        · exact hb
        · exact nonzero c h

theorem Memory.ofBytes_wf (bs : List Byte) : (Memory.ofBytes bs).wf := Memory.ofBytesFrom_wf 0 bs

theorem Memory.restrict_wf (len : Nat) (m : Memory) (h : m.wf) : (m.restrict len).wf := by
  refine ⟨?_, fun c hc => h.2 c (List.mem_of_mem_filter hc)⟩
  exact h.1.sublist ((List.filter_sublist).map _)

theorem Memory.read_eq_zero_of_absent (m : Memory) (i : Nat) (h : ∀ c ∈ m, c.1 ≠ i) : m.read i = 0 := by
  induction m with
  | nil => rfl
  | cons c m ih =>
    obtain ⟨a, b⟩ := c
    have ha : a ≠ i := h (a, b) (by simp)
    simpa [Memory.read, ha] using ih fun c hc => h c (by simp [hc])

/-- The byte of a presented array at an index from its start on; past its end, 0. -/
theorem Memory.read_ofBytesFrom (i k : Nat) (bs : List Byte) :
    (Memory.ofBytesFrom i bs).read (i + k) = bs.getD k 0 := by
  induction bs generalizing i k with
  | nil => simp [Memory.ofBytesFrom, Memory.read]
  | cons b bs ih =>
    cases k with
    | zero =>
      by_cases hb : b = 0
      · rw [Memory.ofBytesFrom_cons_zero i b bs hb]
        simp only [Nat.add_zero, List.getD_cons_zero, hb]
        exact Memory.read_eq_zero_of_absent _ _ fun c hc => by
          have := Memory.ofBytesFrom_index_ge (i + 1) bs c hc
          omega
      · simp [Memory.ofBytesFrom_cons_nonzero i b bs hb, Memory.read]
    | succ k =>
      have shifted := ih (i + 1) k
      rw [show i + 1 + k = i + (k + 1) from by omega] at shifted
      by_cases hb : b = 0
      · simpa [Memory.ofBytesFrom_cons_zero i b bs hb] using shifted
      · simpa [Memory.ofBytesFrom_cons_nonzero i b bs hb, Memory.read] using shifted

theorem Memory.read_ofBytes (k : Nat) (bs : List Byte) : (Memory.ofBytes bs).read k = bs.getD k 0 := by
  simpa [Memory.ofBytes] using Memory.read_ofBytesFrom 0 k bs

/-- Attaching keeps every byte below the length. -/
theorem Memory.read_restrict_of_lt (len i : Nat) (m : Memory) (h : i < len) : (m.restrict len).read i = m.read i := by
  induction m with
  | nil => rfl
  | cons c m ih =>
    obtain ⟨a, b⟩ := c
    have ih' : Memory.read (List.filter (fun c : Host.Cell => decide (c.1 < len)) m) i = Memory.read m i := ih
    by_cases ha : a = i
    · simp [Memory.restrict, Memory.read, ha, h]
    · by_cases hl : a < len
      · simp [Memory.restrict, Memory.read, ha, hl, ih']
      · simp [Memory.restrict, Memory.read, ha, hl, ih']

end Sys2Proof.Machine
end

