-- ==== Sys2Proof/Laws/Operands.lean ====
section
/-! SUPPORT. The range checks, the state conditions and the W-bit registers, each said once. -/

namespace Sys2Proof.Machine

/-! ## Range checks (30_encoding.md R76) -/

theorem isByteSymbol_of_le {sym : BitVec 9} (h : sym.toNat ≤ 255) : isByteSymbol sym = true := decide_eq_true h

theorem isByteSymbol_of_gt {sym : BitVec 9} (h : 255 < sym.toNat) : isByteSymbol sym = false :=
  decide_eq_false (Nat.not_le_of_gt h)

theorem isSymbol_of_le {sym : BitVec 9} (h : sym.toNat ≤ 256) : isSymbol sym = true := decide_eq_true h

theorem isSymbol_of_gt {sym : BitVec 9} (h : 256 < sym.toNat) : isSymbol sym = false :=
  decide_eq_false (Nat.not_le_of_gt h)

/-! ## State conditions -/

theorem Regs.coderActive_iff (r : Regs) : r.coderActive = true ↔ r.encState = .active ∨ r.decState = .active := by
  simp [Regs.coderActive]

theorem Regs.coderActive_of_neither {r : Regs} (he : r.encState ≠ .active) (hd : r.decState ≠ .active) :
    r.coderActive = false := by simp [Regs.coderActive, he, hd]

theorem Regs.fmReady_iff (r : Regs) : r.fmReady = true ↔ r.fmState = .ready := by simp [Regs.fmReady]

theorem Regs.fmReady_of_open {r : Regs} (h : r.fmState = .openModel) : r.fmReady = false := by simp [Regs.fmReady, h]

/-! ## W-bit values in registers (00_scope.md R6, R7; log 1) -/

theorem two_pow_bits_le (w : Width) : 2 ^ w.bits ≤ 2 ^ 32 := Nat.pow_le_pow_right (by decide) w.le_32

theorem mask_lt (w : Width) : mask w < 2 ^ 32 :=
  Nat.lt_of_lt_of_le (Nat.sub_lt (Nat.two_pow_pos _) Nat.one_pos) (two_pow_bits_le w)

theorem mask_succ (w : Width) : mask w + 1 = 2 ^ w.bits := Nat.sub_add_cancel (Nat.two_pow_pos _)

/-- `2^W = 2·HALF = 4·QUARTER`. -/
theorem two_mul_half (w : Width) : 2 * half w = 2 ^ w.bits := by
  rw [half, ← Nat.pow_succ', show (w.bits - 1).succ = w.bits from by have := w.two_le; omega]

theorem two_mul_quarter (w : Width) : 2 * quarter w = half w := by
  rw [half, quarter, ← Nat.pow_succ', show (w.bits - 2).succ = w.bits - 1 from by have := w.two_le; omega]

theorem quarter_pos (w : Width) : 1 ≤ quarter w := Nat.two_pow_pos _

/-- A W-bit value survives its register. -/
theorem toReg_toNat {w : Width} {v : Nat} (h : v ≤ mask w) : (toReg v).toNat = v := by
  rw [toReg, BitVec.toNat_ofNat, Nat.mod_eq_of_lt (Nat.lt_of_le_of_lt h (mask_lt w))]

theorem resetBound_toNat (w : Width) : (Regs.resetBound w).toNat = mask w := toReg_toNat (Nat.le_refl _)

end Sys2Proof.Machine
end

