-- ==== Sys2Proof/Laws/Access.lean ====
section
/-! SUPPORT. What each access operation can do. A successful run of accesses is exactly the batch of its sink bytes or
source reads; and every run, successful or not, is a `Trace`: it changes only the registers, the draws, the
history and the sink, and the history says how. -/

namespace Sys2Proof.Machine

/-! ## Combinators -/

@[simp] theorem Access.done_andThen {α β : Type} (a : α) (s : State) (f : α → State → Access β) :
    (Access.done a s).andThen f = f a s := rfl

@[simp] theorem Access.ioFailed_andThen {α β : Type} (s : State) (f : α → State → Access β) :
    (Access.ioFailed s).andThen f = .ioFailed s := rfl

@[simp] theorem Access.done_thenRegs {α : Type} (a : α) (s : State) (f : α → Regs → Regs) :
    (Access.done a s).thenRegs f = .done a (s.withRegs (f a s.regs)) := rfl

@[simp] theorem Access.ioFailed_thenRegs {α : Type} (s : State) (f : α → Regs → Regs) :
    (Access.ioFailed s).thenRegs f = .ioFailed s := rfl

@[simp] theorem Access.done_finish {α : Type} (op : BitVec 8) (a : α) (s : State) :
    (Access.done a s).finish op = .next s := rfl

@[simp] theorem Access.ioFailed_finish {α : Type} (op : BitVec 8) (s : State) :
    (Access.ioFailed (α := α) s).finish op = .next (ioFailureEntry op s) := rfl

/-! ## One access -/

theorem State.nextAnswer_eq_failure_iff (s : State) :
    s.nextAnswer = .failure ↔ ∃ rest, s.draws = .failure :: rest := by
  unfold State.nextAnswer
  cases s.draws with
  | nil => simp
  | cons a rest => simp

theorem sinkWrite_of_success (b : Byte) (s : State) (h : s.nextAnswer = .success) :
    sinkWrite b s = .done () ((s.recordAccess (.sinkWrite b)).appendOut b) := by simp [sinkWrite, h]

theorem sinkWrite_of_failure (b : Byte) (s : State) (h : s.nextAnswer = .failure) :
    sinkWrite b s = .ioFailed (s.recordAccess (.sinkWrite b)) := by simp [sinkWrite, h]

theorem sourceRead_of_success (i : Nat) (s : State) (h : s.nextAnswer = .success) :
    sourceRead i s = .done (s.input.read i) (s.recordAccess (.sourceRead i)) := by simp [sourceRead, h]

theorem sourceRead_of_failure (i : Nat) (s : State) (h : s.nextAnswer = .failure) :
    sourceRead i s = .ioFailed (s.recordAccess (.sourceRead i)) := by simp [sourceRead, h]

/-! ## Granted accesses -/

theorem State.grants_zero (s : State) : s.grants 0 := by simp [State.grants]

theorem State.grants_mono {m n : Nat} {s : State} (hmn : m ≤ n) (h : s.grants n) : s.grants m :=
  fun a ha => h a (List.take_subset_take_left s.draws hmn ha)

theorem State.nextAnswer_of_grants {n : Nat} {s : State} (h : s.grants (n + 1)) : s.nextAnswer = .success := by
  unfold State.nextAnswer
  cases hd : s.draws with
  | nil => rfl
  | cons a rest => exact h a (by simp [hd])

theorem State.grants_tail {n : Nat} {s t : State} (h : s.grants (n + 1)) (ht : t.draws = s.draws.tail) : t.grants n := by
  intro a ha
  apply h a
  rw [ht] at ha
  cases hd : s.draws with
  | nil => simp [hd] at ha
  | cons d rest => rw [hd] at ha; exact List.mem_cons_of_mem _ ha

theorem State.grants_withRegs (n : Nat) (s : State) (r : Regs) : (s.withRegs r).grants n ↔ s.grants n := Iff.rfl

@[simp] theorem State.afterWrites_nil (s : State) : s.afterWrites [] = s := by simp [State.afterWrites]

@[simp] theorem State.afterReads_nil (s : State) : s.afterReads [] = s := by simp [State.afterReads]

theorem State.afterWrites_append (xs ys : List Byte) (s : State) :
    (s.afterWrites xs).afterWrites ys = s.afterWrites (xs ++ ys) := by
  simp [State.afterWrites, List.drop_drop]

theorem State.afterReads_append (xs ys : List Nat) (s : State) :
    (s.afterReads xs).afterReads ys = s.afterReads (xs ++ ys) := by
  simp [State.afterReads, List.drop_drop]

@[simp] theorem State.afterWrites_withRegs (xs : List Byte) (s : State) (r : Regs) :
    (s.withRegs r).afterWrites xs = (s.afterWrites xs).withRegs r := rfl

@[simp] theorem State.afterReads_withRegs (xs : List Nat) (s : State) (r : Regs) :
    (s.withRegs r).afterReads xs = (s.afterReads xs).withRegs r := rfl

theorem State.grants_afterWrites {m n : Nat} {s : State} (xs : List Byte) (h : s.grants (m + n)) (hm : xs.length = m) :
    (s.afterWrites xs).grants n := by
  intro a ha
  refine h a ?_
  simp only [State.afterWrites_draws, hm] at ha
  rw [List.take_add]
  exact List.mem_append_right _ ha

theorem State.grants_afterReads {m n : Nat} {s : State} (xs : List Nat) (h : s.grants (m + n)) (hm : xs.length = m) :
    (s.afterReads xs).grants n := by
  intro a ha
  refine h a ?_
  simp only [State.afterReads_draws, hm] at ha
  rw [List.take_add]
  exact List.mem_append_right _ ha

/-! ## Successful writes -/

theorem sinkWrite_granted (b : Byte) (s : State) (h : s.grants 1) : sinkWrite b s = .done () (s.afterWrites [b]) := by
  have hs := State.nextAnswer_of_grants h
  simp [sinkWrite, hs, State.afterWrites, State.recordAccess, State.appendOut]

/-- Emitting a bit with the accumulator not full up to its last place (41_bit_packer.md R140). -/
theorem emitBit_of_room (b : Bool) (s : State) (h : s.regs.nacc ≠ 7) :
    emitBit b s = .done () (s.withRegs { s.regs with acc := shiftInBit s.regs.acc b, nacc := s.regs.nacc + 1 }) :=
  if_neg h

theorem emitBit_of_full_granted (b : Bool) (s : State) (h : s.regs.nacc = 7) (hg : s.grants 1) :
    emitBit b s =
      .done () ((s.afterWrites [shiftInBit s.regs.acc b]).withRegs { s.regs with acc := 0, nacc := 0 }) := by
  simp [emitBit, h, sinkWrite_granted _ _ hg]

/-- `EmitBit` of each bit in order. -/
def emitBits : List Bool → State → Access Unit
  | [], s => .done () s
  | b :: bs, s => (emitBit b s).andThen fun _ s' => emitBits bs s'

theorem emitRepeated_eq_emitBits (b : Bool) (n : Nat) (s : State) :
    emitRepeated b n s = emitBits (List.replicate n b) s := by
  induction n generalizing s with
  | zero => rfl
  | succ n ih => simp [emitRepeated, emitBits, List.replicate_succ, ih]

/-- Granted, a run of bits sends exactly the packed bytes and leaves exactly the packed rest. -/
theorem emitBits_granted (bits : List Bool) (s : State)
    (hg : s.grants (packBits bits s.regs.acc s.regs.nacc).1.length) :
    emitBits bits s =
      .done () ((s.afterWrites (packBits bits s.regs.acc s.regs.nacc).1).withRegs
        { s.regs with
          acc := (packBits bits s.regs.acc s.regs.nacc).2.1
          nacc := (packBits bits s.regs.acc s.regs.nacc).2.2 }) := by
  induction bits generalizing s with
  | nil => simp only [emitBits, packBits, State.afterWrites_nil]; rfl
  | cons b bs ih =>
    by_cases h : s.regs.nacc = 7
    · simp only [packBits, h, if_true] at hg ⊢
      have h1 : s.grants 1 := State.grants_mono (by simp) hg
      have h2 : (s.afterWrites [shiftInBit s.regs.acc b]).grants (packBits bs 0 0).1.length :=
        State.grants_afterWrites _ (by simpa [Nat.add_comm] using hg) rfl
      rw [emitBits, emitBit_of_full_granted b s h h1, Access.done_andThen, ih _ h2]
      simp [State.afterWrites_append]
    · simp only [packBits, h, if_false] at hg ⊢
      rw [emitBits, emitBit_of_room b s h, Access.done_andThen, ih _ hg]
      simp

/-- Granted, raw bytes go to the sink in order. -/
theorem emitRawBytes_granted (vs : List Byte) (s : State) (hg : s.grants vs.length) :
    emitRawBytes vs s = .done () (s.afterWrites vs) := by
  induction vs generalizing s with
  | nil => simp [emitRawBytes]
  | cons v vs ih =>
    have h1 : s.grants 1 := State.grants_mono (by simp) hg
    have h2 : (s.afterWrites [v]).grants vs.length :=
      State.grants_afterWrites _ (by simpa [Nat.add_comm] using hg) rfl
    rw [emitRawBytes, emitRawByte, sinkWrite_granted v s h1, Access.done_andThen, ih _ h2, State.afterWrites_append]
    rfl

/-! ## Successful reads -/

theorem sourceRead_granted (i : Nat) (s : State) (h : s.grants 1) :
    sourceRead i s = .done (s.input.read i) (s.afterReads [i]) := by
  have hs := State.nextAnswer_of_grants h
  simp [sourceRead, hs, State.afterReads, State.recordAccess]

theorem sourceReadMany_granted (n i : Nat) (s : State) (hg : s.grants n) :
    sourceReadMany n i s =
      .done ((List.range n).map fun k => s.input.read (i + k)) (s.afterReads ((List.range n).map (i + ·))) := by
  induction n generalizing i s with
  | zero => simp [sourceReadMany]
  | succ n ih =>
    have h1 : s.grants 1 := State.grants_mono (by omega) hg
    have h2 : (s.afterReads [i]).grants n := State.grants_afterReads (m := 1) _ (by rwa [Nat.add_comm 1 n]) rfl
    rw [sourceReadMany, sourceRead_granted i s h1, Access.done_andThen, ih _ _ h2, Access.done_andThen]
    simp [List.range_succ_eq_map, State.afterReads_append, Function.comp_def, Nat.add_assoc, Nat.add_comm 1]

theorem nextBit_at_end (s : State) (h : ¬ s.regs.rpos < s.regs.inputBits) : nextBit s = .done false s := if_neg h

theorem nextBit_granted (s : State) (h : s.regs.rpos < s.regs.inputBits) (hg : s.grants 1) :
    nextBit s =
      .done (s.inputBit s.regs.rpos)
        ((s.afterReads [s.regs.rpos / 8]).withRegs { s.regs with rpos := s.regs.rpos + 1 }) := by
  simp [nextBit, h, sourceRead_granted _ _ hg, State.inputBit]

/-! ## Traces -/

/-- `t` is `s` after these accesses: they took one draw each, they are what the history gained, and the sink gained the
bytes of the successful writes. Only the registers may differ besides. -/
structure Trace (s t : State) (events : List IoEvent) : Prop where
  width     : t.width = s.width
  err       : t.err = s.err
  errOp     : t.errOp = s.errOp
  input     : t.input = s.input
  presented : t.presented = s.presented
  queue     : t.queue = s.queue
  portReads : t.portReads = s.portReads
  freeCtr   : t.freeCtr = s.freeCtr
  draws     : t.draws = s.draws.drop events.length
  answers   : ∀ k e, events[k]? = some e → e.answer = s.draws.getD k .success
  history   : t.history = s.history ++ events
  out       : t.out = s.out ++ events.filterMap IoEvent.sunk

theorem Trace.state_eq {s t : State} {es : List IoEvent} (h : Trace s t es) :
    t = { s with
            regs := t.regs
            draws := s.draws.drop es.length
            history := s.history ++ es
            out := s.out ++ es.filterMap IoEvent.sunk } := by
  obtain ⟨hw, he, ho, hi, hp, hq, hr, hf, hd, -, hh, hu⟩ := h
  cases t
  simp_all

theorem Trace.refl (s : State) : Trace s s [] := by constructor <;> simp

/-- One access takes the first draw. -/
theorem Trace.answers_single (s : State) (e : IoEvent) (h : e.answer = s.nextAnswer) :
    ∀ k e', [e][k]? = some e' → e'.answer = s.draws.getD k .success := by
  intro k e' he
  cases k with
  | zero => cases he; rw [h, State.nextAnswer]; cases s.draws <;> rfl
  | succ k => simp at he

theorem Trace.withRegs {s t : State} {es : List IoEvent} (h : Trace s t es) (r : Regs) : Trace s (t.withRegs r) es :=
  ⟨h.width, h.err, h.errOp, h.input, h.presented, h.queue, h.portReads, h.freeCtr, h.draws, h.answers, h.history,
    h.out⟩

theorem Trace.fromRegs {s t : State} {r : Regs} {es : List IoEvent} (h : Trace (s.withRegs r) t es) : Trace s t es :=
  ⟨h.width, h.err, h.errOp, h.input, h.presented, h.queue, h.portReads, h.freeCtr, h.draws, h.answers, h.history,
    h.out⟩

theorem Trace.trans {s t u : State} {es fs : List IoEvent} (h : Trace s t es) (k : Trace t u fs) : Trace s u (es ++ fs) where
  width := k.width.trans h.width
  err := k.err.trans h.err
  errOp := k.errOp.trans h.errOp
  input := k.input.trans h.input
  presented := k.presented.trans h.presented
  queue := k.queue.trans h.queue
  portReads := k.portReads.trans h.portReads
  freeCtr := k.freeCtr.trans h.freeCtr
  draws := by rw [k.draws, h.draws, List.drop_drop, List.length_append]
  answers := by
    intro n e he
    by_cases hn : n < es.length
    · exact h.answers n e (by rwa [List.getElem?_append_left hn] at he)
    · have hn := Nat.le_of_not_lt hn
      rw [List.getElem?_append_right hn] at he
      have := k.answers (n - es.length) e he
      rw [h.draws] at this
      rw [this, List.getD_eq_getElem?_getD, List.getD_eq_getElem?_getD, List.getElem?_drop, Nat.add_sub_cancel' hn]
  history := by rw [k.history, h.history, List.append_assoc]
  out := by rw [k.out, h.out, List.filterMap_append, List.append_assoc]

/-- A failed access gives the sink nothing (20_memory.md R52). -/
theorem IoEvent.sunk_of_failure {e : IoEvent} (h : e.answer = .failure) : e.sunk = none := by
  cases e with
  | sinkWrite b a => cases h; rfl
  | sourceRead i a => rfl

/-- Every access of the run succeeded. -/
abbrev AllSucceeded (es : List IoEvent) : Prop := ∀ e ∈ es, e.answer = .success

/-- What a run of accesses did, whatever the environment answered: all of them succeeded, or the last one, and only
it, failed (60_exceptions.md R245). -/
inductive Access.Did {α : Type} (s : State) : Access α → Prop
  | done (a : α) (t : State) (es : List IoEvent) (trace : Trace s t es) (ok : AllSucceeded es) : Did s (.done a t)
  | ioFailed (t : State) (es : List IoEvent) (last : IoEvent) (trace : Trace s t (es ++ [last])) (ok : AllSucceeded es)
      (failed : last.answer = .failure) : Did s (.ioFailed t)

theorem Access.Did.of_done {α : Type} (a : α) (s : State) : (Access.done a s).Did s :=
  .done a s [] (Trace.refl s) (by simp [AllSucceeded])

theorem Access.Did.of_done_withRegs {α : Type} (a : α) (s : State) (r : Regs) : (Access.done a (s.withRegs r)).Did s :=
  .done a _ [] ((Trace.refl s).withRegs r) (by simp [AllSucceeded])

theorem Access.Did.andThen {α β : Type} {s : State} {x : Access α} {f : α → State → Access β} (hx : x.Did s)
    (hf : ∀ a t, (f a t).Did t) : (x.andThen f).Did s := by
  cases hx with
  | ioFailed t es last trace ok failed => exact .ioFailed t es last trace ok failed
  | done a t es trace ok =>
    rw [Access.done_andThen]
    have hy := hf a t
    generalize f a t = y at hy ⊢
    cases hy with
    | done b u fs trace' ok' =>
      exact .done b u (es ++ fs) (trace.trans trace') (by
        intro e he
        rcases List.mem_append.mp he with h | h
        · exact ok e h
        · exact ok' e h)
    | ioFailed u fs last trace' ok' failed =>
      exact .ioFailed u (es ++ fs) last (by simpa using trace.trans trace') (by
        intro e he
        rcases List.mem_append.mp he with h | h
        · exact ok e h
        · exact ok' e h) failed

theorem Access.Did.thenRegs {α : Type} {s : State} {x : Access α} {f : α → Regs → Regs} (hx : x.Did s) :
    (x.thenRegs f).Did s :=
  hx.andThen fun a t => .of_done_withRegs a t _

theorem Access.Did.fromRegs {α : Type} {s : State} {r : Regs} {x : Access α} (hx : x.Did (s.withRegs r)) : x.Did s := by
  cases hx with
  | done a t es trace ok => exact .done a t es trace.fromRegs ok
  | ioFailed t es last trace ok failed => exact .ioFailed t es last trace.fromRegs ok failed

theorem sinkWrite_did (b : Byte) (s : State) : (sinkWrite b s).Did s := by
  cases h : s.nextAnswer with
  | success =>
    rw [sinkWrite_of_success b s h]
    refine .done () _ [.sinkWrite b .success] ?_ (by simp [AllSucceeded, IoEvent.answer])
    constructor <;> simp [h, IoEvent.sunk]
    exact Trace.answers_single s _ h.symm
  | failure =>
    rw [sinkWrite_of_failure b s h]
    refine .ioFailed _ [] (.sinkWrite b .failure) ?_ (by simp [AllSucceeded]) rfl
    constructor <;> simp [h, IoEvent.sunk]
    exact Trace.answers_single s _ h.symm

theorem sourceRead_did (i : Nat) (s : State) : (sourceRead i s).Did s := by
  cases h : s.nextAnswer with
  | success =>
    rw [sourceRead_of_success i s h]
    refine .done _ _ [.sourceRead i .success] ?_ (by simp [AllSucceeded, IoEvent.answer])
    constructor <;> simp [h, IoEvent.sunk]
    exact Trace.answers_single s _ h.symm
  | failure =>
    rw [sourceRead_of_failure i s h]
    refine .ioFailed _ [] (.sourceRead i .failure) ?_ (by simp [AllSucceeded]) rfl
    constructor <;> simp [h, IoEvent.sunk]
    exact Trace.answers_single s _ h.symm

theorem emitBit_did (b : Bool) (s : State) : (emitBit b s).Did s := by
  unfold emitBit
  split
  · exact (sinkWrite_did _ s).thenRegs
  · exact .of_done_withRegs () s _

theorem emitRepeated_did (b : Bool) (n : Nat) (s : State) : (emitRepeated b n s).Did s := by
  induction n generalizing s with
  | zero => exact .of_done () s
  | succ n ih => exact (emitBit_did b s).andThen fun _ t => ih t

theorem emitRawBytes_did (vs : List Byte) (s : State) : (emitRawBytes vs s).Did s := by
  induction vs generalizing s with
  | nil => exact .of_done () s
  | cons v vs ih => exact (sinkWrite_did v s).andThen fun _ t => ih t

theorem nextBit_did (s : State) : (nextBit s).Did s := by
  unfold nextBit
  split
  · exact (sourceRead_did _ s).andThen fun b t => .of_done_withRegs _ t _
  · exact .of_done false s

theorem sourceReadMany_did (n i : Nat) (s : State) : (sourceReadMany n i s).Did s := by
  induction n generalizing i s with
  | zero => exact .of_done [] s
  | succ n ih =>
    exact (sourceRead_did i s).andThen fun b t => (ih (i + 1) t).andThen fun bs u => .of_done (b :: bs) u

theorem encShift_did (x : Shift) (s : State) : (encShift x s).Did s := by
  cases x with
  | e12 b => exact (emitBit_did b s).andThen fun _ t => (emitRepeated_did (!b) _ t).thenRegs
  | e3 => exact .of_done_withRegs () s _

theorem encShifts_did (xs : List Shift) (s : State) : (encShifts xs s).Did s := by
  induction xs generalizing s with
  | nil => exact .of_done () s
  | cons x xs ih => exact (encShift_did x s).andThen fun _ t => ih t

theorem encodeSymbol_did (sym : Nat) (s : State) : (encodeSymbol sym s).Did s := by
  unfold encodeSymbol
  exact (encShifts_did _ s).thenRegs

theorem decShift_did (x : Shift) (s : State) : (decShift x s).Did s :=
  (nextBit_did s).andThen fun _ t => .of_done_withRegs () t _

theorem decShifts_did (xs : List Shift) (s : State) : (decShifts xs s).Did s := by
  induction xs generalizing s with
  | nil => exact .of_done () s
  | cons x xs ih => exact (decShift_did x s).andThen fun _ t => ih t

theorem decodeSymbol_did (s : State) : (decodeSymbol s).Did s := by
  unfold decodeSymbol
  exact (decShifts_did _ s).thenRegs.andThen fun _ t => .of_done _ t

theorem primeBits_did (n : Nat) (s : State) : (primeBits n s).Did s := by
  induction n generalizing s with
  | zero => exact .of_done () s
  | succ n ih => exact (nextBit_did s).andThen fun _ t => (ih _).fromRegs

theorem prime_did (s : State) : (prime s).Did s := (primeBits_did _ _).fromRegs

end Sys2Proof.Machine
end

