-- ==== Sys2Proof/Laws/Commands.lean ====
section
/-! SUPPORT. Said once: how a command can end. Every later fact about all commands is a case analysis of `Ended`. -/

namespace Sys2Proof.Machine

/-- The state `t` in which the command `i` leaves the state `s`. -/
inductive Ended (i : Instr) (s : State) : State → Prop
  /-- A precise error (60_exceptions.md R244), after successful source reads only in `FM_READ_HEADER`. -/
  | error (e : ErrCode) (reads : List Nat) (no : e ≠ .noError) (io : e ≠ .ioFailure)
      (trace : Trace s (s.afterReads reads) (reads.map fun k => .sourceRead k .success))
      (header : reads ≠ [] → i = .fmReadHeader ∧ e = .corruptHeader) :
      Ended i s (errorEntry e i.opcode (s.afterReads reads))
  /-- The last access failed (60_exceptions.md R245). -/
  | ioFailure (t : State) (es : List IoEvent) (last : IoEvent) (trace : Trace s t (es ++ [last]))
      (ok : AllSucceeded es) (failed : last.answer = .failure) : Ended i s (ioFailureEntry i.opcode t)
  /-- Completed, with these accesses; the registers are `t`'s. -/
  | completed (t : State) (es : List IoEvent) (trace : Trace s t es) (ok : AllSucceeded es) : Ended i s t
  /-- `BR_ATTACH` completed. -/
  | attached (len : Word) (is : i = .brAttach len) :
      Ended i s ((s.withRegs { s.regs with brLen := len, rpos := 0 }).attach len)
  /-- `CORE_RESET` completed. -/
  | reset (is : i = .coreReset) : Ended i s (resetAll s)

theorem Ended.error_now {i : Instr} {s : State} (e : ErrCode) (no : e ≠ .noError) (io : e ≠ .ioFailure) :
    ∃ t, raise e i.opcode s = .next t ∧ Ended i s t :=
  ⟨_, rfl, by simpa using Ended.error (i := i) (s := s) e [] no io (by simpa using Trace.refl s) (by simp)⟩

theorem Ended.regs_now {i : Instr} {s : State} (r : Regs) :
    ∃ t, (Host.Outcome.next (s.withRegs r) : Result) = .next t ∧ Ended i s t :=
  ⟨_, rfl, .completed _ [] ((Trace.refl s).withRegs r) (by simp [AllSucceeded])⟩

theorem Access.Did.ended {i : Instr} {s : State} {α : Type} {x : Access α} (h : x.Did s) :
    ∃ t, x.finish i.opcode = .next t ∧ Ended i s t := by
  cases h with
  | done a t es trace ok => exact ⟨t, rfl, .completed t es trace ok⟩
  | ioFailed t es last trace ok failed => exact ⟨_, rfl, .ioFailure t es last trace ok failed⟩

theorem execFmSeal_ended (src : SealSource) (s : State) :
    ∃ t, execFmSeal src s = .next t ∧ Ended (.fmSeal src) s t := by
  unfold execFmSeal
  split
  · exact Ended.error_now .sequenceError (by decide) (by decide)
  · unfold sealTable
    by_cases h0 : (cumTable s.regs.count)[257] = 0
    · cases src <;> simp only [h0, if_true, sealError] <;> exact Ended.error_now _ (by decide) (by decide)
    · by_cases hm : (cumTable s.regs.count)[257] > maxTotal s.width
      · cases src <;> simp only [h0, hm, if_true, if_false, sealError] <;> exact Ended.error_now _ (by decide) (by decide)
      · simp only [h0, hm, if_false]
        exact Ended.regs_now _

theorem sourceReadMany_header (s : State) :
    (∃ bytes reads, sourceReadMany headerBytesLen (s.regs.rpos / 8) s = .done bytes (s.afterReads reads))
    ∨ ∃ t es last, sourceReadMany headerBytesLen (s.regs.rpos / 8) s = .ioFailed t ∧ Trace s t (es ++ [last])
        ∧ AllSucceeded es ∧ last.answer = .failure := by
  generalize headerBytesLen = n
  generalize s.regs.rpos / 8 = i
  induction n generalizing i s with
  | zero => exact .inl ⟨[], [], by simp [sourceReadMany]⟩
  | succ n ih =>
    cases h : s.nextAnswer with
    | failure =>
      refine .inr ⟨s.recordAccess (.sourceRead i), [], .sourceRead i .failure, ?_, ?_, by simp [AllSucceeded], rfl⟩
      · simp [sourceReadMany, sourceRead_of_failure i s h]
      · have := sourceRead_did i s
        rw [sourceRead_of_failure i s h] at this
        constructor <;> simp [h, IoEvent.sunk]
        exact Trace.answers_single s _ h.symm
    | success =>
      have one : s.recordAccess (.sourceRead i) = s.afterReads [i] := by
        simp [State.recordAccess, State.afterReads, h]
      rw [sourceReadMany, sourceRead_of_success i s h, Access.done_andThen, one]
      rcases ih (i := i + 1) (s := s.afterReads [i]) with ⟨bytes, reads, hr⟩ | ⟨t, es, last, hr, trace, ok, failed⟩
      · exact .inl ⟨_ :: bytes, [i] ++ reads, by rw [hr, Access.done_andThen, State.afterReads_append]⟩
      · have first : Trace s (s.afterReads [i]) [.sourceRead i .success] := by
          constructor <;> simp [IoEvent.sunk]
          exact Trace.answers_single s _ h.symm
        refine .inr ⟨t, .sourceRead i .success :: es, last, by rw [hr, Access.ioFailed_andThen], ?_, ?_, failed⟩
        · simpa using first.trans trace
        · intro e he
          rcases List.mem_cons.mp he with rfl | he
          · rfl
          · exact ok e he

theorem Trace.of_reads {s : State} {bytes : List Byte} {n i : Nat} {reads : List Nat}
    (h : sourceReadMany n i s = .done bytes (s.afterReads reads)) :
    Trace s (s.afterReads reads) (reads.map fun k => .sourceRead k .success) := by
  have did := sourceReadMany_did n i s
  rw [h] at did
  cases did with
  | done _ _ es trace _ => rwa [← List.append_cancel_left trace.history] at trace

theorem execFmReadHeader_ended (s : State) : ∃ t, execFmReadHeader s = .next t ∧ Ended .fmReadHeader s t := by
  unfold execFmReadHeader
  split
  · exact Ended.error_now .sequenceError (by decide) (by decide)
  split
  · exact Ended.error_now .misalignedRaw (by decide) (by decide)
  split
  · exact Ended.error_now .corruptHeader (by decide) (by decide)
  rcases sourceReadMany_header s with ⟨bytes, reads, hr⟩ | ⟨t, es, last, hr, trace, ok, failed⟩
  · rw [hr]
    have corrupt : ∃ t, raise .corruptHeader Instr.fmReadHeader.opcode (s.afterReads reads) = .next t
        ∧ Ended .fmReadHeader s t := ⟨_, rfl, .error .corruptHeader reads (by decide) (by decide) (Trace.of_reads hr) fun _ => ⟨rfl, rfl⟩⟩
    simp only [commitHeader, sealTable]
    by_cases h0 : (cumTable (headerCounts bytes))[257] = 0
    · simpa only [h0, if_true] using corrupt
    · by_cases hm : (cumTable (headerCounts bytes))[257] > maxTotal (s.afterReads reads).width
      · simpa only [h0, hm, if_true, if_false] using corrupt
      · simp only [h0, hm, if_false]
        exact ⟨_, rfl, .completed _ _ ((Trace.of_reads hr).withRegs _) (by simp [AllSucceeded, IoEvent.answer])⟩
  · rw [hr]
    exact ⟨_, rfl, .ioFailure t es last trace ok failed⟩

/-- Every command ends in a next state, in one of the ways of `Ended` (60_exceptions.md R240). -/
theorem exec_ended (i : Instr) (s : State) : ∃ t, exec i s = .next t ∧ Ended i s t := by
  cases i with
  | nop => exact ⟨s, rfl, .completed s [] (Trace.refl s) (by simp [AllSucceeded])⟩
  | coreReset => exact ⟨_, rfl, .reset rfl⟩
  | fmReset =>
    show ∃ t, execFmReset s = .next t ∧ Ended .fmReset s t
    unfold execFmReset
    split
    · exact Ended.error_now .sequenceError (by decide) (by decide)
    · exact Ended.regs_now _
  | fmCount byte =>
    show ∃ t, execFmCount byte s = .next t ∧ Ended (.fmCount byte) s t
    unfold execFmCount
    split
    · exact Ended.error_now .sequenceError (by decide) (by decide)
    · exact Ended.regs_now _
  | fmSetcount sym count =>
    show ∃ t, execFmSetcount sym count s = .next t ∧ Ended (.fmSetcount sym count) s t
    unfold execFmSetcount
    split
    · exact Ended.error_now .invalidSymbol (by decide) (by decide)
    split
    · exact Ended.error_now .sequenceError (by decide) (by decide)
    · exact Ended.regs_now _
  | fmSeal src => exact execFmSeal_ended src s
  | fmGetcount sym =>
    show ∃ t, execFmGetcount sym s = .next t ∧ Ended (.fmGetcount sym) s t
    unfold execFmGetcount
    split
    · exact Ended.error_now .invalidSymbol (by decide) (by decide)
    · exact Ended.regs_now _
  | fmGetlow sym =>
    show ∃ t, execFmGetlow sym s = .next t ∧ Ended (.fmGetlow sym) s t
    unfold execFmGetlow
    split
    · exact Ended.error_now .invalidSymbol (by decide) (by decide)
    split
    · exact Ended.error_now .sequenceError (by decide) (by decide)
    · exact Ended.regs_now _
  | fmGethigh sym =>
    show ∃ t, execFmGethigh sym s = .next t ∧ Ended (.fmGethigh sym) s t
    unfold execFmGethigh
    split
    · exact Ended.error_now .invalidSymbol (by decide) (by decide)
    split
    · exact Ended.error_now .sequenceError (by decide) (by decide)
    · exact Ended.regs_now _
  | fmGettotal =>
    show ∃ t, execFmGettotal s = .next t ∧ Ended .fmGettotal s t
    unfold execFmGettotal
    split
    · exact Ended.error_now .sequenceError (by decide) (by decide)
    · exact Ended.regs_now _
  | fmLookup value =>
    show ∃ t, execFmLookup value s = .next t ∧ Ended (.fmLookup value) s t
    unfold execFmLookup
    split
    · exact Ended.error_now .sequenceError (by decide) (by decide)
    split
    · exact Ended.error_now .valueOutOfRange (by decide) (by decide)
    · exact Ended.regs_now _
  | fmWriteHeader =>
    show ∃ t, execFmWriteHeader s = .next t ∧ Ended .fmWriteHeader s t
    unfold execFmWriteHeader
    split
    · exact Ended.error_now .sequenceError (by decide) (by decide)
    split
    · exact Ended.error_now .misalignedRaw (by decide) (by decide)
    · exact (emitRawBytes_did _ s).ended
  | fmReadHeader => exact execFmReadHeader_ended s
  | bwWriteBit bit =>
    show ∃ t, execBwWriteBit bit s = .next t ∧ Ended (.bwWriteBit bit) s t
    unfold execBwWriteBit
    split
    · exact Ended.error_now .sequenceError (by decide) (by decide)
    · exact (emitBit_did bit s).ended
  | bwWriteRawByte byte =>
    show ∃ t, execBwWriteRawByte byte s = .next t ∧ Ended (.bwWriteRawByte byte) s t
    unfold execBwWriteRawByte
    split
    · exact Ended.error_now .sequenceError (by decide) (by decide)
    split
    · exact Ended.error_now .misalignedRaw (by decide) (by decide)
    · exact (sinkWrite_did byte s).ended
  | bwFinalize =>
    show ∃ t, execBwFinalize s = .next t ∧ Ended .bwFinalize s t
    unfold execBwFinalize
    split
    · exact Ended.error_now .sequenceError (by decide) (by decide)
    split
    · exact (sinkWrite_did _ s).thenRegs.ended
    · exact Ended.regs_now _
  | brAttach len =>
    show ∃ t, execBrAttach len s = .next t ∧ Ended (.brAttach len) s t
    unfold execBrAttach
    split
    · exact Ended.error_now .sequenceError (by decide) (by decide)
    · exact ⟨_, rfl, .attached len rfl⟩
  | brReadBit =>
    show ∃ t, execBrReadBit s = .next t ∧ Ended .brReadBit s t
    unfold execBrReadBit
    split
    · exact Ended.error_now .sequenceError (by decide) (by decide)
    · exact (nextBit_did s).thenRegs.ended
  | encInit =>
    show ∃ t, execEncInit s = .next t ∧ Ended .encInit s t
    unfold execEncInit
    split
    · exact Ended.error_now .sequenceError (by decide) (by decide)
    · exact Ended.regs_now _
  | encUpdate sym =>
    show ∃ t, execEncUpdate sym s = .next t ∧ Ended (.encUpdate sym) s t
    unfold execEncUpdate
    split
    · exact Ended.error_now .invalidSymbol (by decide) (by decide)
    split
    · exact Ended.error_now .sequenceError (by decide) (by decide)
    split
    · exact Ended.error_now .zeroFrequency (by decide) (by decide)
    · exact (encodeSymbol_did _ s).ended
  | encFinish =>
    show ∃ t, execEncFinish s = .next t ∧ Ended .encFinish s t
    unfold execEncFinish
    split
    · exact Ended.error_now .sequenceError (by decide) (by decide)
    · exact ((encodeSymbol_did _ s).andThen fun _ t => emitBit_did true t).thenRegs.ended
  | decInit =>
    show ∃ t, execDecInit s = .next t ∧ Ended .decInit s t
    unfold execDecInit
    split
    · exact Ended.error_now .sequenceError (by decide) (by decide)
    · exact (prime_did _).fromRegs.thenRegs.ended
  | decNext =>
    show ∃ t, execDecNext s = .next t ∧ Ended .decNext s t
    unfold execDecNext
    split
    · exact Ended.error_now .sequenceError (by decide) (by decide)
    · exact (decodeSymbol_did s).thenRegs.ended

theorem decode_coreResetWord : decode coreResetWord = some .coreReset := by decide +kernel

/-- What a command word from the host can do (60_exceptions.md R242, R243). -/
theorem stepCommand_cases (w : Cmd) (s : State) :
    (s.err ≠ .noError ∧ w ≠ coreResetWord ∧ stepCommand w s = .next s)
    ∨ ((s.err = .noError ∨ w = coreResetWord) ∧ ∃ i, decode w = some i ∧ stepCommand w s = exec i s)
    ∨ (s.err = .noError ∧ decode w = none ∧ stepCommand w s = raise .illegalCommand (opField w) s) := by
  unfold stepCommand screen
  by_cases h : s.err ≠ .noError ∧ w ≠ coreResetWord
  · rw [if_pos h]
    exact .inl ⟨h.1, h.2, rfl⟩
  · rw [if_neg h]
    have h' : s.err = .noError ∨ w = coreResetWord := by
      by_contra hh
      push Not at hh
      exact h hh
    cases hd : decode w with
    | some i => exact .inr (.inl ⟨h', i, rfl, rfl⟩)
    | none =>
      refine .inr (.inr ⟨?_, rfl, rfl⟩)
      rcases h' with h' | rfl
      · exact h'
      · rw [decode_coreResetWord] at hd
        cases hd

/-- A command word taken off the host's queue. -/
theorem step_command (s : State) (w : Cmd) (rest : List HostAction) (h : s.queue = .command w :: rest) :
    step s = stepCommand w (s.withQueue rest) := by
  unfold step
  rw [h]

/-- The opcode of a legal word is its `OP` field. -/
theorem opField_of_decode (w : Cmd) (i : Instr) (h : decode w = some i) : opField w = i.opcode := by
  unfold decode at h
  cases hf : opForms.find? (fun f => f.op == opField w) with
  | none => simp [hf] at h
  | some f =>
    have hm := List.mem_of_find?_eq_some hf
    have hp := List.find?_some hf
    simp only [beq_iff_eq] at hp
    simp only [hf] at h
    split at h
    · cases h
      have made : ∀ f ∈ opForms, ∀ sym data, (f.build sym data).opcode = f.op := by
        simp [opForms, coreForms, modelForms, packerForms, coderForms, Instr.opcode]
      rw [← hp, made f hm]
    · cases h

end Sys2Proof.Machine
end

