-- ==== Sys2Proof/Laws/Interval.lean ====
section
/-! SUPPORT. The shifts of the interval algebra as arithmetic modulo `2^W` (42_encoder.md R174), and what a loop can do. -/

namespace Sys2Proof.Machine

/-! ## Shifts -/

/-- Filling a bit at the low end of an even number adds it. -/
theorem or_bit (v : Nat) (b : Bool) : 2 * v ||| b.toNat = 2 * v + b.toNat := by
  have := Nat.two_pow_add_eq_or_of_lt (i := 1) (b := b.toNat) (by cases b <;> decide) v
  simpa using this.symm

/-- Masking a doubled value drops its top bit. -/
theorem double_and_mask (w : Width) (v : Nat) : (v <<< 1) &&& mask w = 2 * (v % half w) := by
  rw [mask, Nat.and_two_pow_sub_one_eq_mod, ← two_mul_half, Nat.shiftLeft_eq, pow_one, Nat.mul_comm v 2,
    Nat.mul_mod_mul_left]

theorem shiftE12_eq (w : Width) (v : Nat) (b : Bool) : shiftE12 w v b = 2 * (v % half w) + b.toNat := by
  rw [shiftE12, double_and_mask, or_bit]

theorem shiftE3_eq (w : Width) (v : Nat) (b : Bool) :
    shiftE3 w v b = 2 * ((v ^^^ quarter w) % half w) + b.toNat := by
  rw [shiftE3, double_and_mask, or_bit]

theorem half_pos (w : Width) : 1 ≤ half w := Nat.two_pow_pos _

theorem shiftE12_le_mask (w : Width) (v : Nat) (b : Bool) : shiftE12 w v b ≤ mask w := by
  have hv := Nat.mod_lt v (half_pos w)
  have := mask_succ w
  have := two_mul_half w
  rw [shiftE12_eq]
  cases b <;> simp <;> omega

theorem shiftE3_le_mask (w : Width) (v : Nat) (b : Bool) : shiftE3 w v b ≤ mask w := by
  have hv := Nat.mod_lt (v ^^^ quarter w) (half_pos w)
  have := mask_succ w
  have := two_mul_half w
  rw [shiftE3_eq]
  cases b <;> simp <;> omega

theorem shiftCode_le_mask (w : Width) (x : Shift) (v : Nat) (b : Bool) : shiftCode w x v b ≤ mask w := by
  cases x with
  | e12 _ => exact shiftE12_le_mask w v b
  | e3 => exact shiftE3_le_mask w v b

/-! ## Bits of a W-bit value as positions -/

theorem two_mul_quarter_le (w : Width) : quarter w + quarter w = half w := by
  have := two_mul_quarter w
  omega

/-- The top bit of a W-bit value says which half it lies in. -/
theorem msb_eq (w : Width) {v : Nat} (h : v ≤ mask w) : msb w v = decide (half w ≤ v) := by
  have := mask_succ w
  have := two_mul_half w
  have hp := half_pos w
  rw [msb, Nat.testBit_eq_decide_div_mod_eq, ← half]
  by_cases hv : half w ≤ v
  · have : v / half w = 1 := Nat.div_eq_of_lt_le (by omega) (by omega)
    simp [this, hv]
  · have : v / half w = 0 := Nat.div_eq_of_lt (by omega)
    simp [this, hv]

/-- Below HALF the second bit says which quarter a value lies in. -/
theorem secondBit_of_lt_half (w : Width) {v : Nat} (h : v < half w) : secondBit w v = decide (quarter w ≤ v) := by
  have := two_mul_quarter w
  have hp := quarter_pos w
  rw [secondBit, Nat.testBit_eq_decide_div_mod_eq, ← quarter]
  by_cases hv : quarter w ≤ v
  · have : v / quarter w = 1 := Nat.div_eq_of_lt_le (by omega) (by omega)
    simp [this, hv]
  · have : v / quarter w = 0 := Nat.div_eq_of_lt (by omega)
    simp [this, hv]

/-- From HALF on the second bit says whether a value reaches `3·QUARTER`. -/
theorem secondBit_of_half_le (w : Width) {v : Nat} (h : half w ≤ v) (hm : v ≤ mask w) :
    secondBit w v = decide (3 * quarter w ≤ v) := by
  have := two_mul_quarter w
  have := mask_succ w
  have := two_mul_half w
  have hp := quarter_pos w
  rw [secondBit, Nat.testBit_eq_decide_div_mod_eq, ← quarter]
  by_cases hv : 3 * quarter w ≤ v
  · have : v / quarter w = 3 := Nat.div_eq_of_lt_le (by omega) (by omega)
    simp [this, hv]
  · have : v / quarter w = 2 := Nat.div_eq_of_lt_le (by omega) (by omega)
    simp [this, hv]

/-- Flipping one bit adds or takes off its weight. -/
theorem xor_two_pow (v n : Nat) : v ^^^ 2 ^ n = if v.testBit n then v - 2 ^ n else v + 2 ^ n := by
  have high : (v ^^^ 2 ^ n) / 2 ^ n = (v / 2 ^ n) ^^^ 1 := by
    rw [Nat.xor_div_two_pow, Nat.div_self (Nat.two_pow_pos n)]
  have low : (v ^^^ 2 ^ n) % 2 ^ n = v % 2 ^ n := by rw [Nat.xor_mod_two_pow, Nat.mod_self, Nat.xor_zero]
  have whole := Nat.div_add_mod (v ^^^ 2 ^ n) (2 ^ n)
  have before := Nat.div_add_mod v (2 ^ n)
  rw [high, low] at whole
  rw [Nat.testBit_eq_decide_div_mod_eq]
  by_cases hv : v / 2 ^ n % 2 = 1
  · have weight : 2 ^ n ≤ 2 ^ n * (v / 2 ^ n) := Nat.le_mul_of_pos_right _
      (Nat.pos_of_ne_zero fun h => by simp [h] at hv)
    rw [Nat.xor_one_of_odd (Nat.odd_iff.mpr hv), Nat.mul_sub, Nat.mul_one] at whole
    simp only [hv, decide_true, if_true]
    omega
  · rw [Nat.xor_one_of_even (Nat.even_iff.mpr (by omega)), Nat.mul_add, Nat.mul_one] at whole
    simp only [hv, decide_false, Bool.false_eq_true, if_false]
    omega

theorem xor_quarter (w : Width) (v : Nat) :
    v ^^^ quarter w = if secondBit w v then v - quarter w else v + quarter w := xor_two_pow v (w.bits - 2)

end Sys2Proof.Machine
end

