-- ==== Sys2Proof/Laws/Coding.lean ====
section
/-! SUPPORT. What the encoder and the decoder do with a sequence of shifts when every access succeeds: the encoder sends
exactly the coded bits (42_encoder.md R176, R177), the decoder takes exactly the coming bits in (43_decoder.md R202, R203). -/

namespace Sys2Proof.Machine

/-! ## Packing -/

theorem packBits_append (xs ys : List Bool) (acc : Byte) (n : BitVec 3) :
    packBits (xs ++ ys) acc n =
      ((packBits xs acc n).1 ++ (packBits ys (packBits xs acc n).2.1 (packBits xs acc n).2.2).1,
        (packBits ys (packBits xs acc n).2.1 (packBits xs acc n).2.2).2) := by
  induction xs generalizing acc n with
  | nil => rfl
  | cons b xs ih =>
    simp only [List.cons_append, packBits]
    split <;> simp [ih]

theorem emitBits_append (xs ys : List Bool) (s : State) :
    emitBits (xs ++ ys) s = (emitBits xs s).andThen fun _ t => emitBits ys t := by
  induction xs generalizing s with
  | nil => rfl
  | cons b xs ih =>
    simp only [List.cons_append, emitBits]
    cases emitBit b s with
    | done a t => simp [ih]
    | ioFailed t => rfl

theorem emitBits_single (b : Bool) (s : State) : emitBits [b] s = emitBit b s := by
  simp only [emitBits]
  cases emitBit b s <;> rfl

/-! ## The encoder -/

/-- The converged bit and the deferred ones are one run of bits (42_encoder.md R176). -/
theorem encShift_e12 (b : Bool) (s : State) :
    encShift (.e12 b) s =
      (emitBits (b :: List.replicate s.regs.ufc (!b)) s).thenRegs fun _ r => { r with ufc := 0 } := by
  simp only [encShift, emitBits]
  cases emitBit b s with
  | done a t => simp [emitRepeated_eq_emitBits]
  | ioFailed t => rfl

/-- Granted, a sequence of shifts sends exactly its coded bits. -/
theorem encShifts_granted (xs : List Shift) (s : State)
    (hg : s.grants (packBits (codedBits s.regs.ufc xs).1 s.regs.acc s.regs.nacc).1.length) :
    encShifts xs s =
      .done () ((s.afterWrites (packBits (codedBits s.regs.ufc xs).1 s.regs.acc s.regs.nacc).1).withRegs
        { s.regs with
          ufc := (codedBits s.regs.ufc xs).2
          acc := (packBits (codedBits s.regs.ufc xs).1 s.regs.acc s.regs.nacc).2.1
          nacc := (packBits (codedBits s.regs.ufc xs).1 s.regs.acc s.regs.nacc).2.2 }) := by
  induction xs generalizing s with
  | nil => simp only [encShifts, codedBits, packBits, State.afterWrites_nil]; rfl
  | cons x xs ih =>
    cases x with
    | e3 =>
      rw [encShifts, encShift, Access.done_andThen, ih _ hg]
      rfl
    | e12 b =>
      have bits : (codedBits s.regs.ufc (.e12 b :: xs)).1 =
          (b :: List.replicate s.regs.ufc (!b)) ++ (codedBits 0 xs).1 := rfl
      have left : (codedBits s.regs.ufc (.e12 b :: xs)).2 = (codedBits 0 xs).2 := rfl
      rw [encShifts, encShift_e12]
      simp only [bits, left, packBits_append] at hg ⊢
      generalize b :: List.replicate s.regs.ufc (!b) = first at hg ⊢
      rw [List.length_append] at hg
      rw [emitBits_granted first s (State.grants_mono (Nat.le_add_right _ _) hg), Access.done_thenRegs,
        Access.done_andThen]
      refine Eq.trans (ih _ ?_) ?_
      · exact State.grants_afterWrites (s := s) (packBits first s.regs.acc s.regs.nacc).1 hg rfl
      · simp [State.afterWrites_append]

/-- `EncodeSymbol`, granted (42_encoder.md R175). -/
theorem encodeSymbol_granted (sym : Nat) (s : State) {coded : List Shift × Interval}
    (hc : renorm s.width (narrow s.regs.cum s.regs.total s.regs.encInterval sym) = coded)
    (hg : s.grants (packBits (codedBits s.regs.ufc coded.1).1 s.regs.acc s.regs.nacc).1.length) :
    encodeSymbol sym s =
      .done () ((s.afterWrites (packBits (codedBits s.regs.ufc coded.1).1 s.regs.acc s.regs.nacc).1).withRegs
        { s.regs with
          elow := toReg coded.2.low
          ehigh := toReg coded.2.high
          ufc := (codedBits s.regs.ufc coded.1).2
          acc := (packBits (codedBits s.regs.ufc coded.1).1 s.regs.acc s.regs.nacc).2.1
          nacc := (packBits (codedBits s.regs.ufc coded.1).1 s.regs.acc s.regs.nacc).2.2 }) := by
  simp only [encodeSymbol, hc]
  rw [encShifts_granted coded.1 s hg]
  rfl

/-! ## The decoder -/

theorem Regs.comingReads_zero (r : Regs) : r.comingReads 0 = [] := by simp [Regs.comingReads]

/-- One bit read, the rest are read by a reader one bit further on. -/
theorem Regs.comingReads_succ {r r' : Regs} (len : r'.brLen = r.brLen) (pos : r'.rpos = r.rposAfter 1) (n : Nat) :
    r.comingReads (n + 1) = r.comingReads 1 ++ r'.comingReads n := by
  simp only [Regs.comingReads, Regs.inputBits, Regs.rposAfter, len, pos]
  by_cases h : r.rpos < 8 * r.brLen.toNat
  · have all : min (n + 1) (8 * r.brLen.toNat - r.rpos) = min n (8 * r.brLen.toNat - (r.rpos + 1)) + 1 := by omega
    have one : min 1 (8 * r.brLen.toNat - r.rpos) = 1 := by omega
    rw [all, one]
    simp [List.range_succ_eq_map, Function.comp_def, Nat.add_assoc, Nat.add_comm 1]
  · have none : 8 * r.brLen.toNat - r.rpos = 0 := by omega
    simp [none]

theorem Regs.rposAfter_succ {r r' : Regs} (len : r'.brLen = r.brLen) (pos : r'.rpos = r.rposAfter 1) (n : Nat) :
    r.rposAfter (n + 1) = r'.rposAfter n := by
  simp only [Regs.rposAfter, Regs.inputBits, len] at pos ⊢
  omega

theorem State.inputBit_congr {s t : State} (input : t.input = s.input) (len : t.regs.brLen = s.regs.brLen) (i : Nat) :
    t.inputBit i = s.inputBit i := by simp [State.inputBit, Regs.inputBits, input, len]

theorem State.inputBit_at_end (s : State) {i : Nat} (h : s.regs.inputBits ≤ i) : s.inputBit i = false :=
  if_neg (Nat.not_lt.mpr h)

theorem State.comingBits_succ {s t : State} (input : t.input = s.input) (len : t.regs.brLen = s.regs.brLen)
    (pos : t.regs.rpos = s.regs.rposAfter 1) (n : Nat) :
    s.comingBits (n + 1) = s.inputBit s.regs.rpos :: t.comingBits n := by
  simp only [State.comingBits, List.range_succ_eq_map, List.map_cons, List.map_map, Nat.add_zero]
  congr 1
  apply List.map_congr_left
  intro k _
  simp only [Function.comp_apply, State.inputBit_congr input len, pos, Regs.rposAfter]
  by_cases h : s.regs.rpos < s.regs.inputBits
  · rw [show min 1 (s.regs.inputBits - s.regs.rpos) = 1 from by omega]
    congr 1
    omega
  · rw [State.inputBit_at_end s (by omega), State.inputBit_at_end s (by omega)]

/-- `NextBit`, granted: one source read before the end, none past it (41_bit_packer.md R142; log 5). -/
theorem nextBit_coming (s : State) (hg : s.grants (s.regs.comingReads 1).length) :
    nextBit s =
      .done (s.inputBit s.regs.rpos)
        ((s.afterReads (s.regs.comingReads 1)).withRegs { s.regs with rpos := s.regs.rposAfter 1 }) := by
  by_cases h : s.regs.rpos < s.regs.inputBits
  · have one : min 1 (s.regs.inputBits - s.regs.rpos) = 1 := by omega
    simp only [Regs.comingReads, Regs.rposAfter, one] at hg ⊢
    exact nextBit_granted s h hg
  · have none : min 1 (s.regs.inputBits - s.regs.rpos) = 0 := by omega
    simp only [Regs.comingReads, Regs.rposAfter, none, nextBit_at_end s h, State.inputBit_at_end s (Nat.not_lt.mp h)]
    simp [State.withRegs]

/-- A decoder loop: each round computes `DCODE` anew from it and the next bit (43_decoder.md R202, R203, R206). -/
def codeLoop : List (Nat → Bool → Nat) → State → Access Unit
  | [], s => .done () s
  | g :: gs, s =>
    (nextBit s).andThen fun b t => codeLoop gs (t.withRegs { t.regs with dcode := toReg (g t.regs.dcode.toNat b) })

/-- The code after such a loop, the bits given. -/
def codeAfter : List (Nat → Bool → Nat) → List Bool → Nat → Nat
  | g :: gs, b :: bs, code => codeAfter gs bs (g code b)
  | [], _, code => code
  | _ :: _, [], code => code

/-- Granted, a decoder loop takes exactly the coming bits in. -/
theorem codeLoop_granted (w : Width) (gs : List (Nat → Bool → Nat)) (fits : ∀ g ∈ gs, ∀ v b, g v b ≤ mask w) (s : State)
    (hg : s.grants (s.regs.comingReads gs.length).length) :
    codeLoop gs s =
      .done () ((s.afterReads (s.regs.comingReads gs.length)).withRegs
        { s.regs with
          dcode := toReg (codeAfter gs (s.comingBits gs.length) s.regs.dcode.toNat)
          rpos := s.regs.rposAfter gs.length }) := by
  induction gs generalizing s with
  | nil => simp [codeLoop, codeAfter, Regs.comingReads_zero, Regs.rposAfter, toReg, State.withRegs]
  | cons g gs ih =>
    let r : Regs :=
      { s.regs with rpos := s.regs.rposAfter 1, dcode := toReg (g s.regs.dcode.toNat (s.inputBit s.regs.rpos)) }
    let t : State := (s.afterReads (s.regs.comingReads 1)).withRegs r
    have reads : s.regs.comingReads (gs.length + 1) = s.regs.comingReads 1 ++ r.comingReads gs.length :=
      Regs.comingReads_succ (r := s.regs) (r' := r) rfl rfl _
    have held : r.dcode.toNat = g s.regs.dcode.toNat (s.inputBit s.regs.rpos) :=
      toReg_toNat (fits g (by simp) _ _)
    rw [List.length_cons, reads] at hg ⊢
    rw [List.length_append] at hg
    have first : codeLoop (g :: gs) s = codeLoop gs t := by
      rw [codeLoop, nextBit_coming s (State.grants_mono (Nat.le_add_right _ _) hg)]
      rfl
    rw [first, ih (fun g hg => fits g (by simp [hg])) t (State.grants_afterReads (s := s) _ hg rfl),
      Regs.rposAfter_succ (r := s.regs) (r' := r) rfl rfl, State.comingBits_succ (s := s) (t := t) rfl rfl rfl, codeAfter, ← held,
      ← State.afterReads_append]
    rfl

theorem nextBit_width (s t : State) (b : Bool) (h : nextBit s = .done b t) : t.width = s.width := by
  have did := nextBit_did s
  rw [h] at did
  cases did with
  | done _ _ es trace _ => exact trace.width

theorem decShifts_eq_codeLoop (xs : List Shift) (s : State) :
    decShifts xs s = codeLoop (xs.map (shiftCode s.width)) s := by
  induction xs generalizing s with
  | nil => rfl
  | cons x xs ih =>
    simp only [decShifts, decShift, List.map_cons, codeLoop]
    cases h : nextBit s with
    | done b t =>
      have hw := nextBit_width s t b h
      simp [ih, hw]
    | ioFailed t => rfl

theorem primeBits_eq_codeLoop (n : Nat) (s : State) :
    primeBits n s = codeLoop (List.replicate n (shiftE12 s.width)) s := by
  induction n generalizing s with
  | zero => rfl
  | succ n ih =>
    simp only [primeBits, List.replicate_succ, codeLoop]
    cases h : nextBit s with
    | done b t =>
      have hw := nextBit_width s t b h
      simp [ih, hw]
    | ioFailed t => rfl

theorem codeAfter_shiftCode (w : Width) (xs : List Shift) (bs : List Bool) (code : Nat) :
    codeAfter (xs.map (shiftCode w)) bs code = shiftedCode w xs bs code := by
  induction xs generalizing bs code with
  | nil => rfl
  | cons x xs ih =>
    cases bs with
    | nil => rfl
    | cons b bs => exact ih bs _

/-- Granted, a sequence of shifts takes one coming bit in for each. -/
theorem decShifts_granted (xs : List Shift) (s : State) (hg : s.grants (s.regs.comingReads xs.length).length) :
    decShifts xs s =
      .done () ((s.afterReads (s.regs.comingReads xs.length)).withRegs
        { s.regs with
          dcode := toReg (shiftedCode s.width xs (s.comingBits xs.length) s.regs.dcode.toNat)
          rpos := s.regs.rposAfter xs.length }) := by
  have loop := codeLoop_granted s.width (xs.map (shiftCode s.width))
    (fun g hg v b => by
      obtain ⟨x, _, rfl⟩ := List.mem_map.mp hg
      exact shiftCode_le_mask s.width x v b)
    s (by simpa using hg)
  rw [decShifts_eq_codeLoop, loop, codeAfter_shiftCode, List.length_map]

theorem bitsToNat_lt (bs : List Bool) : bitsToNat bs < 2 ^ bs.length := by
  induction bs with
  | nil => simp [bitsToNat]
  | cons b bs ih =>
    have : b.toNat ≤ 1 := by cases b <;> decide
    have := Nat.mul_le_mul_right (2 ^ bs.length) this
    simp only [bitsToNat, List.length_cons, Nat.pow_succ]
    omega

/-- `W` or fewer bits shifted in after a code that leaves room for them spell a number behind it. -/
theorem codeAfter_shiftE12 (w : Width) (bs : List Bool) (code : Nat) (h : (code + 1) * 2 ^ bs.length ≤ 2 ^ w.bits) :
    codeAfter (List.replicate bs.length (shiftE12 w)) bs code = code * 2 ^ bs.length + bitsToNat bs := by
  induction bs generalizing code with
  | nil => simp [codeAfter, bitsToNat]
  | cons b bs ih =>
    simp only [List.length_cons, List.replicate_succ, codeAfter, bitsToNat, Nat.pow_succ] at h ⊢
    have room : code < half w := by
      have := two_mul_half w
      have := Nat.mul_le_mul_left (code + 1) (Nat.mul_le_mul_right 2 (Nat.one_le_two_pow (n := bs.length)))
      omega
    have bit : b.toNat ≤ 1 := by cases b <;> decide
    have next : shiftE12 w code b = 2 * code + b.toNat := by rw [shiftE12_eq, Nat.mod_eq_of_lt room]
    have spread : (2 * code + b.toNat + 1) * 2 ^ bs.length ≤ (code + 1) * (2 ^ bs.length * 2) := by
      rw [Nat.mul_comm (2 ^ bs.length) 2, ← Nat.mul_assoc]
      exact Nat.mul_le_mul_right _ (by omega)
    rw [next, ih _ (spread.trans h)]
    ring

theorem State.comingBits_length (s : State) (n : Nat) : (s.comingBits n).length = n := by simp [State.comingBits]

/-- `Prime`, granted (43_decoder.md R206). -/
theorem prime_granted (s : State) (hg : s.grants (s.regs.comingReads s.width.bits).length) :
    prime s =
      .done () ((s.afterReads (s.regs.comingReads s.width.bits)).withRegs
        { s.regs with
          dcode := toReg (bitsToNat (s.comingBits s.width.bits))
          rpos := s.regs.rposAfter s.width.bits }) := by
  let t : State := s.withRegs { s.regs with dcode := 0 }
  have loop := codeLoop_granted s.width (List.replicate s.width.bits (shiftE12 s.width))
    (fun g hg v b => by
      rw [List.eq_of_mem_replicate hg]
      exact shiftE12_le_mask s.width v b)
    t (by rw [List.length_replicate]; exact hg)
  have code := codeAfter_shiftE12 s.width (s.comingBits s.width.bits) 0 (by simp [State.comingBits_length])
  rw [State.comingBits_length, Nat.zero_mul, Nat.zero_add] at code
  rw [prime, primeBits_eq_codeLoop]
  refine loop.trans ?_
  rw [← code]
  simp only [List.length_replicate]
  rfl

/-- `DecodeSymbol`, granted (43_decoder.md R204). -/
theorem decodeSymbol_granted (s : State) {sym : Nat} {coded : List Shift × Interval}
    (hs : lookup s.regs.cum (currentValue s.regs) = sym)
    (hc : renorm s.width (narrow s.regs.cum s.regs.total s.regs.decInterval sym) = coded)
    (hg : s.grants (s.regs.comingReads coded.1.length).length) :
    decodeSymbol s =
      .done sym ((s.afterReads (s.regs.comingReads coded.1.length)).withRegs
        { s.regs with
          dlow := toReg coded.2.low
          dhigh := toReg coded.2.high
          dcode := toReg (shiftedCode s.width coded.1 (s.comingBits coded.1.length) s.regs.dcode.toNat)
          rpos := s.regs.rposAfter coded.1.length }) := by
  simp only [decodeSymbol, hs, hc]
  rw [decShifts_granted coded.1 s hg]
  rfl

end Sys2Proof.Machine
end

