-- ==== Sys2Proof/Laws/Frames.lean ====
section
/-! SUPPORT. Which registers a successful run of accesses changes, whatever the environment answered before. -/

namespace Sys2Proof.Machine

/-- `r'` is `r` but for the writer and the underflow counter. -/
def Regs.onlyWriter (r r' : Regs) : Prop := r' = { r with acc := r'.acc, nacc := r'.nacc, ufc := r'.ufc }

/-- `r'` is `r` but for the reader's position and the code. -/
def Regs.onlyReader (r r' : Regs) : Prop := r' = { r with rpos := r'.rpos, dcode := r'.dcode }

theorem Regs.onlyWriter_refl (r : Regs) : r.onlyWriter r := rfl

theorem Regs.onlyWriter_ufc (r : Regs) (n : Nat) : r.onlyWriter { r with ufc := n } := rfl

theorem Regs.onlyReader_refl (r : Regs) : r.onlyReader r := rfl

theorem Regs.onlyWriter_trans {r r' r'' : Regs} (h : r.onlyWriter r') (h' : r'.onlyWriter r'') : r.onlyWriter r'' := by
  unfold Regs.onlyWriter at *
  rw [h', h]

theorem Regs.onlyReader_trans {r r' r'' : Regs} (h : r.onlyReader r') (h' : r'.onlyReader r'') : r.onlyReader r'' := by
  unfold Regs.onlyReader at *
  rw [h', h]

/-! ## The writer -/

theorem sinkWrite_regs (b : Byte) (s t : State) (h : sinkWrite b s = .done () t) : t.regs = s.regs ∧ t.width = s.width := by
  cases ha : s.nextAnswer with
  | success =>
    rw [sinkWrite_of_success b s ha] at h
    cases h
    exact ⟨rfl, rfl⟩
  | failure =>
    rw [sinkWrite_of_failure b s ha] at h
    cases h

/-- A bit shifted into an accumulator that is not full keeps the pending bits below its count (10_state.md R30). -/
theorem shiftInBit_fits : ∀ (acc : Byte) (n : BitVec 3) (b : Bool), n ≠ 7 → acc.toNat < 2 ^ n.toNat →
    (shiftInBit acc b).toNat < 2 ^ (n + 1).toNat := by decide +kernel

/-- `EmitBit` changes the writer only, and keeps it legal (41_bit_packer.md R140). -/
theorem emitBit_regs (b : Bool) (s t : State) (h : emitBit b s = .done () t) :
    s.regs.onlyWriter t.regs ∧ t.regs.ufc = s.regs.ufc ∧ t.width = s.width
      ∧ (s.regs.writerLegal → t.regs.writerLegal) := by
  by_cases h7 : s.regs.nacc = 7
  · rw [emitBit, if_pos h7] at h
    cases ha : s.nextAnswer with
    | success =>
      rw [sinkWrite_of_success _ s ha] at h
      cases h
      exact ⟨rfl, rfl, rfl, fun _ => by simp [Regs.writerLegal]⟩
    | failure =>
      rw [sinkWrite_of_failure _ s ha] at h
      cases h
  · rw [emitBit_of_room b s h7] at h
    cases h
    exact ⟨rfl, rfl, rfl, shiftInBit_fits _ _ b h7⟩

theorem emitBits_regs (bs : List Bool) (s t : State) (h : emitBits bs s = .done () t) :
    s.regs.onlyWriter t.regs ∧ t.regs.ufc = s.regs.ufc ∧ t.width = s.width
      ∧ (s.regs.writerLegal → t.regs.writerLegal) := by
  induction bs generalizing s with
  | nil =>
    cases h
    exact ⟨rfl, rfl, rfl, id⟩
  | cons b bs ih =>
    simp only [emitBits] at h
    cases hb : emitBit b s with
    | ioFailed u =>
      rw [hb] at h
      cases h
    | done a u =>
      rw [hb] at h
      obtain ⟨only, ufc, width, legal⟩ := emitBit_regs b s u hb
      obtain ⟨only', ufc', width', legal'⟩ := ih u h
      exact ⟨Regs.onlyWriter_trans only only', ufc'.trans ufc, width'.trans width, legal' ∘ legal⟩

/-- A sequence of shifts changes the writer and the underflow counter only (42_encoder.md R176, R177). -/
theorem encShifts_regs (xs : List Shift) (s t : State) (h : encShifts xs s = .done () t) :
    s.regs.onlyWriter t.regs ∧ t.regs.ufc = (codedBits s.regs.ufc xs).2 ∧ t.width = s.width
      ∧ (s.regs.writerLegal → t.regs.writerLegal) := by
  induction xs generalizing s with
  | nil =>
    cases h
    exact ⟨rfl, rfl, rfl, id⟩
  | cons x xs ih =>
    cases x with
    | e3 =>
      obtain ⟨only, ufc, width, legal⟩ := ih _ h
      exact ⟨Regs.onlyWriter_trans (Regs.onlyWriter_ufc _ _) only, ufc, width, legal⟩
    | e12 b =>
      rw [encShifts, encShift_e12] at h
      cases hb : emitBits (b :: List.replicate s.regs.ufc (!b)) s with
      | ioFailed u =>
        rw [hb] at h
        cases h
      | done a u =>
        rw [hb, Access.done_thenRegs, Access.done_andThen] at h
        obtain ⟨only, _, width, legal⟩ := emitBits_regs _ s u hb
        obtain ⟨only', ufc', width', legal'⟩ := ih _ h
        exact ⟨Regs.onlyWriter_trans (Regs.onlyWriter_trans only (Regs.onlyWriter_ufc _ _)) only', ufc', width'.trans width, legal' ∘ legal⟩

theorem emitRawBytes_regs (vs : List Byte) (s t : State) (h : emitRawBytes vs s = .done () t) :
    t.regs = s.regs ∧ t.width = s.width := by
  induction vs generalizing s with
  | nil =>
    cases h
    exact ⟨rfl, rfl⟩
  | cons v vs ih =>
    simp only [emitRawBytes, emitRawByte] at h
    cases hw : sinkWrite v s with
    | ioFailed u =>
      rw [hw] at h
      cases h
    | done a u =>
      rw [hw] at h
      obtain ⟨regs, width⟩ := sinkWrite_regs v s u hw
      obtain ⟨regs', width'⟩ := ih u h
      exact ⟨regs'.trans regs, width'.trans width⟩

/-! ## The reader -/

theorem sourceRead_regs (i : Nat) (s t : State) (b : Byte) (h : sourceRead i s = .done b t) :
    t.regs = s.regs ∧ t.width = s.width := by
  cases ha : s.nextAnswer with
  | success =>
    rw [sourceRead_of_success i s ha] at h
    cases h
    exact ⟨rfl, rfl⟩
  | failure =>
    rw [sourceRead_of_failure i s ha] at h
    cases h

theorem sourceReadMany_regs (n i : Nat) (s t : State) (bs : List Byte) (h : sourceReadMany n i s = .done bs t) :
    t.regs = s.regs ∧ t.width = s.width := by
  induction n generalizing i s bs with
  | zero =>
    cases h
    exact ⟨rfl, rfl⟩
  | succ n ih =>
    simp only [sourceReadMany] at h
    cases hr : sourceRead i s with
    | ioFailed u =>
      rw [hr] at h
      cases h
    | done b u =>
      rw [hr, Access.done_andThen] at h
      cases hm : sourceReadMany n (i + 1) u with
      | ioFailed v =>
        rw [hm] at h
        cases h
      | done bs' v =>
        rw [hm] at h
        cases h
        obtain ⟨regs, width⟩ := sourceRead_regs i s u b hr
        obtain ⟨regs', width'⟩ := ih (i + 1) u _ hm
        exact ⟨regs'.trans regs, width'.trans width⟩

/-- `NextBit` changes `RPOS` only, and keeps it in range (41_bit_packer.md R142). -/
theorem nextBit_regs (s t : State) (b : Bool) (h : nextBit s = .done b t) :
    t.regs = { s.regs with rpos := t.regs.rpos } ∧ t.width = s.width ∧ (s.regs.readerLegal → t.regs.readerLegal) := by
  unfold nextBit at h
  split at h
  · rename_i before
    cases ha : s.nextAnswer with
    | success =>
      rw [sourceRead_of_success _ s ha] at h
      cases h
      exact ⟨rfl, rfl, fun _ => before⟩
    | failure =>
      rw [sourceRead_of_failure _ s ha] at h
      cases h
  · cases h
    exact ⟨rfl, rfl, id⟩

/-- A decoder loop changes the reader and the code only, and the code is what it computed from some bits. -/
theorem codeLoop_regs (w : Width) (gs : List (Nat → Bool → Nat)) (fits : ∀ g ∈ gs, ∀ v b, g v b ≤ mask w) (s t : State)
    (h : codeLoop gs s = .done () t) :
    s.regs.onlyReader t.regs ∧ t.width = s.width ∧ (s.regs.readerLegal → t.regs.readerLegal)
      ∧ ∃ bs : List Bool, bs.length = gs.length ∧ t.regs.dcode = toReg (codeAfter gs bs s.regs.dcode.toNat) := by
  induction gs generalizing s with
  | nil =>
    cases h
    exact ⟨rfl, rfl, id, [], rfl, by simp [codeAfter, toReg]⟩
  | cons g gs ih =>
    simp only [codeLoop] at h
    cases hb : nextBit s with
    | ioFailed u =>
      rw [hb] at h
      cases h
    | done b u =>
      rw [hb, Access.done_andThen] at h
      obtain ⟨regs, width, legal⟩ := nextBit_regs s u b hb
      obtain ⟨only', width', legal', bs, len, code⟩ := ih (fun g hg => fits g (by simp [hg])) _ h
      have first : s.regs.onlyReader { u.regs with dcode := toReg (g u.regs.dcode.toNat b) } := by
        unfold Regs.onlyReader
        rw [regs]
      refine ⟨Regs.onlyReader_trans first only', width'.trans width, legal' ∘ legal, b :: bs, by simp [len], ?_⟩
      rw [code]
      simp only [State.withRegs, codeAfter]
      rw [toReg_toNat (fits g (by simp) _ _), regs]

end Sys2Proof.Machine
end

