-- ==== Sys2Proof/Laws/Failure.lean ====
section
/-! SUPPORT. Which accesses each operation makes, said so that a failing answer is covered too (00_scope.md R12, 60_exceptions.md
R245): with all of them granted the operation is done, and the first answer that is a failure ends it there. -/

namespace Sys2Proof.Machine

/-- Not every one of the next `n` answers is a success: one of them is the first failure. -/
theorem State.first_failure {n : Nat} {s : State} (h : ¬ s.grants n) :
    ∃ k, k < n ∧ s.grants k ∧ s.draws[k]? = some .failure := by
  induction n with
  | zero => exact absurd (State.grants_zero s) h
  | succ n ih =>
    by_cases hn : s.grants n
    · refine ⟨n, Nat.lt_succ_self n, hn, ?_⟩
      cases hd : s.draws[n]? with
      | none =>
        have short : s.draws.length ≤ n := List.getElem?_eq_none_iff.mp hd
        refine absurd (fun a ha => hn a ?_) h
        rwa [List.take_of_length_le (Nat.le_succ_of_le short), ← List.take_of_length_le short] at ha
      | some a =>
        cases a with
        | failure => rfl
        | success =>
          refine absurd (fun a ha => ?_) h
          rw [List.take_add_one, hd, List.mem_append] at ha
          rcases ha with ha | ha
          · exact hn a ha
          · simpa using ha
    · obtain ⟨k, hk, rest⟩ := ih hn
      exact ⟨k, Nat.lt_succ_of_lt hk, rest⟩

theorem State.not_grants_of_failure {n k : Nat} {s : State} (hk : k < n) (hf : s.draws[k]? = some .failure) :
    ¬ s.grants n := by
  intro h
  have mem : IoAnswer.failure ∈ s.draws.take n := by
    rw [List.mem_iff_getElem?]
    exact ⟨k, by rw [List.getElem?_take_of_lt hk, hf]⟩
  cases h _ mem

theorem State.grants_drop {m n : Nat} {s t : State} (ht : t.draws = s.draws.drop m) (h : s.grants (m + n)) : t.grants n := by
  intro a ha
  refine h a ?_
  rw [ht] at ha
  rw [List.take_add]
  exact List.mem_append_right _ ha

/-- The bytes the sink takes of these accesses. -/
abbrev sunkBytes (es : List IoEvent) : List Byte := es.filterMap IoEvent.sunk

/-- The accesses an operation makes when the environment answers success to each: it is done exactly when all are granted, and
else it ends at the first failure, with the bytes written before it in the sink. -/
structure Access.Makes {α : Type} (es : List IoEvent) (s : State) (x : Access α) : Prop where
  granted : s.grants es.length → ∃ a t, x = .done a t ∧ t.draws = s.draws.drop es.length ∧ t.out = s.out ++ sunkBytes es
  failed  : ∀ k, k < es.length → s.grants k → s.draws[k]? = some .failure →
    ∃ u, x = .ioFailed u ∧ u.out = s.out ++ sunkBytes (es.take k)

theorem Access.Makes.grants_of_done {α : Type} {es : List IoEvent} {s t : State} {x : Access α} {a : α}
    (h : x.Makes es s) (hd : x = .done a t) : s.grants es.length := by
  by_contra hn
  obtain ⟨k, hk, hg, hf⟩ := State.first_failure hn
  obtain ⟨u, hu, -⟩ := h.failed k hk hg hf
  rw [hd] at hu
  cases hu

/-- A command whose accesses are not all granted ends in `IO_FAILURE` at the first failure (60_exceptions.md R245). -/
theorem Access.Makes.finish_failed {α : Type} {es : List IoEvent} {s : State} {x : Access α} (h : x.Makes es s) (op : BitVec 8)
    (hn : ¬ s.grants es.length) :
    ∃ k t, k < es.length ∧ s.grants k ∧ s.draws[k]? = some .failure ∧ x.finish op = .next t
      ∧ t.err = .ioFailure ∧ t.errOp = op ∧ t.out = s.out ++ sunkBytes (es.take k) := by
  obtain ⟨k, hk, hg, hf⟩ := State.first_failure hn
  obtain ⟨u, rfl, hu⟩ := h.failed k hk hg hf
  exact ⟨k, ioFailureEntry op u, hk, hg, hf, rfl, rfl, rfl, hu⟩

theorem Access.Makes.of_done {α : Type} (a : α) (s t : State) (hd : t.draws = s.draws) (ho : t.out = s.out) :
    (Access.done a t).Makes [] s :=
  ⟨fun _ => ⟨a, t, rfl, by simpa using hd, by simpa using ho⟩, fun _ hk => absurd hk (Nat.not_lt_zero _)⟩

theorem Access.Makes.andThen {α β : Type} {es fs : List IoEvent} {s : State} {x : Access α} {f : α → State → Access β}
    (hx : x.Makes es s) (hf : ∀ a t, x = .done a t → (f a t).Makes fs t) : (x.andThen f).Makes (es ++ fs) s := by
  constructor
  · intro hg
    rw [List.length_append] at hg
    obtain ⟨a, t, rfl, hd, ho⟩ := hx.granted (State.grants_mono (Nat.le_add_right _ _) hg)
    obtain ⟨b, u, hu, hd', ho'⟩ := (hf a t rfl).granted (State.grants_drop hd hg)
    exact ⟨b, u, hu, by rw [hd', hd, List.drop_drop, List.length_append],
      by rw [ho', ho, List.append_assoc, sunkBytes, sunkBytes, ← List.filterMap_append]⟩
  · intro k hk hg hfail
    by_cases hin : k < es.length
    · obtain ⟨u, rfl, hu⟩ := hx.failed k hin hg hfail
      exact ⟨u, rfl, by rw [hu, List.take_append_of_le_length (Nat.le_of_lt hin)]⟩
    · obtain ⟨j, rfl⟩ := Nat.exists_eq_add_of_le (Nat.le_of_not_lt hin)
      obtain ⟨a, t, rfl, hd, ho⟩ := hx.granted (State.grants_mono (Nat.le_add_right _ _) hg)
      obtain ⟨u, hu, hout⟩ := (hf a t rfl).failed j (by rw [List.length_append] at hk; omega) (State.grants_drop hd hg)
        (by rw [hd, List.getElem?_drop, hfail])
      refine ⟨u, hu, ?_⟩
      rw [hout, ho, List.append_assoc, List.take_length_add_append, sunkBytes, sunkBytes, ← List.filterMap_append]

theorem Access.Makes.thenRegs {α : Type} {es : List IoEvent} {s : State} {x : Access α} {f : α → Regs → Regs}
    (hx : x.Makes es s) : (x.thenRegs f).Makes es s := by
  have h := hx.andThen (fs := []) fun a t _ => .of_done a t (t.withRegs (f a t.regs)) rfl rfl
  rwa [List.append_nil] at h

theorem Access.done_state {α : Type} {a b : α} {s t : State} (h : Access.done a s = .done b t) : t = s := by
  cases h
  rfl

theorem Access.Makes.fromRegs {α : Type} {es : List IoEvent} {s : State} {r : Regs} {x : Access α}
    (hx : x.Makes es (s.withRegs r)) : x.Makes es s := ⟨hx.granted, hx.failed⟩

/-! ## Writes -/

/-- The events of successful writes, and of successful reads. -/
abbrev writeEvents (bytes : List Byte) : List IoEvent := bytes.map (.sinkWrite · .success)

abbrev readEvents (indices : List Nat) : List IoEvent := indices.map (.sourceRead · .success)

theorem sunkBytes_writeEvents (bytes : List Byte) (k : Nat) : sunkBytes ((writeEvents bytes).take k) = bytes.take k := by
  rw [writeEvents, ← List.map_take, sunkBytes, List.filterMap_map]
  exact List.filterMap_some ▸ rfl

theorem sunkBytes_readEvents (indices : List Nat) (k : Nat) : sunkBytes ((readEvents indices).take k) = [] := by
  rw [readEvents, ← List.map_take, sunkBytes, List.filterMap_map]
  exact List.filterMap_eq_nil_iff.mpr fun _ _ => rfl

theorem sinkWrite_makes (b : Byte) (s : State) : (sinkWrite b s).Makes (writeEvents [b]) s := by
  constructor
  · intro hg
    rw [sinkWrite_granted b s hg]
    exact ⟨(), _, rfl, rfl, rfl⟩
  · intro k hk _ hf
    obtain rfl : k = 0 := by simpa using hk
    have ans : s.nextAnswer = .failure := by
      rw [State.nextAnswer]
      cases hd : s.draws with
      | nil => simp [hd] at hf
      | cons a rest => simpa [hd] using hf
    rw [sinkWrite_of_failure b s ans]
    exact ⟨_, rfl, by simp [sunkBytes]⟩

/-- `EmitRawByte` of each byte makes one write for each (41_bit_packer.md R141). -/
theorem emitRawBytes_makes (vs : List Byte) (s : State) : (emitRawBytes vs s).Makes (writeEvents vs) s := by
  induction vs generalizing s with
  | nil => exact .of_done () s s rfl rfl
  | cons v vs ih => exact (sinkWrite_makes v s).andThen fun _ t _ => ih t

theorem emitBit_makes (b : Bool) (s : State) :
    (emitBit b s).Makes (writeEvents (packBits [b] s.regs.acc s.regs.nacc).1) s := by
  by_cases h : s.regs.nacc = 7
  · rw [emitBit, if_pos h]
    simp only [packBits, h, if_true]
    exact (sinkWrite_makes _ s).thenRegs
  · rw [emitBit_of_room b s h]
    simp only [packBits, h, if_false]
    exact .of_done () s _ rfl rfl

/-- A run of bits makes one write for each byte it packs (41_bit_packer.md R140). -/
theorem emitBits_makes (bits : List Bool) (s : State) :
    (emitBits bits s).Makes (writeEvents (packBits bits s.regs.acc s.regs.nacc).1) s := by
  induction bits generalizing s with
  | nil => exact .of_done () s s rfl rfl
  | cons b bs ih =>
    rw [show b :: bs = [b] ++ bs from rfl, packBits_append, writeEvents, List.map_append]
    refine (emitBit_makes b s).andThen fun _ t ht => ?_
    have hg := (emitBit_makes b s).grants_of_done ht
    rw [List.length_map] at hg
    rw [← emitBits_single, emitBits_granted [b] s hg] at ht
    have rest := ih t
    rwa [Access.done_state ht] at rest ⊢

/-- The shifts of a symbol make one write for each byte their bits pack (42_encoder.md R176, R177). -/
theorem encShifts_makes (xs : List Shift) (s : State) :
    (encShifts xs s).Makes (writeEvents (packBits (codedBits s.regs.ufc xs).1 s.regs.acc s.regs.nacc).1) s := by
  induction xs generalizing s with
  | nil => exact .of_done () s s rfl rfl
  | cons x xs ih =>
    cases x with
    | e3 => exact (ih (s.withRegs { s.regs with ufc := s.regs.ufc + 1 })).fromRegs
    | e12 b =>
      have bits : (codedBits s.regs.ufc (.e12 b :: xs)).1 =
          (b :: List.replicate s.regs.ufc (!b)) ++ (codedBits 0 xs).1 := rfl
      rw [encShifts, encShift_e12, bits, packBits_append, writeEvents, List.map_append]
      generalize b :: List.replicate s.regs.ufc (!b) = first
      refine (emitBits_makes first s).thenRegs.andThen fun _ t ht => ?_
      have hg := (emitBits_makes first s).thenRegs.grants_of_done ht
      rw [List.length_map] at hg
      rw [emitBits_granted first s hg] at ht
      have rest := ih t
      rwa [Access.done_state ht] at rest ⊢

theorem encodeSymbol_makes (sym : Nat) (s : State) {coded : List Shift × Interval}
    (hc : renorm s.width (narrow s.regs.cum s.regs.total s.regs.encInterval sym) = coded) :
    (encodeSymbol sym s).Makes (writeEvents (packBits (codedBits s.regs.ufc coded.1).1 s.regs.acc s.regs.nacc).1) s := by
  simp only [encodeSymbol, hc]
  exact (encShifts_makes coded.1 s).thenRegs

/-- The sentinel and the final bit (42_encoder.md R182). -/
theorem encodeSentinel_makes (s : State) {coded : List Shift × Interval}
    (hc : renorm s.width (narrow s.regs.cum s.regs.total s.regs.encInterval 256) = coded) :
    ((encodeSymbol sentinel s).andThen fun _ t => emitBit true t).Makes
      (writeEvents (packBits ((codedBits s.regs.ufc coded.1).1 ++ [true]) s.regs.acc s.regs.nacc).1) s := by
  rw [packBits_append, writeEvents, List.map_append]
  refine (encodeSymbol_makes sentinel s hc).andThen fun _ t ht => ?_
  have hg := (encodeSymbol_makes sentinel s hc).grants_of_done ht
  rw [List.length_map] at hg
  rw [encodeSymbol_granted sentinel s hc hg] at ht
  have rest := emitBit_makes true t
  rwa [Access.done_state ht] at rest ⊢

/-! ## Reads -/

theorem sourceRead_makes (i : Nat) (s : State) : (sourceRead i s).Makes (readEvents [i]) s := by
  constructor
  · intro hg
    rw [sourceRead_granted i s hg]
    exact ⟨_, _, rfl, rfl, by simp [sunkBytes, IoEvent.sunk]⟩
  · intro k hk _ hf
    obtain rfl : k = 0 := by simpa using hk
    have ans : s.nextAnswer = .failure := by
      rw [State.nextAnswer]
      cases hd : s.draws with
      | nil => simp [hd] at hf
      | cons a rest => simpa [hd] using hf
    rw [sourceRead_of_failure i s ans]
    exact ⟨_, rfl, by simp [sunkBytes]⟩

/-- One read for each byte (40_frequency_model.md R120). -/
theorem sourceReadMany_makes (n i : Nat) (s : State) :
    (sourceReadMany n i s).Makes (readEvents ((List.range n).map (i + ·))) s := by
  induction n generalizing i s with
  | zero => exact .of_done [] s s rfl rfl
  | succ n ih =>
    have split : (List.range (n + 1)).map (i + ·) = [i] ++ (List.range n).map (i + 1 + ·) := by
      simp [List.range_succ_eq_map, Function.comp_def, Nat.add_assoc, Nat.add_comm 1]
    rw [split, readEvents, List.map_append]
    refine (sourceRead_makes i s).andThen fun b t _ => ?_
    simpa using (ih (i + 1) t).andThen (fs := []) fun bs u _ => .of_done (b :: bs) u u rfl rfl

theorem nextBit_makes (s : State) : (nextBit s).Makes (readEvents (s.regs.comingReads 1)) s := by
  by_cases h : s.regs.rpos < s.regs.inputBits
  · have one : min 1 (s.regs.inputBits - s.regs.rpos) = 1 := by omega
    rw [nextBit, if_pos h, Regs.comingReads, one]
    simpa using (sourceRead_makes (s.regs.rpos / 8) s).andThen (fs := []) fun b t _ =>
      .of_done (bitAt b s.regs.rpos) t (t.withRegs { t.regs with rpos := t.regs.rpos + 1 }) rfl rfl
  · have none : min 1 (s.regs.inputBits - s.regs.rpos) = 0 := by omega
    rw [nextBit_at_end s h, Regs.comingReads, none]
    exact .of_done false s s rfl rfl

/-- A decoder loop makes one read for each bit before the end (41_bit_packer.md R142; log 5). -/
theorem codeLoop_makes (gs : List (Nat → Bool → Nat)) (s : State) :
    (codeLoop gs s).Makes (readEvents (s.regs.comingReads gs.length)) s := by
  induction gs generalizing s with
  | nil => exact .of_done () s s rfl rfl
  | cons g gs ih =>
    rw [List.length_cons, Regs.comingReads_succ (r := s.regs) (r' := { s.regs with rpos := s.regs.rposAfter 1 }) rfl rfl,
      readEvents, List.map_append]
    refine (nextBit_makes s).andThen fun b t ht => ?_
    have hg := (nextBit_makes s).grants_of_done ht
    rw [List.length_map] at hg
    rw [nextBit_coming s hg] at ht
    have rest := (ih (t.withRegs { t.regs with dcode := toReg (g t.regs.dcode.toNat b) })).fromRegs
    obtain rfl := Access.done_state ht
    exact rest

theorem decShifts_makes (xs : List Shift) (s : State) :
    (decShifts xs s).Makes (readEvents (s.regs.comingReads xs.length)) s := by
  rw [decShifts_eq_codeLoop]
  simpa using codeLoop_makes (xs.map (shiftCode s.width)) s

theorem decodeSymbol_makes (s : State) {sym : Nat} {coded : List Shift × Interval}
    (hs : lookup s.regs.cum (currentValue s.regs) = sym)
    (hc : renorm s.width (narrow s.regs.cum s.regs.total s.regs.decInterval sym) = coded) :
    (decodeSymbol s).Makes (readEvents (s.regs.comingReads coded.1.length)) s := by
  simp only [decodeSymbol, hs, hc]
  simpa using (decShifts_makes coded.1 s).thenRegs.andThen (fs := []) fun _ t _ => .of_done sym t t rfl rfl

theorem prime_makes (s : State) : (prime s).Makes (readEvents (s.regs.comingReads s.width.bits)) s := by
  rw [prime, primeBits_eq_codeLoop]
  have loop := (codeLoop_makes (List.replicate s.width.bits (shiftE12 s.width))
    (s.withRegs { s.regs with dcode := 0 })).fromRegs
  rw [List.length_replicate] at loop
  exact loop

end Sys2Proof.Machine
end

