-- ==== Sys2Proof/Laws/Model.lean ====
section
/-! SUPPORT. The cumulative table as sums of counts (40_frequency_model.md R101). -/

namespace Sys2Proof.Machine

theorem countsBelow_zero (count : Vector Word 256) : countsBelow count 0 = 0 := rfl

theorem countsBelow_succ (count : Vector Word 256) (n : Nat) :
    countsBelow count (n + 1) = countsBelow count n + countOf count n := by
  simp [countsBelow, List.range_succ]

theorem countsBelow_mono (count : Vector Word 256) {m n : Nat} (h : m ≤ n) : countsBelow count m ≤ countsBelow count n := by
  induction h with
  | refl => exact Nat.le_refl _
  | step _ ih =>
    rw [countsBelow_succ]
    omega

theorem countOf_sentinel (count : Vector Word 256) : countOf count sentinel = 1 := by simp [countOf]

/-- The sentinel is the last symbol and counts once. -/
theorem countsBelow_total (count : Vector Word 256) : countsBelow count 257 = countsBelow count 256 + 1 := by
  rw [countsBelow_succ, countOf_sentinel]

theorem runningSums_getElem (a : Nat) (cs : List Nat) (i : Nat) (h : i < (runningSums a cs).length) :
    (runningSums a cs)[i] = a + (cs.take i).sum := by
  induction cs generalizing a i with
  | nil =>
    cases i with
    | zero => rfl
    | succ i => simp [runningSums] at h
  | cons c cs ih =>
    cases i with
    | zero => simp [runningSums]
    | succ i => simp [runningSums, ih, Nat.add_assoc]

/-- The counts of all 257 symbols, in order. -/
theorem counts_eq_map_countOf (count : Vector Word 256) :
    count.toList.map BitVec.toNat ++ [1] = (List.range 257).map (countOf count) := by
  apply List.ext_getElem
  · simp
  · intro i hi _
    simp only [List.length_append, List.length_map, Vector.length_toList, List.length_cons, List.length_nil] at hi
    by_cases hb : i < 256
    · rw [List.getElem_append_left (by simpa using hb)]
      simp [countOf, hb]
    · rw [List.getElem_append_right (by simp; omega)]
      simp [countOf, hb]

theorem cumTable_getElem (count : Vector Word 256) (i : Nat) (h : i < 258) : (cumTable count)[i] = countsBelow count i := by
  simp only [cumTable, Vector.getElem_mk, List.getElem_toArray, runningSums_getElem, counts_eq_map_countOf]
  rw [← List.map_take, List.take_range, Nat.min_eq_left (by omega), Nat.zero_add, countsBelow]

theorem cumAt_eq_getElem (cum : Vector Nat 258) (i : Nat) (h : i < 258) : cumAt cum i = cum[i] := by simp [cumAt, h]

theorem cumAt_cumTable (count : Vector Word 256) (i : Nat) (h : i < 258) : cumAt (cumTable count) i = countsBelow count i := by
  rw [cumAt_eq_getElem _ _ h, cumTable_getElem]

/-- What sealing can do: the table within the budget, the given error above it, and nothing else (R104). -/
theorem sealTable_cases (w : Width) (count : Vector Word 256) (e : ErrCode) :
    (maxTotal w < countsBelow count 257 ∧ sealTable w count e = .error e)
    ∨ (countsBelow count 257 ≤ maxTotal w ∧ sealTable w count e = .ok (cumTable count)) := by
  have pos : (cumTable count)[257] ≠ 0 := by
    rw [cumTable_getElem, countsBelow_total]
    omega
  rw [← cumTable_getElem count 257 (by decide)]
  unfold sealTable
  rw [if_neg pos]
  by_cases h : (cumTable count)[257] > maxTotal w
  · exact .inl ⟨h, if_pos h⟩
  · exact .inr ⟨Nat.not_lt.mp h, if_neg h⟩

end Sys2Proof.Machine
end

