-- ==== Sys2Proof/Laws/PerInstr.lean ====
section
/-! SUPPORT. Facts about every command as syntax, made command by command: the fields of its word are its opcode, no
reserved bit, and its operands (30_encoding.md R70). -/

namespace Sys2Proof.Laws

theorem opField_cmdWord (op : BitVec 8) (sym : BitVec 9) (data : Word) : opField (cmdWord op sym data) = op := by
  ext i hi
  simp only [opField, cmdWord, BitVec.getElem_extractLsb', BitVec.getLsbD_append]
  rw [if_neg (by omega), if_neg (by omega), if_neg (by omega), show 56 + i - 32 - 9 - 15 = i from by omega,
    BitVec.getLsbD_eq_getElem hi]

theorem reservedField_cmdWord (op : BitVec 8) (sym : BitVec 9) (data : Word) :
    reservedField (cmdWord op sym data) = 0 := by
  ext i hi
  simp only [reservedField, cmdWord, BitVec.getElem_extractLsb', BitVec.getLsbD_append]
  rw [if_neg (by omega), if_neg (by omega), if_pos (by omega)]
  simp

theorem symField_cmdWord (op : BitVec 8) (sym : BitVec 9) (data : Word) : symField (cmdWord op sym data) = sym := by
  ext i hi
  simp only [symField, cmdWord, BitVec.getElem_extractLsb', BitVec.getLsbD_append]
  rw [if_neg (by omega), if_pos (by omega), show 32 + i - 32 = i from by omega, BitVec.getLsbD_eq_getElem hi]

theorem dataField_cmdWord (op : BitVec 8) (sym : BitVec 9) (data : Word) : dataField (cmdWord op sym data) = data := by
  ext i hi
  simp only [dataField, cmdWord, BitVec.getElem_extractLsb', BitVec.getLsbD_append]
  rw [if_pos (by omega), Nat.zero_add, BitVec.getLsbD_eq_getElem hi]

/-- A word is built from its fields when its reserved bits are 0. -/
theorem cmdWord_of_fields (w : Cmd) (h : reservedField w = 0) :
    cmdWord (opField w) (symField w) (dataField w) = w := by
  ext i hi
  have reserved : ∀ j, j < 15 → w.getLsbD (41 + j) = false := fun j hj => by
    have := congrArg (fun v => v.getLsbD j) h
    simpa [reservedField, hj] using this
  simp only [cmdWord, opField, symField, dataField, ← BitVec.getLsbD_eq_getElem hi, BitVec.getLsbD_append,
    BitVec.getLsbD_extractLsb']
  split
  · simp_all
  · split
    · rw [show 32 + (i - 32) = i from by omega]
      simp_all
    · split
      · have := reserved (i - 32 - 9) (by omega)
        rw [show 41 + (i - 32 - 9) = i from by omega] at this
        simp [this]
      · rw [show 56 + (i - 32 - 9 - 15) = i from by omega]
        simp
        omega

/-! ## EncodeFields: one lemma per command -/

namespace EncodeFields

def Statement (i : Instr) : Prop :=
  opField (encode i) = i.opcode ∧ reservedField (encode i) = 0 ∧ symField (encode i) = i.symOperand
    ∧ dataField (encode i) = i.dataOperand

theorem of_cmdWord (i : Instr) : Statement i :=
  ⟨opField_cmdWord _ _ _, reservedField_cmdWord _ _ _, symField_cmdWord _ _ _, dataField_cmdWord _ _ _⟩

theorem nop : Statement .nop := of_cmdWord _
theorem coreReset : Statement .coreReset := of_cmdWord _
theorem fmReset : Statement .fmReset := of_cmdWord _
theorem fmCount (byte : Byte) : Statement (.fmCount byte) := of_cmdWord _
theorem fmSetcount (sym : BitVec 9) (count : Word) : Statement (.fmSetcount sym count) := of_cmdWord _
theorem fmSeal (src : SealSource) : Statement (.fmSeal src) := of_cmdWord _
theorem fmGetcount (sym : BitVec 9) : Statement (.fmGetcount sym) := of_cmdWord _
theorem fmGetlow (sym : BitVec 9) : Statement (.fmGetlow sym) := of_cmdWord _
theorem fmGethigh (sym : BitVec 9) : Statement (.fmGethigh sym) := of_cmdWord _
theorem fmGettotal : Statement .fmGettotal := of_cmdWord _
theorem fmLookup (value : Word) : Statement (.fmLookup value) := of_cmdWord _
theorem fmWriteHeader : Statement .fmWriteHeader := of_cmdWord _
theorem fmReadHeader : Statement .fmReadHeader := of_cmdWord _
theorem bwWriteBit (bit : Bool) : Statement (.bwWriteBit bit) := of_cmdWord _
theorem bwWriteRawByte (byte : Byte) : Statement (.bwWriteRawByte byte) := of_cmdWord _
theorem bwFinalize : Statement .bwFinalize := of_cmdWord _
theorem brAttach (len : Word) : Statement (.brAttach len) := of_cmdWord _
theorem brReadBit : Statement .brReadBit := of_cmdWord _
theorem encInit : Statement .encInit := of_cmdWord _
theorem encUpdate (sym : BitVec 9) : Statement (.encUpdate sym) := of_cmdWord _
theorem encFinish : Statement .encFinish := of_cmdWord _
theorem decInit : Statement .decInit := of_cmdWord _
theorem decNext : Statement .decNext := of_cmdWord _

end EncodeFields

end Sys2Proof.Laws
end

