-- ==== Sys2Proof/Laws/Stream.lean ====
section
/-! SUPPORT. The coded bitstream as the decoder sees it: what the shifts still to come will send, with no bit deferred, and
the `W` bits of it that `DCODE` holds (42_encoder.md R182, 43_decoder.md R205). -/

namespace Sys2Proof.Machine

/-- The endless stream that shifts still to come, the final 1 and the padding make, with `ufc` bits deferred. -/
def streamBit (ufc : Nat) (xs : List Shift) (i : Nat) : Bool := ((codedBits ufc xs).1 ++ [true]).getD i false

/-- The number that bits `0` to `n − 1` of a stream spell. -/
def window (n : Nat) (stream : Nat → Bool) : Nat := bitsToNat ((List.range n).map stream)

/-! ## The stream -/

theorem streamBit_nil (ufc : Nat) (i : Nat) : streamBit ufc [] i = decide (i = 0) := by
  cases i <;> simp [streamBit, codedBits]

theorem streamBit_e3 (ufc : Nat) (xs : List Shift) (i : Nat) : streamBit ufc (.e3 :: xs) i = streamBit (ufc + 1) xs i := rfl

/-- The bits of an E1/E2 shift come first. -/
theorem codedBits_e12 (ufc : Nat) (b : Bool) (xs : List Shift) :
    (codedBits ufc (.e12 b :: xs)).1 ++ [true] = b :: List.replicate ufc (!b) ++ ((codedBits 0 xs).1 ++ [true]) := by
  simp [codedBits]

theorem streamBit_e12_zero (ufc : Nat) (b : Bool) (xs : List Shift) : streamBit ufc (.e12 b :: xs) 0 = b := by
  simp [streamBit, codedBits_e12]

theorem streamBit_e12_succ (b : Bool) (xs : List Shift) (i : Nat) :
    streamBit 0 (.e12 b :: xs) (i + 1) = streamBit 0 xs i := by
  simp [streamBit, codedBits_e12]

/-- One more deferred bit is one more bit in the second place, opposite to the first. -/
theorem streamBit_deferred (ufc : Nat) (xs : List Shift) :
    streamBit (ufc + 1) xs 0 = streamBit ufc xs 0 ∧ streamBit (ufc + 1) xs 1 = !streamBit ufc xs 0
      ∧ ∀ i, streamBit (ufc + 1) xs (i + 2) = streamBit ufc xs (i + 1) := by
  induction xs generalizing ufc with
  | nil => simp [streamBit_nil]
  | cons x xs ih =>
    cases x with
    | e3 => exact ih (ufc + 1)
    | e12 b => simp [streamBit, codedBits_e12, List.replicate_succ]

/-! ## Windows -/

theorem window_lt (n : Nat) (f : Nat → Bool) : window n f < 2 ^ n := by
  simpa [window] using bitsToNat_lt ((List.range n).map f)

/-- The first bit is the top bit. -/
theorem window_succ (n : Nat) (f : Nat → Bool) :
    window (n + 1) f = (f 0).toNat * 2 ^ n + window n (fun i => f (i + 1)) := by
  simp [window, List.range_succ_eq_map, bitsToNat, Function.comp_def]

theorem bitsToNat_append (xs ys : List Bool) : bitsToNat (xs ++ ys) = bitsToNat xs * 2 ^ ys.length + bitsToNat ys := by
  induction xs with
  | nil => simp [bitsToNat]
  | cons b xs ih =>
    simp only [List.cons_append, bitsToNat, ih, List.length_append, Nat.pow_add]
    ring

/-- The last bit is the low bit. -/
theorem window_succ_low (n : Nat) (f : Nat → Bool) : window (n + 1) f = 2 * window n f + (f n).toNat := by
  simp [window, List.range_succ, bitsToNat_append, bitsToNat]
  omega

theorem window_congr (n : Nat) (f g : Nat → Bool) (h : ∀ i, i < n → f i = g i) : window n f = window n g := by
  unfold window
  congr 1
  exact List.map_congr_left fun i hi => h i (List.mem_range.mp hi)

/-- Shifting the next bit in moves the window on by one: the E1/E2 transform of the code. -/
theorem shiftE12_window (w : Width) (f : Nat → Bool) :
    shiftE12 w (window w.bits f) (f w.bits) = window w.bits (fun i => f (i + 1)) := by
  obtain ⟨n, hn⟩ : ∃ n, w.bits = n + 1 := ⟨w.bits - 1, by have := w.two_le; omega⟩
  have half_eq : half w = 2 ^ n := by rw [half, hn, Nat.add_sub_cancel]
  have top := window_succ n f
  have rest := window_lt n (fun i => f (i + 1))
  rw [← hn] at top
  rw [shiftE12_eq, half_eq, top, Nat.mul_add_mod_self_right, Nat.mod_eq_of_lt rest]
  have next := window_succ_low n (fun i => f (i + 1))
  rw [← hn] at next
  rw [next, hn]

/-- Where the second bit is opposite to the first, the E3 transform of the code leaves the second bit out. -/
theorem shiftE3_window (w : Width) (f g : Nat → Bool) (first : g 0 = f 0) (second : f 1 = !f 0)
    (later : ∀ i, g (i + 1) = f (i + 2)) :
    quarter w ≤ window w.bits f ∧ window w.bits f < 3 * quarter w
      ∧ shiftE3 w (window w.bits f) (f w.bits) = window w.bits g := by
  obtain ⟨n, hn⟩ : ∃ n, w.bits = n + 2 := ⟨w.bits - 2, by have := w.two_le; omega⟩
  have hq : quarter w = 2 ^ n := by rw [quarter, hn, Nat.add_sub_cancel]
  have hh : half w = 2 * 2 ^ n := by rw [← two_mul_quarter, hq]
  have low := window_lt n (fun i => f (i + 2))
  have wf : window w.bits f = (f 0).toNat * (2 * 2 ^ n) + ((!f 0).toNat * 2 ^ n + window n (fun i => f (i + 2))) := by
    rw [hn, window_succ (n + 1), window_succ n, Nat.pow_succ, ← second]
    ring_nf
  have wg : window w.bits g = (f 0).toNat * (2 * 2 ^ n) + (2 * window n (fun i => f (i + 2)) + (f w.bits).toNat) := by
    have tail : window (n + 1) (fun i => g (i + 1)) = window (n + 1) (fun i => f (i + 2)) :=
      window_congr _ _ _ fun i _ => later i
    rw [hn, window_succ (n + 1), tail, window_succ_low n, first, Nat.pow_succ]
    ring_nf
  have mask_eq := mask_succ w
  have two := two_mul_half w
  rw [shiftE3_eq, xor_quarter, hh, hq, wf, wg]
  cases hf : f 0 with
  | true =>
    have second : secondBit w (window w.bits f) = false := by
      rw [secondBit_of_half_le w (by rw [wf, hf, hh]; simp) (by rw [wf, hf]; simp; omega), wf, hf, hq]
      simp
      omega
    rw [wf, hf] at second
    rw [second]
    simp only [Bool.not_true, Bool.toNat_true, Bool.toNat_false, Bool.false_eq_true, if_false]
    refine ⟨by omega, by omega, ?_⟩
    rw [show 1 * (2 * 2 ^ n) + (0 * 2 ^ n + window n (fun i => f (i + 2))) + 2 ^ n
      = 2 ^ n + window n (fun i => f (i + 2)) + 2 * 2 ^ n from by ring, Nat.add_mod_right, Nat.mod_eq_of_lt (by omega)]
    omega
  | false =>
    have second : secondBit w (window w.bits f) = true := by
      rw [secondBit_of_lt_half w (by rw [wf, hf, hh]; simp; omega), wf, hf, hq]
      simp
    rw [wf, hf] at second
    rw [second]
    simp only [Bool.not_false, Bool.toNat_true, Bool.toNat_false, if_true]
    refine ⟨by omega, by omega, ?_⟩
    rw [show 0 * (2 * 2 ^ n) + (1 * 2 ^ n + window n (fun i => f (i + 2))) - 2 ^ n = window n (fun i => f (i + 2))
      from by omega, Nat.mod_eq_of_lt (by omega)]
    omega

end Sys2Proof.Machine
end

