-- ==== Sys2Proof/Certificates/Slice0/Obligations.lean ====
section
/-! DEFINITION. The statements for the provers. Each says in its docstring which rule of the spec it formalises. -/

open Sys2Proof Sys2Proof.Machine

/-! ## Encoding (30_encoding.md) -/

/-- R70 to R75: every command, with every operand at every value its field can hold, is read back from its word. -/
def Obligations.DecodeOfEncodeGivesInstruction : Prop :=
  ∀ i : Instr, decode (encode i) = some i

/-- R74, R77: a legal word is the encoding of the one command it decodes to; no bit of it is ignored. -/
def Obligations.EncodeOfDecodeGivesWord : Prop :=
  ∀ (w : Cmd) (i : Instr), decode w = some i → encode i = w

/-- R73, R74: the decoder accepts exactly the words some row of spec/opcode_table.json matches, and reads the command of
that row; no word matches two rows. -/
def Obligations.DecoderReadsTheMatchingTableRow : Prop :=
  (∀ (w : Cmd) (r : OpcodeRow), r ∈ opcodeTable → w &&& r.mask = r.pat →
      ∃ i, decode w = some i ∧ i.mnemonic = r.mnemonic)
  ∧ (∀ (w : Cmd) (i : Instr), decode w = some i →
      ∃ r ∈ opcodeTable, w &&& r.mask = r.pat ∧ r.mnemonic = i.mnemonic)
  ∧ (∀ (w : Cmd) (r r' : OpcodeRow), r ∈ opcodeTable → r' ∈ opcodeTable → w &&& r.mask = r.pat →
      w &&& r'.mask = r'.pat → r = r')

/-- R82: the table of example encodings, row by row. -/
def Obligations.ExampleWordsDecodeAsTabled : Prop :=
  decode 0x0000000000000000 = some .nop
  ∧ decode 0x1100000000000061 = some (.fmCount 0x61)
  ∧ decode 0x1200006100000005 = some (.fmSetcount 0x61 5)
  ∧ decode 0x1300000000000000 = some (.fmSeal .built)
  ∧ decode 0x1300000000000001 = some (.fmSeal .header)
  ∧ decode 0x1600010000000000 = some (.fmGethigh 256)
  ∧ decode 0x180000000000000B = some (.fmLookup 11)
  ∧ decode 0x2000000000000001 = some (.bwWriteBit true)
  ∧ decode 0x2800000000000402 = some (.brAttach 1026)
  ∧ decode 0x3100007200000000 = some (.encUpdate 0x72)
  ∧ decode 0x3900000000000000 = some .decNext
  ∧ decode 0x3100010000000000 = some (.encUpdate 256)
  ∧ decode 0x1100000000000100 = none
  ∧ (∀ s : State, exec (.encUpdate 256) s = .next { s with err := .invalidSymbol, errOp := 0x31 })
  ∧ (∀ s : State, s.err = .noError →
      stepCommand 0x1100000000000100 s = .next { s with err := .illegalCommand, errOp := 0x11 })

/-- The bits of `DATA` each opcode uses (30_encoding.md R72). -/
def r72DataBits (op : BitVec 8) : Word :=
  if op = 0x11 ∨ op = 0x21 then 0xFF
  else if op = 0x13 ∨ op = 0x20 then 0x1
  else if op = 0x12 ∨ op = 0x18 ∨ op = 0x28 then 0xFFFFFFFF
  else 0

/-- The four cases of R74 in which a word is illegal: an opcode not in R73, a reserved bit set, `SYM` not 0 where R71 does not
use it, a `DATA` bit set that R72 does not list. -/
abbrev r74Illegal (w : Cmd) : Prop :=
  opField w ∉ [(0x00 : BitVec 8), 0x01, 0x10, 0x11, 0x12, 0x13, 0x14, 0x15, 0x16, 0x17, 0x18, 0x19, 0x1A, 0x20, 0x21,
      0x22, 0x28, 0x29, 0x30, 0x31, 0x32, 0x38, 0x39]
  ∨ reservedField w ≠ 0
  ∨ (opField w ∉ [(0x12 : BitVec 8), 0x14, 0x15, 0x16, 0x31] ∧ symField w ≠ 0)
  ∨ dataField w &&& ~~~ r72DataBits (opField w) ≠ 0

/-- R74: a word is illegal in exactly those four cases, which are exactly the words no row of the table matches; an
illegal word raises `ILLEGAL_COMMAND` without any other effect, and every other word is a command. The waiting word is
the model's form of R283's "issue a command word" (log 2). -/
def Obligations.IllegalWordsRaiseIllegalCommand : Prop :=
  (∀ w : Cmd, r74Illegal w ↔ ∀ r ∈ opcodeTable, w &&& r.mask ≠ r.pat)
  ∧ (∀ (s : State) (w : Cmd) (rest : List HostAction), s.queue = .command w :: rest → s.err = .noError →
      r74Illegal w →
      step s = .next { s with queue := rest, err := .illegalCommand, errOp := w.extractLsb' 56 8 })
  ∧ (∀ (s : State) (w : Cmd) (rest : List HostAction), s.queue = .command w :: rest → s.err = .noError →
      ¬ r74Illegal w → ∃ i, decode w = some i ∧ step s = exec i { s with queue := rest })

/-! ## Steps and errors (60_exceptions.md, 70_reset_and_hazards.md) -/

/-- R61, R242, R243: a command word from the host runs exactly its command's rule, on the state without that word.
It rests on the model's host queue (log 2). -/
def Obligations.StepRunsTheDecodedCommand : Prop :=
  ∀ (s : State) (w : Cmd) (i : Instr) (rest : List HostAction), s.queue = .command w :: rest → decode w = some i →
    (s.err = .noError ∨ w = 0x0100000000000000) → step s = exec i { s with queue := rest }

/-- R242: while `ERR ≠ 0`, every word but exactly `CORE_RESET`'s is refused: no state change, no access, `ERR` and
`ERR_OP` kept. The waiting word is the model's form of R283's "issue a command word" (log 2). -/
def Obligations.ErrorStateRefusesEveryOtherWord : Prop :=
  ∀ (s : State) (w : Cmd) (rest : List HostAction), s.queue = .command w :: rest → s.err ≠ .noError →
    (w ≠ 0x0100000000000000 → step s = .next { s with queue := rest })
    ∧ (w = 0x0100000000000000 → step s = exec .coreReset { s with queue := rest })

/-- R247: the error state ends only by `CORE_RESET` or the reset input, and each of them ends it. The waiting action
is the model's form of R283's host actions (log 2). -/
def Obligations.ErrorStateEndsOnlyByReset : Prop :=
  (∀ s t : State, s.err ≠ .noError → step s = .next t →
    (t.err = s.err ∧ t.errOp = s.errOp ∧ t.regs = s.regs)
    ∨ (t.err = .noError ∧ ∃ rest, s.queue = .command 0x0100000000000000 :: rest ∨ s.queue = .resetInput :: rest))
  ∧ (∀ (s : State) (rest : List HostAction),
      s.queue = .command 0x0100000000000000 :: rest ∨ s.queue = .resetInput :: rest →
      ∃ t, step s = .next t ∧ t.err = .noError ∧ t.errOp = 0)

/-- R240: every command ends, in every state, and with `ERR` still 0 or with an error latched under its opcode; the core never
stops. -/
def Obligations.EveryStepAnswersANextState : Prop :=
  (∀ s : State, ∃ t, step s = .next t)
  ∧ (∀ (i : Instr) (s : State), s.err = .noError → ∃ t, exec i s = .next t ∧ (t.err = .noError ∨ t.errOp = i.opcode))

/-- R244: every error but `IO_FAILURE` is precise: `ERR` and `ERR_OP` change, no other register does, nothing is
written to the sink; only an over-budget `FM_READ_HEADER` has read the source. The host queue, the list of answers and
the record of accesses are the model's (log 2, 4, 12). -/
def Obligations.PreciseErrorsChangeNothingElse : Prop :=
  ∀ (s t : State) (w : Cmd) (rest : List HostAction), s.queue = .command w :: rest → s.err = .noError →
    step s = .next t → t.err ≠ .noError → t.err ≠ .ioFailure →
    ∃ reads : List Nat,
      t = { s with
              queue := rest
              err := t.err
              errOp := w.extractLsb' 56 8
              draws := s.draws.drop reads.length
              history := s.history ++ reads.map fun i => .sourceRead i .success }
      ∧ (reads ≠ [] → decode w = some .fmReadHeader ∧ t.err = .corruptHeader)

/-- R245: an `IO_FAILURE` sets `ERR` and `ERR_OP` and leaves every other register but `CONFIG` unspecified (free
values, log 6); the sink holds every byte whose write succeeded before the failed access and nothing of that one. The
host queue, the list of answers and the record of accesses are the model's (log 2, 4, 12). -/
def Obligations.IoFailureKeepsOnlyLatchAndSink : Prop :=
  ∀ (s t : State) (w : Cmd) (rest : List HostAction), s.queue = .command w :: rest → s.err = .noError →
    step s = .next t → t.err = .ioFailure →
    ∃ (before : List IoEvent) (last : IoEvent),
      (∀ e ∈ before, e.answer = .success) ∧ last.answer = .failure
      ∧ t = { s with
                queue := rest
                err := .ioFailure
                errOp := w.extractLsb' 56 8
                regs := freeRegs s.freeCtr
                freeCtr := s.freeCtr + 1
                draws := s.draws.drop (before.length + 1)
                history := s.history ++ (before ++ [last])
                out := s.out ++ before.filterMap IoEvent.sunk }

/-- 00_scope.md R12, 20_memory.md R52, R61: every access of a command takes the environment's next answer, is recorded
in order, adds its byte to the sink exactly when it is a successful write, and a failed one ends the command with
`IO_FAILURE`. The list of answers and the record of accesses are the model's (log 4, 12). -/
def Obligations.EveryAccessTakesADraw : Prop :=
  ∀ (s t : State) (i : Instr), exec i s = .next t →
    ∃ es : List IoEvent,
      t.history = s.history ++ es ∧ t.draws = s.draws.drop es.length ∧ t.out = s.out ++ es.filterMap IoEvent.sunk
      ∧ (∀ k e, es[k]? = some e → e.answer = s.draws.getD k .success)
      ∧ ((∃ e ∈ es, e.answer = .failure) → t.err = .ioFailure ∧ t.errOp = i.opcode)

/-- 20_memory.md R52, 70_reset_and_hazards.md R270: no step, reset included, takes back or changes a byte of the sink. -/
def Obligations.SinkIsAppendOnly : Prop :=
  ∀ s t : State, step s = .next t → s.out <+: t.out ∧ s.history <+: t.history

/-- 20_memory.md R52: the core never reads the sink: from states that differ only in what the sink and the history
hold, a step does the same to everything else and adds the same bytes and events. The record of accesses is the
model's (log 12). -/
def Obligations.SinkContentsNeverInfluenceTheCore : Prop :=
  ∀ (s t : State) (sink : List Byte) (past : List IoEvent), step s = .next t →
    ∃ (bytes : List Byte) (events : List IoEvent),
      t.out = s.out ++ bytes ∧ t.history = s.history ++ events
      ∧ step { s with out := sink, history := past } =
          .next { t with out := sink ++ bytes, history := past ++ events }

/-- R105: while a coder is active, the five commands that change `COUNT` or `FM_STATE` raise `SEQUENCE_ERROR`. -/
def Obligations.ActiveCoderFreezesTheModel : Prop :=
  ∀ s : State, (s.regs.encState = .active ∨ s.regs.decState = .active) →
    exec .fmReset s = .next { s with err := .sequenceError, errOp := 0x10 }
    ∧ (∀ byte, exec (.fmCount byte) s = .next { s with err := .sequenceError, errOp := 0x11 })
    ∧ (∀ sym count, sym.toNat ≤ 255 →
        exec (.fmSetcount sym count) s = .next { s with err := .sequenceError, errOp := 0x12 })
    ∧ (∀ src, exec (.fmSeal src) s = .next { s with err := .sequenceError, errOp := 0x13 })
    ∧ exec .fmReadHeader s = .next { s with err := .sequenceError, errOp := 0x1A }

/-- 30_encoding.md R76: a symbol out of the command's range raises `INVALID_SYMBOL` in every state, before any state check, and
reaches no table; a symbol in range never does. -/
def Obligations.SymbolOutOfRangeIsInvalid : Prop :=
  ∀ (s : State) (sym : BitVec 9),
    (255 < sym.toNat →
      (∀ count, exec (.fmSetcount sym count) s = .next { s with err := .invalidSymbol, errOp := 0x12 })
      ∧ exec (.encUpdate sym) s = .next { s with err := .invalidSymbol, errOp := 0x31 })
    ∧ (256 < sym.toNat →
      exec (.fmGetcount sym) s = .next { s with err := .invalidSymbol, errOp := 0x14 }
      ∧ exec (.fmGetlow sym) s = .next { s with err := .invalidSymbol, errOp := 0x15 }
      ∧ exec (.fmGethigh sym) s = .next { s with err := .invalidSymbol, errOp := 0x16 })
    ∧ (sym.toNat ≤ 255 → s.err ≠ .invalidSymbol → ∀ t,
      ((∃ count, exec (.fmSetcount sym count) s = .next t) ∨ exec (.encUpdate sym) s = .next t) → t.err ≠ .invalidSymbol)
    ∧ (sym.toNat ≤ 256 → s.err ≠ .invalidSymbol → ∀ t,
      (exec (.fmGetcount sym) s = .next t ∨ exec (.fmGetlow sym) s = .next t ∨ exec (.fmGethigh sym) s = .next t) →
      t.err ≠ .invalidSymbol)

/-! ## Reset, status, port and host (10_state.md, 44_core_control.md, 70_reset_and_hazards.md) -/

/-- R230: `NOP` completes and leaves every register, and all else, unchanged. -/
def Obligations.NopChangesNothing : Prop := ∀ s : State, exec .nop s = .next s

/-- R270: `CORE_RESET` and the reset input set every register to its reset value, whatever the error state, touch
neither `CONFIG`, the sink nor the input array, and leave `STATUS` at 0x00008000. The waiting action is the model's
form of R283's host actions (log 2). -/
def Obligations.ResetSetsEveryRegister : Prop :=
  ∀ s : State, ∃ t : State,
    exec .coreReset s = .next t
    ∧ (∀ rest, s.queue = .resetInput :: rest → step s = .next { t with queue := rest })
    ∧ (∀ rest, s.queue = .command 0x0100000000000000 :: rest → step s = .next { t with queue := rest })
    ∧ t.err = .noError ∧ t.errOp = 0 ∧ t.regs.res = 0
    ∧ (∀ k, (h : k < 256) → t.regs.count[k] = 0) ∧ (∀ k, (h : k < 258) → t.regs.cum[k] = 0)
    ∧ t.regs.total = 0 ∧ t.regs.fmState = .openModel
    ∧ t.regs.acc = 0 ∧ t.regs.nacc = 0 ∧ t.regs.finBits = 0
    ∧ t.regs.brLen = 0 ∧ t.regs.rpos = 0
    ∧ t.regs.elow = 0 ∧ t.regs.ehigh.toNat = 2 ^ s.width.bits - 1 ∧ t.regs.ufc = 0 ∧ t.regs.encState = .idle
    ∧ t.regs.dlow = 0 ∧ t.regs.dhigh.toNat = 2 ^ s.width.bits - 1 ∧ t.regs.dcode = 0 ∧ t.regs.decState = .idle
    ∧ status t = 0x00008000
    ∧ t = { s with err := .noError, errOp := 0, regs := t.regs }

/-- R271, R24, R6: the model starts as reset leaves the core, at the default width 32. -/
def Obligations.ModelStartsInTheResetState : Prop :=
  exec .coreReset State.reset = .next State.reset ∧ status State.reset = 0x00008000
  ∧ configWord State.reset = 0x00000120 ∧ State.reset.width.bits = 32

/-- R24: the fields of `STATUS`, in every state; the field `ERR` shows each error by its number in R241 (60_exceptions.md). -/
def Obligations.StatusFieldsShowTheRegisters : Prop :=
  ∀ s : State,
    ((status s).extractLsb' 0 4 = 0 ↔ s.err = .noError)
    ∧ ((status s).extractLsb' 0 4 = 1 ↔ s.err = .ioFailure)
    ∧ ((status s).extractLsb' 0 4 = 2 ↔ s.err = .corruptHeader)
    ∧ ((status s).extractLsb' 0 4 = 3 ↔ s.err = .corruptModel)
    ∧ ((status s).extractLsb' 0 4 = 4 ↔ s.err = .precisionOverflow)
    ∧ ((status s).extractLsb' 0 4 = 5 ↔ s.err = .illegalCommand)
    ∧ ((status s).extractLsb' 0 4 = 6 ↔ s.err = .invalidSymbol)
    ∧ ((status s).extractLsb' 0 4 = 7 ↔ s.err = .sequenceError)
    ∧ ((status s).extractLsb' 0 4 = 8 ↔ s.err = .zeroFrequency)
    ∧ ((status s).extractLsb' 0 4 = 9 ↔ s.err = .misalignedRaw)
    ∧ ((status s).extractLsb' 0 4 = 10 ↔ s.err = .valueOutOfRange)
    ∧ (status s).extractLsb' 0 4 = s.err.code
    ∧ ((status s).getLsbD 4 = true ↔ s.regs.fmState = .ready)
    ∧ ((status s).extractLsb' 5 2 = 0 ↔ s.regs.encState = .idle)
    ∧ ((status s).extractLsb' 5 2 = 1 ↔ s.regs.encState = .active)
    ∧ ((status s).extractLsb' 5 2 = 2 ↔ s.regs.encState = .flushed)
    ∧ ((status s).extractLsb' 7 2 = 0 ↔ s.regs.decState = .idle)
    ∧ ((status s).extractLsb' 7 2 = 1 ↔ s.regs.decState = .active)
    ∧ ((status s).extractLsb' 7 2 = 2 ↔ s.regs.decState = .done)
    ∧ (status s).extractLsb' 9 3 = s.regs.nacc
    ∧ (status s).extractLsb' 12 3 = s.regs.finBits
    ∧ ((status s).getLsbD 15 = true ↔ s.regs.rpos = 8 * s.regs.brLen.toNat)
    ∧ (status s).extractLsb' 16 8 = 0
    ∧ (status s).extractLsb' 24 8 = s.errOp
    ∧ status State.reset = 0x00008000

/-- R23: the fields of `CONFIG`, and no step changes it. -/
def Obligations.ConfigIsAConstantOfItsFields : Prop :=
  (∀ s : State,
    ((configWord s).extractLsb' 0 6).toNat = s.width.bits ∧ 2 ≤ s.width.bits ∧ s.width.bits ≤ 32
    ∧ (configWord s).extractLsb' 6 2 = 0 ∧ (configWord s).extractLsb' 8 8 = 1
    ∧ (configWord s).extractLsb' 16 16 = 0)
  ∧ (∀ s t : State, step s = .next t → configWord t = configWord s)

/-- R25: a read of the register port answers `STATUS`, `RES`, `CONFIG` or 0 by its address, and has no side effect. It rests
on the model's host queue and list of port reads (log 2, log 13). -/
def Obligations.PortReadsHaveNoSideEffect : Prop :=
  ∀ (s : State) (addr : BitVec 4) (rest : List HostAction), s.queue = .readPort addr :: rest →
    ∃ value : Word,
      step s = .next { s with queue := rest, portReads := s.portReads ++ [(addr, value)] }
      ∧ (addr = 0 → value = status s) ∧ (addr = 1 → value = s.regs.res) ∧ (addr = 2 → value = configWord s)
      ∧ (3 ≤ addr.toNat → value = 0)

/-- R282, R283, 20_memory.md R53: with nothing from the host the core holds its state, and an array the host presents changes
nothing until `BR_ATTACH`, its bytes at their indices. It rests on the model's host queue (log 2) and source port (log 3). -/
def Obligations.IdleAndPresentKeepTheCore : Prop :=
  (∀ s : State, s.queue = [] → step s = .next s)
  ∧ (∀ (s : State) (bytes : List Byte) (rest : List HostAction), s.queue = .present bytes :: rest →
      ∃ m : Memory, step s = .next { s with queue := rest, presented := m } ∧ ∀ k, m.read k = bytes.getD k 0)

/-- R81, R22: only the seven commands of R81 and reset change `RES`, and a failing command does not (an `IO_FAILURE` leaves it
unspecified, R245). -/
def Obligations.OnlyListedCommandsWriteRes : Prop :=
  ∀ (i : Instr) (s t : State), exec i s = .next t → s.err = .noError → t.err ≠ .ioFailure → t.regs.res ≠ s.regs.res →
    i = .coreReset
    ∨ (t.err = .noError
        ∧ ((∃ sym, i = .fmGetcount sym ∨ i = .fmGetlow sym ∨ i = .fmGethigh sym) ∨ i = .fmGettotal
          ∨ (∃ v, i = .fmLookup v) ∨ i = .brReadBit ∨ i = .decNext))

/-- R29, R105: only a seal or a header read makes the model `READY`; `FM_RESET`, `FM_COUNT` and `FM_SETCOUNT` that complete
leave it `OPEN`; and, an `IO_FAILURE` apart, only these five commands and `CORE_RESET` change `FM_STATE`, `COUNT`, `CUM`
or `TOTAL`. That the others keep `CUM` and `TOTAL` while the model is `OPEN` is the model's choice (log 9): R28 lets any
value stand there then. -/
def Obligations.OnlySealsMakeTheModelReady : Prop :=
  ∀ (i : Instr) (s t : State), exec i s = .next t → s.err = .noError → t.err ≠ .ioFailure →
    (s.regs.fmState = .openModel → t.regs.fmState = .ready →
      (∃ src, i = .fmSeal src) ∨ i = .fmReadHeader)
    ∧ ((i = .fmReset ∨ (∃ b, i = .fmCount b) ∨ (∃ sym c, i = .fmSetcount sym c)) → t.err = .noError →
        t.regs.fmState = .openModel)
    ∧ (i ≠ .coreReset → i ≠ .fmReset → (∀ b, i ≠ .fmCount b) → (∀ sym c, i ≠ .fmSetcount sym c) →
        (∀ src, i ≠ .fmSeal src) → i ≠ .fmReadHeader →
        t.regs.fmState = s.regs.fmState ∧ t.regs.count = s.regs.count ∧ t.regs.cum = s.regs.cum
        ∧ t.regs.total = s.regs.total)

/-! ## Frequency model (40_frequency_model.md) -/

/-- R102: the properties of every cumulative table. The spec marks R102 as derived from R101. -/
def Obligations.CumulativeTableProperties : Prop :=
  ∀ count : Vector Word 256,
    (cumTable count)[0] = 0
    ∧ (∀ i, (h : i < 258) → (cumTable count)[i] = countsBelow count i)
    ∧ (∀ i, (h : i < 257) → (cumTable count)[i] ≤ (cumTable count)[i + 1])
    ∧ (cumTable count)[257] - (cumTable count)[256] = 1
    ∧ (∀ s, (h : s < 257) → ((cumTable count)[s] = (cumTable count)[s + 1] ↔ countOf count s = 0))
    ∧ (∀ v, v < (cumTable count)[257] →
        ∃ s, (∃ h : s < 257, (cumTable count)[s] ≤ v ∧ v < (cumTable count)[s + 1])
          ∧ ∀ s', (h : s' < 257) → (cumTable count)[s'] ≤ v → v < (cumTable count)[s' + 1] → s' = s)
    ∧ (cumTable count)[257] ≤ 256 * (2 ^ 32 - 1) + 1

/-- R103: while `READY`, the lookup of a value below `TOTAL` is the one symbol in 0..256 whose sub-interval `[CUM[s], CUM[s+1])` holds
it, and that symbol's count is at least 1. The premise `modelSealed` is the part of the invariant that R28 states. -/
def Obligations.LookupFindsTheSubinterval : Prop :=
  ∀ (w : Width) (r : Regs) (value : Nat), r.modelSealed w → r.fmState = .ready → value < r.total →
    let sym := lookup r.cum value
    sym ≤ 256 ∧ cumAt r.cum sym ≤ value ∧ value < cumAt r.cum (sym + 1) ∧ 1 ≤ countOf r.count sym
    ∧ ∀ s, s ≤ 256 → cumAt r.cum s ≤ value → value < cumAt r.cum (s + 1) → s = sym

/-- R110: `FM_RESET` clears every count and opens the model, and nothing else changes; `SEQUENCE_ERROR` while a coder is active. -/
def Obligations.FmResetClearsEveryCount : Prop :=
  ∀ s : State,
    (s.regs.encState ≠ .active → s.regs.decState ≠ .active →
      ∃ t, exec .fmReset s = .next t ∧ (∀ k, (h : k < 256) → t.regs.count[k] = 0)
        ∧ t = { s with regs := { s.regs with count := t.regs.count, fmState := .openModel } })
    ∧ ((s.regs.encState = .active ∨ s.regs.decState = .active) →
      exec .fmReset s = .next { s with err := .sequenceError, errOp := 0x10 })

/-- R111: `FM_COUNT` adds one to its byte's count, saturating at 2^32 − 1, opens the model, and changes nothing else.
That `CUM` and `TOTAL` are kept is the model's choice (log 9): R28 lets any value stand there while the model is
`OPEN`. -/
def Obligations.FmCountAddsOneSaturating : Prop :=
  ∀ (s : State) (byte : Byte),
    (s.regs.encState ≠ .active → s.regs.decState ≠ .active →
      ∃ t, exec (.fmCount byte) s = .next t
        ∧ t.regs.count[byte.toNat].toNat = min (s.regs.count[byte.toNat].toNat + 1) (2 ^ 32 - 1)
        ∧ (∀ k, (h : k < 256) → k ≠ byte.toNat → t.regs.count[k] = s.regs.count[k])
        ∧ t = { s with regs := { s.regs with count := t.regs.count, fmState := .openModel } })
    ∧ ((s.regs.encState = .active ∨ s.regs.decState = .active) →
      exec (.fmCount byte) s = .next { s with err := .sequenceError, errOp := 0x11 })

/-- R112: `FM_SETCOUNT` writes one count, opens the model, and changes nothing else; its errors in order. That `CUM`
and `TOTAL` are kept is the model's choice (log 9): R28 lets any value stand there while the model is `OPEN`. -/
def Obligations.FmSetcountWritesOneCount : Prop :=
  ∀ (s : State) (sym : BitVec 9) (count : Word),
    (255 < sym.toNat → exec (.fmSetcount sym count) s = .next { s with err := .invalidSymbol, errOp := 0x12 })
    ∧ (sym.toNat ≤ 255 → (s.regs.encState = .active ∨ s.regs.decState = .active) →
      exec (.fmSetcount sym count) s = .next { s with err := .sequenceError, errOp := 0x12 })
    ∧ (sym.toNat ≤ 255 → s.regs.encState ≠ .active → s.regs.decState ≠ .active →
      ∃ t, exec (.fmSetcount sym count) s = .next t
        ∧ (∀ k, (h : k < 256) → t.regs.count[k] = if k = sym.toNat then count else s.regs.count[k])
        ∧ t = { s with regs := { s.regs with count := t.regs.count, fmState := .openModel } })

/-- R113: `FM_SEAL` of a total within `MAX_TOTAL = 2^(W−2)` builds the cumulative table and makes the model `READY`; a larger total
raises `PRECISION_OVERFLOW` (built) or `CORRUPT_MODEL` (loaded); the total is never 0. -/
def Obligations.FmSealValidatesAndBuildsTheTable : Prop :=
  ∀ (s : State) (src : SealSource),
    1 ≤ countsBelow s.regs.count 257
    ∧ ((s.regs.encState = .active ∨ s.regs.decState = .active) →
      exec (.fmSeal src) s = .next { s with err := .sequenceError, errOp := 0x13 })
    ∧ (s.regs.encState ≠ .active → s.regs.decState ≠ .active →
      2 ^ (s.width.bits - 2) < countsBelow s.regs.count 257 →
      (src = .built → exec (.fmSeal src) s = .next { s with err := .precisionOverflow, errOp := 0x13 })
      ∧ (src = .header → exec (.fmSeal src) s = .next { s with err := .corruptModel, errOp := 0x13 }))
    ∧ (s.regs.encState ≠ .active → s.regs.decState ≠ .active →
      countsBelow s.regs.count 257 ≤ 2 ^ (s.width.bits - 2) →
      ∃ t, exec (.fmSeal src) s = .next t
        ∧ (∀ k, (h : k < 258) → t.regs.cum[k] = countsBelow s.regs.count k)
        ∧ t = { s with regs := { s.regs with
                  cum := t.regs.cum, total := countsBelow s.regs.count 257, fmState := .ready } })

/-- R114: `FM_GETCOUNT` puts a symbol's count in `RES`, 1 for the sentinel, in every state; nothing else changes. -/
def Obligations.FmGetcountReadsTheCount : Prop :=
  ∀ (s : State) (sym : BitVec 9),
    (256 < sym.toNat → exec (.fmGetcount sym) s = .next { s with err := .invalidSymbol, errOp := 0x14 })
    ∧ (sym.toNat = 256 → exec (.fmGetcount sym) s = .next { s with regs := { s.regs with res := 1 } })
    ∧ ((h : sym.toNat < 256) →
      exec (.fmGetcount sym) s = .next { s with regs := { s.regs with res := s.regs.count[sym.toNat] } })

/-- R115, R116, R117: the getters of a `READY` model put `CUM[sym]`, `CUM[sym+1]` and `TOTAL` in `RES` and change nothing else; on an
`OPEN` one they raise `SEQUENCE_ERROR`, after the range check. -/
def Obligations.CumulativeGettersReadTheTable : Prop :=
  ∀ (s : State) (sym : BitVec 9),
    (256 < sym.toNat →
      exec (.fmGetlow sym) s = .next { s with err := .invalidSymbol, errOp := 0x15 }
      ∧ exec (.fmGethigh sym) s = .next { s with err := .invalidSymbol, errOp := 0x16 })
    ∧ (s.regs.fmState = .openModel →
      (sym.toNat ≤ 256 →
        exec (.fmGetlow sym) s = .next { s with err := .sequenceError, errOp := 0x15 }
        ∧ exec (.fmGethigh sym) s = .next { s with err := .sequenceError, errOp := 0x16 })
      ∧ exec .fmGettotal s = .next { s with err := .sequenceError, errOp := 0x17 })
    ∧ (s.regs.fmState = .ready →
      ((h : sym.toNat ≤ 256) →
        exec (.fmGetlow sym) s =
            .next { s with regs := { s.regs with res := BitVec.ofNat 32 (s.regs.cum[sym.toNat]) } }
        ∧ exec (.fmGethigh sym) s =
            .next { s with regs := { s.regs with res := BitVec.ofNat 32 (s.regs.cum[sym.toNat + 1]) } })
      ∧ exec .fmGettotal s = .next { s with regs := { s.regs with res := BitVec.ofNat 32 s.regs.total } })

/-- R28, R115 to R117: on a sealed model no value the getters read is cut off by the 32 bits of `RES`, and the corner cases hold:
`FM_GETLOW 0` is 0, `FM_GETLOW 256` is `TOTAL − 1`, `FM_GETHIGH 256` is `TOTAL`. -/
def Obligations.SealedGettersAreExact : Prop :=
  ∀ (s : State), s.regs.fmState = .ready → s.regs.modelSealed s.width →
    (∀ sym : BitVec 9, sym.toNat ≤ 256 →
      ∃ t u, exec (.fmGetlow sym) s = .next t ∧ t.regs.res.toNat = countsBelow s.regs.count sym.toNat
        ∧ exec (.fmGethigh sym) s = .next u ∧ u.regs.res.toNat = countsBelow s.regs.count (sym.toNat + 1)
        ∧ (sym = 0 → t.regs.res = 0)
        ∧ (sym.toNat = 256 → t.regs.res.toNat = s.regs.total - 1 ∧ u.regs.res.toNat = s.regs.total))
    ∧ (∃ t, exec .fmGettotal s = .next t ∧ t.regs.res.toNat = countsBelow s.regs.count 257)

/-- R118: `FM_LOOKUP` puts the symbol whose sub-interval holds the value in `RES` and changes nothing else; its errors in order. The
model is sealed, as it is in every state a run reaches while `READY`. -/
def Obligations.FmLookupAnswersTheSymbol : Prop :=
  ∀ (s : State) (value : Word),
    (s.regs.fmState = .openModel → exec (.fmLookup value) s = .next { s with err := .sequenceError, errOp := 0x18 })
    ∧ (s.regs.fmState = .ready → s.regs.total ≤ value.toNat →
      exec (.fmLookup value) s = .next { s with err := .valueOutOfRange, errOp := 0x18 })
    ∧ (s.regs.fmState = .ready → value.toNat < s.regs.total → s.regs.modelSealed s.width →
      ∃ t, exec (.fmLookup value) s = .next t
        ∧ t.regs.res.toNat ≤ 256
        ∧ countsBelow s.regs.count t.regs.res.toNat ≤ value.toNat
        ∧ value.toNat < countsBelow s.regs.count (t.regs.res.toNat + 1)
        ∧ (value.toNat + 1 = s.regs.total → t.regs.res = 256)
        ∧ t = { s with regs := { s.regs with res := t.regs.res } })

/-- R119, R55: `FM_WRITE_HEADER` sends the 1024 bytes of the 256 counts, each big-endian, in symbol order, and changes
no register; its errors in order. When the environment's answers hold a failure among those it needs, it ends in
`IO_FAILURE` at the first one, the bytes before it in the sink (R245). That the environment answers with success is
said of the model's list of answers (log 4). -/
def Obligations.FmWriteHeaderSendsBigEndianCounts : Prop :=
  ∀ s : State,
    ((s.regs.fmState = .openModel ∨ s.regs.encState = .active) →
      exec .fmWriteHeader s = .next { s with err := .sequenceError, errOp := 0x19 })
    ∧ (s.regs.fmState = .ready → s.regs.encState ≠ .active → s.regs.nacc ≠ 0 →
      exec .fmWriteHeader s = .next { s with err := .misalignedRaw, errOp := 0x19 })
    ∧ (s.regs.fmState = .ready → s.regs.encState ≠ .active → s.regs.nacc = 0 →
      ∃ bytes : List Byte, bytes.length = 1024
        ∧ (∀ k, (h : k < 256) →
          bytes[4 * k]? = some (s.regs.count[k].extractLsb' 24 8)
          ∧ bytes[4 * k + 1]? = some (s.regs.count[k].extractLsb' 16 8)
          ∧ bytes[4 * k + 2]? = some (s.regs.count[k].extractLsb' 8 8)
          ∧ bytes[4 * k + 3]? = some (s.regs.count[k].extractLsb' 0 8))
        ∧ (s.grants 1024 → exec .fmWriteHeader s = .next (s.afterWrites bytes))
        ∧ (¬ s.grants 1024 →
          ∃ k t, k < 1024 ∧ s.grants k ∧ s.draws[k]? = some .failure ∧ exec .fmWriteHeader s = .next t
            ∧ t.err = .ioFailure ∧ t.errOp = 0x19 ∧ t.out = s.out ++ bytes.take k))

/-- R120: `FM_READ_HEADER` reads 256 big-endian counts from the byte `RPOS` stands on, in order, and commits counts,
table, total, `READY` and `RPOS + 8192` together, or raises and commits none of it; its errors in order. When the
environment's answers hold a failure among those it needs, it ends in `IO_FAILURE` and the sink stays as it was
(R245). That the environment answers with success is said of the model's list of answers (log 4). -/
def Obligations.FmReadHeaderLoadsAndSeals : Prop :=
  ∀ (s : State) (counts : Vector Word 256),
    (∀ k, (h : k < 256) → counts[k] =
      s.input.read (s.regs.rpos / 8 + 4 * k) ++ s.input.read (s.regs.rpos / 8 + 4 * k + 1)
        ++ s.input.read (s.regs.rpos / 8 + 4 * k + 2) ++ s.input.read (s.regs.rpos / 8 + 4 * k + 3)) →
    ((s.regs.encState = .active ∨ s.regs.decState = .active) →
      exec .fmReadHeader s = .next { s with err := .sequenceError, errOp := 0x1A })
    ∧ (s.regs.encState ≠ .active → s.regs.decState ≠ .active →
      (s.regs.rpos % 8 ≠ 0 → exec .fmReadHeader s = .next { s with err := .misalignedRaw, errOp := 0x1A })
      ∧ (s.regs.rpos % 8 = 0 → s.regs.brLen.toNat < s.regs.rpos / 8 + 1024 →
        exec .fmReadHeader s = .next { s with err := .corruptHeader, errOp := 0x1A })
      ∧ (s.regs.rpos % 8 = 0 → s.regs.rpos / 8 + 1024 ≤ s.regs.brLen.toNat → ¬ s.grants 1024 →
        ∃ t, exec .fmReadHeader s = .next t ∧ t.err = .ioFailure ∧ t.errOp = 0x1A ∧ t.out = s.out)
      ∧ (s.regs.rpos % 8 = 0 → s.regs.rpos / 8 + 1024 ≤ s.regs.brLen.toNat → s.grants 1024 →
        (2 ^ (s.width.bits - 2) < countsBelow counts 257 →
          exec .fmReadHeader s =
            .next { s.afterReads ((List.range 1024).map (s.regs.rpos / 8 + ·)) with
                      err := .corruptHeader, errOp := 0x1A })
        ∧ (countsBelow counts 257 ≤ 2 ^ (s.width.bits - 2) →
          ∃ table : Vector Nat 258, (∀ k, (h : k < 258) → table[k] = countsBelow counts k)
            ∧ exec .fmReadHeader s =
              .next { s.afterReads ((List.range 1024).map (s.regs.rpos / 8 + ·)) with
                        regs := { s.regs with
                          count := counts, cum := table, total := countsBelow counts 257, fmState := .ready
                          rpos := s.regs.rpos + 8192 } })))

/-- R120, R280, R55: a header written by `FM_WRITE_HEADER` and read back by `FM_READ_HEADER` of any core of the same
width gives the identical counts and cumulative table. That the environment answers with success is said of the
model's list of answers (log 4). -/
def Obligations.HeaderReadBackGivesTheSameModel : Prop :=
  ∀ (a b : State) (body : List Byte),
    a.regs.fmState = .ready → a.regs.encState ≠ .active → a.regs.nacc = 0 → a.grants 1024 → a.regs.modelSealed a.width →
    b.width = a.width → b.regs.encState ≠ .active → b.regs.decState ≠ .active → b.regs.rpos = 0 →
    1024 ≤ b.regs.brLen.toNat → b.grants 1024 →
    ∃ (a' b' : State) (bytes : List Byte), exec .fmWriteHeader a = .next a' ∧ a'.out = a.out ++ bytes ∧
      (b.input = Memory.ofBytes (bytes ++ body) →
        exec .fmReadHeader b = .next b' ∧ b'.regs.count = a.regs.count ∧ b'.regs.cum = a.regs.cum
        ∧ b'.regs.total = a.regs.total ∧ b'.regs.fmState = .ready ∧ b'.regs.rpos = 8192)

/-! ## Bit packer (41_bit_packer.md) -/

/-- R150, R140: `BW_WRITE_BIT` shifts its bit into the accumulator; the eighth goes to the sink with the rest. Nothing
else changes; `SEQUENCE_ERROR` while an encode is active; `IO_FAILURE` when the sink fails. That the environment
answers with success is said of the model's list of answers (log 4). -/
def Obligations.BwWriteBitFillsTheAccumulator : Prop :=
  ∀ (s : State) (bit : Bool),
    (s.regs.encState = .active → exec (.bwWriteBit bit) s = .next { s with err := .sequenceError, errOp := 0x20 })
    ∧ (s.regs.encState ≠ .active → s.regs.nacc ≠ 7 →
      exec (.bwWriteBit bit) s =
        .next { s with regs := { s.regs with
                  acc := (s.regs.acc <<< 1) ||| (if bit then 1 else 0), nacc := s.regs.nacc + 1 } })
    ∧ (s.regs.encState ≠ .active → s.regs.nacc = 7 → s.grants 1 →
      exec (.bwWriteBit bit) s =
        .next { s.afterWrites [(s.regs.acc <<< 1) ||| (if bit then 1 else 0)] with
                  regs := { s.regs with acc := 0, nacc := 0 } })
    ∧ (s.regs.encState ≠ .active → s.regs.nacc = 7 → ¬ s.grants 1 →
      ∃ t, exec (.bwWriteBit bit) s = .next t ∧ t.err = .ioFailure ∧ t.errOp = 0x20 ∧ t.out = s.out)

/-- 20_memory.md R54, R140: bits are packed most significant first: each bit written is the next bit of the stream that the sink's
bytes, read bit 7 first, and the pending bits spell. -/
def Obligations.WrittenBitsFormTheStreamMsbFirst : Prop :=
  ∀ (s t : State) (bit : Bool), exec (.bwWriteBit bit) s = .next t → s.err = .noError → t.err = .noError →
    t.writtenBits = s.writtenBits ++ [bit]

/-- R151, R141, 20_memory.md R58: `BW_WRITE_RAW_BYTE` sends its byte past an empty accumulator and changes no
register; its errors in order. That the environment answers with success is said of the model's list of answers (log
4). -/
def Obligations.BwWriteRawByteBypassesTheAccumulator : Prop :=
  ∀ (s : State) (byte : Byte),
    (s.regs.encState = .active →
      exec (.bwWriteRawByte byte) s = .next { s with err := .sequenceError, errOp := 0x21 })
    ∧ (s.regs.encState ≠ .active → s.regs.nacc ≠ 0 →
      exec (.bwWriteRawByte byte) s = .next { s with err := .misalignedRaw, errOp := 0x21 })
    ∧ (s.regs.encState ≠ .active → s.regs.nacc = 0 → s.grants 1 →
      exec (.bwWriteRawByte byte) s = .next (s.afterWrites [byte]))
    ∧ (s.regs.encState ≠ .active → s.regs.nacc = 0 → ¬ s.grants 1 →
      ∃ t, exec (.bwWriteRawByte byte) s = .next t ∧ t.err = .ioFailure ∧ t.errOp = 0x21 ∧ t.out = s.out)

/-- R152: `BW_FINALIZE` sends the partial byte, its pending bits first and 0 bits after them, records how many were
valid, and empties the accumulator; with none pending it writes nothing and records 0. That the environment answers
with success is said of the model's list of answers (log 4). -/
def Obligations.BwFinalizePadsWithZeros : Prop :=
  ∀ s : State,
    (s.regs.encState = .active → exec .bwFinalize s = .next { s with err := .sequenceError, errOp := 0x22 })
    ∧ (s.regs.encState ≠ .active → s.regs.nacc = 0 →
      exec .bwFinalize s = .next { s with regs := { s.regs with finBits := 0 } })
    ∧ (s.regs.encState ≠ .active → s.regs.nacc ≠ 0 → s.grants 1 →
      ∃ byte : Byte,
        exec .bwFinalize s =
          .next { s.afterWrites [byte] with regs := { s.regs with finBits := s.regs.nacc, acc := 0, nacc := 0 } }
        ∧ bitsMsbFirst byte = s.regs.pendingBits ++ List.replicate (8 - s.regs.nacc.toNat) false)
    ∧ (s.regs.encState ≠ .active → s.regs.nacc ≠ 0 → ¬ s.grants 1 →
      ∃ t, exec .bwFinalize s = .next t ∧ t.err = .ioFailure ∧ t.errOp = 0x22 ∧ t.out = s.out)

/-- R153: `BR_ATTACH` attaches the presented array's first `len` bytes and rewinds; nothing else changes. It rests on the model's source
port (log 3). -/
def Obligations.BrAttachRewindsToTheNewInput : Prop :=
  ∀ (s : State) (len : Word),
    (s.regs.decState = .active → exec (.brAttach len) s = .next { s with err := .sequenceError, errOp := 0x28 })
    ∧ (s.regs.decState ≠ .active →
      ∃ m : Memory,
        exec (.brAttach len) s =
          .next { s with input := m, regs := { s.regs with brLen := len, rpos := 0 } }
        ∧ ∀ k, k < len.toNat → m.read k = s.presented.read k)

/-- R154, R142: `BR_READ_BIT` puts bit `7 − RPOS mod 8` of byte `RPOS/8` in `RES` and advances `RPOS`; at the end it
puts 0 and `RPOS` stays; nothing else changes. That the environment answers with success is said of the model's list
of answers (log 4); one source read for each bit is the model's choice (log 5). -/
def Obligations.BrReadBitReadsMsbFirst : Prop :=
  ∀ s : State,
    (s.regs.decState = .active → exec .brReadBit s = .next { s with err := .sequenceError, errOp := 0x29 })
    ∧ (s.regs.decState ≠ .active → s.regs.rpos < 8 * s.regs.brLen.toNat → s.grants 1 →
      exec .brReadBit s =
        .next { s.afterReads [s.regs.rpos / 8] with
                  regs := { s.regs with
                    res := if (s.input.read (s.regs.rpos / 8)).getLsbD (7 - s.regs.rpos % 8) then 1 else 0
                    rpos := s.regs.rpos + 1 } })
    ∧ (s.regs.decState ≠ .active → 8 * s.regs.brLen.toNat ≤ s.regs.rpos →
      exec .brReadBit s = .next { s with regs := { s.regs with res := 0 } })
    ∧ (s.regs.decState ≠ .active → s.regs.rpos < 8 * s.regs.brLen.toNat → ¬ s.grants 1 →
      ∃ t, exec .brReadBit s = .next t ∧ t.err = .ioFailure ∧ t.errOp = 0x29 ∧ t.out = s.out)

/-! ## Interval algebra (42_encoder.md, 43_decoder.md) -/

/-- R171: narrowing to a symbol with a nonzero count, of an interval at least as wide as the total, gives a non-empty
part of it; the parts of successive symbols adjoin, and the first and last reach the interval's ends. The spec marks
the non-empty part as derived (R171). -/
def Obligations.NarrowGivesAdjoiningSubintervals : Prop :=
  ∀ (count : Vector Word 256) (iv : Interval), iv.low ≤ iv.high → countsBelow count 257 ≤ iv.range →
    let narrowTo := narrow (cumTable count) (countsBelow count 257) iv
    (∀ s, s ≤ 256 → 1 ≤ countOf count s →
      iv.low ≤ (narrowTo s).low ∧ (narrowTo s).low ≤ (narrowTo s).high ∧ (narrowTo s).high ≤ iv.high)
    ∧ (∀ s, s < 256 → 1 ≤ countOf count s → (narrowTo s).high + 1 = (narrowTo (s + 1)).low)
    ∧ (narrowTo 0).low = iv.low ∧ (narrowTo 256).high = iv.high

/-- R172, R173: `E12` says that the top bits agree, that is `((low xor high) & HALF) = 0`; `E3` says that `low[W−2] = 1` and `high[W−2] = 0`,
and once `E12` is false it means `QUARTER ≤ low < HALF ≤ high < 3·QUARTER`. -/
def Obligations.ShiftConditionsByPosition : Prop :=
  ∀ (w : Width) (iv : Interval), iv.legal w →
    (iv.e12 w = true ↔ iv.low.testBit (w.bits - 1) = iv.high.testBit (w.bits - 1))
    ∧ (iv.e12 w = true ↔ (iv.low ^^^ iv.high) &&& 2 ^ (w.bits - 1) = 0)
    ∧ (iv.e3 w = true ↔ iv.low.testBit (w.bits - 2) = true ∧ iv.high.testBit (w.bits - 2) = false)
    ∧ (iv.e12 w = false →
        iv.low.testBit (w.bits - 1) = false ∧ iv.high.testBit (w.bits - 1) = true
        ∧ (iv.e3 w = true ↔
            2 ^ (w.bits - 2) ≤ iv.low ∧ iv.low < 2 ^ (w.bits - 1) ∧ 2 ^ (w.bits - 1) ≤ iv.high
            ∧ iv.high < 3 * 2 ^ (w.bits - 2)))

/-- R174, R203: the arithmetic readings of the shifts, for the bounds and for the code that lies between them; an E3
shift leaves the top bits 0 and 1, and equals the masked shift followed by `xor HALF`. The spec marks the readings of
R174 as derived. -/
def Obligations.ShiftsAreDoublings : Prop :=
  ∀ (w : Width) (iv : Interval) (code : Nat) (b : Bool), iv.legal w → iv.low ≤ code → code ≤ iv.high →
    (iv.e12 w = true →
      (iv.shiftE12 w).low + (msb w iv.low).toNat * 2 ^ w.bits = 2 * iv.low
      ∧ (iv.shiftE12 w).high + (msb w iv.high).toNat * 2 ^ w.bits = 2 * iv.high + 1
      ∧ shiftE12 w code b + (msb w iv.low).toNat * 2 ^ w.bits = 2 * code + b.toNat)
    ∧ (iv.e12 w = false → iv.e3 w = true →
      (iv.shiftE3 w).low = 2 * (iv.low - 2 ^ (w.bits - 2))
      ∧ (iv.shiftE3 w).high = 2 * (iv.high - 2 ^ (w.bits - 2)) + 1
      ∧ shiftE3 w code b = 2 * (code - 2 ^ (w.bits - 2)) + b.toNat
      ∧ msb w (iv.shiftE3 w).low = false ∧ msb w (iv.shiftE3 w).high = true)
    ∧ (shiftE3 w code b = shiftE12 w code b ^^^ 2 ^ (w.bits - 1))

/-- R178, R179: from any interval, both loops end within `W` shifts, at most `W − 1` of them E3; the interval left is
legal, neither condition holds of it, and it is at least `QUARTER + 2` wide. The spec marks both rules as derived. -/
def Obligations.RenormalisationEndsWithinW : Prop :=
  ∀ (w : Width) (iv : Interval), iv.legal w →
    let shifts := (renorm w iv).1
    let final := (renorm w iv).2
    shifts.length ≤ w.bits ∧ (shifts.filter (· == .e3)).length ≤ w.bits - 1
    ∧ final.legal w ∧ final.e12 w = false ∧ final.e3 w = false ∧ 2 ^ (w.bits - 2) + 2 ≤ final.range

/-- R200, R201: with the code inside an interval at least as wide as the total, `DecValue` is below the total and the
symbol it looks up is the one whose sub-interval holds the code. The spec marks the bound of R200 as derived. -/
def Obligations.DecoderFindsTheSubintervalOfItsCode : Prop :=
  ∀ (count : Vector Word 256) (iv : Interval) (code : Nat), iv.low ≤ code → code ≤ iv.high →
    countsBelow count 257 ≤ iv.range →
    let total := countsBelow count 257
    let value := decValue total iv code
    value < total
    ∧ (∀ s, s ≤ 256 → 1 ≤ countOf count s →
        (lookup (cumTable count) value = s ↔
          (narrow (cumTable count) total iv s).low ≤ code ∧ code ≤ (narrow (cumTable count) total iv s).high))

/-! ## Encoder and decoder commands -/

/-- R180: `ENC_INIT` starts an encode on the full interval; nothing else changes; `SEQUENCE_ERROR` on an `OPEN` model or an active
encode. -/
def Obligations.EncInitStartsOnTheFullInterval : Prop :=
  ∀ s : State,
    ((s.regs.fmState = .openModel ∨ s.regs.encState = .active) →
      exec .encInit s = .next { s with err := .sequenceError, errOp := 0x30 })
    ∧ (s.regs.fmState = .ready → s.regs.encState ≠ .active →
      exec .encInit s =
        .next { s with regs := { s.regs with
                  elow := 0, ehigh := BitVec.ofNat 32 (2 ^ s.width.bits - 1), ufc := 0, encState := .active } })

/-- R181, R175 to R177: `ENC_UPDATE` narrows to its symbol, renormalises, and sends the converged bits, each followed
by the deferred opposite ones, in order; nothing else changes; its errors in order. When the environment's answers
hold a failure among those it needs, it ends in `IO_FAILURE` at the first one, the bytes before it in the sink (R245).
That the environment answers with success is said of the model's list of answers (log 4). -/
def Obligations.EncUpdateSendsTheSymbol : Prop :=
  ∀ (s : State) (sym : BitVec 9),
    (255 < sym.toNat → exec (.encUpdate sym) s = .next { s with err := .invalidSymbol, errOp := 0x31 })
    ∧ (sym.toNat ≤ 255 →
      (s.regs.encState ≠ .active → exec (.encUpdate sym) s = .next { s with err := .sequenceError, errOp := 0x31 })
      ∧ (s.regs.encState = .active → cumAt s.regs.cum (sym.toNat + 1) = cumAt s.regs.cum sym.toNat →
        exec (.encUpdate sym) s = .next { s with err := .zeroFrequency, errOp := 0x31 })
      ∧ (s.regs.encState = .active → cumAt s.regs.cum (sym.toNat + 1) ≠ cumAt s.regs.cum sym.toNat →
        let coded := renorm s.width (narrow s.regs.cum s.regs.total s.regs.encInterval sym.toNat)
        let sent := codedBits s.regs.ufc coded.1
        let packed := packBits sent.1 s.regs.acc s.regs.nacc
        (s.grants packed.1.length →
          exec (.encUpdate sym) s =
            .next { s.afterWrites packed.1 with
                      regs := { s.regs with
                        elow := toReg coded.2.low, ehigh := toReg coded.2.high, ufc := sent.2
                        acc := packed.2.1, nacc := packed.2.2 } })
        ∧ (¬ s.grants packed.1.length →
          ∃ k t, k < packed.1.length ∧ s.grants k ∧ s.draws[k]? = some .failure ∧ exec (.encUpdate sym) s = .next t
            ∧ t.err = .ioFailure ∧ t.errOp = 0x31 ∧ t.out = s.out ++ packed.1.take k)))

/-- R182: `ENC_FINISH` encodes the sentinel, sends the final bit 1 and none of the pending bits, and ends the encode;
nothing else changes. When the environment's answers hold a failure among those it needs, it ends in `IO_FAILURE` at
the first one, the bytes before it in the sink (R245). That the environment answers with success is said of the
model's list of answers (log 4). -/
def Obligations.EncFinishSendsSentinelAndOne : Prop :=
  ∀ s : State,
    (s.regs.encState ≠ .active → exec .encFinish s = .next { s with err := .sequenceError, errOp := 0x32 })
    ∧ (s.regs.encState = .active →
      let coded := renorm s.width (narrow s.regs.cum s.regs.total s.regs.encInterval 256)
      let sent := codedBits s.regs.ufc coded.1
      let packed := packBits (sent.1 ++ [true]) s.regs.acc s.regs.nacc
      (s.grants packed.1.length →
        exec .encFinish s =
          .next { s.afterWrites packed.1 with
                    regs := { s.regs with
                      elow := toReg coded.2.low, ehigh := toReg coded.2.high, ufc := sent.2
                      acc := packed.2.1, nacc := packed.2.2, encState := .flushed } })
      ∧ (¬ s.grants packed.1.length →
        ∃ k t, k < packed.1.length ∧ s.grants k ∧ s.draws[k]? = some .failure ∧ exec .encFinish s = .next t
          ∧ t.err = .ioFailure ∧ t.errOp = 0x32 ∧ t.out = s.out ++ packed.1.take k))

/-- 20_memory.md R54, R57, R176: what the encoder sends follows what was written before, bit by bit, most significant first. -/
def Obligations.EncodedBitsExtendTheStream : Prop :=
  ∀ (s t : State), s.err = .noError → t.err = .noError →
    (∀ sym, exec (.encUpdate sym) s = .next t →
      t.writtenBits = s.writtenBits
        ++ (codedBits s.regs.ufc
            (renorm s.width (narrow s.regs.cum s.regs.total s.regs.encInterval sym.toNat)).1).1)
    ∧ (exec .encFinish s = .next t →
      t.writtenBits = s.writtenBits
        ++ (codedBits s.regs.ufc
            (renorm s.width (narrow s.regs.cum s.regs.total s.regs.encInterval 256)).1).1 ++ [true])

/-- 10_state.md R37: one symbol adds at most `W − 1` to the underflow counter. The spec marks R37 and R178 as derived.
-/
def Obligations.UnderflowGrowsByAtMostWMinusOne : Prop :=
  ∀ s t : State, s.regs.Inv s.width → s.err = .noError → t.err = .noError →
    (exec .encFinish s = .next t ∨ ∃ sym, exec (.encUpdate sym) s = .next t) →
    t.regs.ufc ≤ s.regs.ufc + (s.width.bits - 1)

/-- R210, R206: `DEC_INIT` starts a decode on the full interval with the next `W` input bits in `DCODE`, the first
most significant and 0 past the end; nothing else changes; `SEQUENCE_ERROR` on an `OPEN` model or an active decode.
When the environment's answers hold a failure among those it needs, it ends in `IO_FAILURE` and the sink stays as it
was (R245). That the environment answers with success is said of the model's list of answers (log 4); one source read
for each bit is the model's choice (log 5). -/
def Obligations.DecInitPrimesTheCode : Prop :=
  ∀ s : State,
    ((s.regs.fmState = .openModel ∨ s.regs.decState = .active) →
      exec .decInit s = .next { s with err := .sequenceError, errOp := 0x38 })
    ∧ (s.regs.fmState = .ready → s.regs.decState ≠ .active →
      s.grants (s.regs.comingReads s.width.bits).length →
      exec .decInit s =
        .next { s.afterReads (s.regs.comingReads s.width.bits) with
                  regs := { s.regs with
                    dlow := 0, dhigh := BitVec.ofNat 32 (2 ^ s.width.bits - 1)
                    dcode := BitVec.ofNat 32 (bitsToNat (s.comingBits s.width.bits))
                    rpos := s.regs.rposAfter s.width.bits
                    decState := .active } })
    ∧ (s.regs.fmState = .ready → s.regs.decState ≠ .active →
      ¬ s.grants (s.regs.comingReads s.width.bits).length →
      ∃ t, exec .decInit s = .next t ∧ t.err = .ioFailure ∧ t.errOp = 0x38 ∧ t.out = s.out)

/-- R211, R204, R202, R203: `DEC_NEXT` looks up the symbol of its code, narrows, renormalises with one input bit for
each shift, and puts the symbol in `RES`; on the sentinel the decode is `DONE`; nothing else changes. When the
environment's answers hold a failure among those it needs, it ends in `IO_FAILURE` and the sink stays as it was
(R245). That the environment answers with success is said of the model's list of answers (log 4); one source read for
each bit is the model's choice (log 5). -/
def Obligations.DecNextDecodesOneSymbol : Prop :=
  ∀ s : State,
    (s.regs.decState ≠ .active → exec .decNext s = .next { s with err := .sequenceError, errOp := 0x39 })
    ∧ (s.regs.decState = .active →
      let sym := lookup s.regs.cum (decValue s.regs.total s.regs.decInterval s.regs.dcode.toNat)
      let coded := renorm s.width (narrow s.regs.cum s.regs.total s.regs.decInterval sym)
      let n := coded.1.length
      (s.grants (s.regs.comingReads n).length →
        exec .decNext s =
          .next { s.afterReads (s.regs.comingReads n) with
                    regs := { s.regs with
                      res := BitVec.ofNat 32 sym
                      dlow := toReg coded.2.low, dhigh := toReg coded.2.high
                      dcode := toReg (shiftedCode s.width coded.1 (s.comingBits n) s.regs.dcode.toNat)
                      rpos := s.regs.rposAfter n
                      decState := if sym = 256 then .done else .active } })
      ∧ (¬ s.grants (s.regs.comingReads n).length →
        ∃ t, exec .decNext s = .next t ∧ t.err = .ioFailure ∧ t.errOp = 0x39 ∧ t.out = s.out))

/-- R205: an encoder and a decoder with one model and one interval, whose decoded symbol is the encoded one, leave
equal intervals. The spec marks R205 as derived. -/
def Obligations.EncoderAndDecoderStayInStep : Prop :=
  ∀ (e e' d d' : State), e.width = d.width → e.regs.cum = d.regs.cum → e.regs.total = d.regs.total →
    e.regs.elow = d.regs.dlow → e.regs.ehigh = d.regs.dhigh →
    e.err = .noError → d.err = .noError → e'.err = .noError → d'.err = .noError →
    exec .decNext d = .next d' →
    ((∀ sym, exec (.encUpdate sym) e = .next e' → d'.regs.res.toNat = sym.toNat →
        e'.regs.elow = d'.regs.dlow ∧ e'.regs.ehigh = d'.regs.dhigh)
      ∧ (exec .encFinish e = .next e' → d'.regs.res.toNat = 256 →
        e'.regs.elow = d'.regs.dlow ∧ e'.regs.ehigh = d'.regs.dhigh ∧ d'.regs.decState = .done))

/-- R183: the round trip. What an encode with a sealed model sends for a list of counted byte symbols, packed from a
byte boundary on and finalised, is decoded by a core with the same model and width, reading exactly those bytes, to
the same symbols, then 256, and then the decode is `DONE`. The spec marks R183 as derived. It takes for granted that
every answer on the decoder's list is a success, and an exhausted list of the model's answers success (log 4). -/
def Obligations.DecodingReturnsTheEncodedSymbols : Prop :=
  ∀ (e e' d : State) (syms body : List Byte) (start : Nat),
    e.err = .noError → e.regs.fmState = .ready → e.regs.modelSealed e.width → e.regs.encState ≠ .active →
    e.regs.nacc = 0 → (∀ b ∈ syms, e.regs.count[b.toNat] ≠ 0) →
    execAll ([.encInit] ++ syms.map (fun b => .encUpdate (b.setWidth 9)) ++ [.encFinish, .bwFinalize]) e = .next e' →
    e'.err = .noError → e'.out = e.out ++ body →
    d.err = .noError → d.width = e.width → d.regs.fmState = .ready → d.regs.cum = e.regs.cum →
    d.regs.total = e.regs.total → d.regs.decState ≠ .active → (∀ a ∈ d.draws, a = .success) →
    d.regs.rpos = 8 * start → d.regs.brLen.toNat = start + body.length →
    (∀ k, (h : k < body.length) → d.input.read (start + k) = body[k]) →
    ∀ k, k ≤ syms.length →
      ∃ t, execAll (.decInit :: List.replicate (k + 1) .decNext) d = .next t ∧ t.err = .noError
        ∧ t.regs.res.toNat = (syms.map BitVec.toNat).getD k 256
        ∧ (t.regs.decState = .done ↔ k = syms.length)

/-! ## Invariants -/

/-- 10_state.md R21, R28, R29, R30, R32, R36, 42_encoder.md R179, 43_decoder.md R205: the machine's invariant is kept by every step: while the
registers are specified, the sealed model is the table of its counts within the budget, an active coder has a model, both
intervals are legal and wide enough, the code lies in the decoder's, the accumulator and the reader are within their bounds; and
always `ERR_OP` is 0 without an error, the memories are canonical, and the sink is what the history wrote. -/
def Obligations.StepKeepsTheInvariant : Prop :=
  ∀ s t : State, s.Inv → step s = .next t → t.Inv

/-- The invariant holds at reset. -/
def Obligations.ResetHasTheInvariant : Prop := State.reset.Inv
end

