-- ==== Sys2Proof/Tests/Slice0.lean ====
section
/-! SUPPORT. Tests. The expected results are those of spec/95_test_vectors.md (each test names its vector) or are worked out
from the rule named. The last part shows, for every statement with hypotheses, a state that meets them. -/

namespace Sys2Proof.Tests

open Sys2Proof.Machine

-- one kernel check at a time: each has a thread with a large stack
set_option Elab.async false

/-! ## Small states -/

def w2 : Width := ⟨2, by decide, by decide⟩
def w8 : Width := ⟨8, by decide, by decide⟩
def w32 : Width := Config.defaultWidth

/-- Right after reset, at a given width. -/
def fresh (w : Width) : State := { State.reset with width := w, regs := Regs.reset w }

/-- The state with its registers changed. -/
def modify (f : Regs → Regs) (s : State) : State := s.withRegs (f s.regs)

/-- The counts of "abracadabra" (95_test_vectors.md Conventions). -/
def abraCounts : Vector Word 256 :=
  (((((Vector.replicate 256 0).set 0x61 5).set 0x62 2).set 0x63 1).set 0x64 1).set 0x72 2

/-- These counts, not sealed. -/
def counted (w : Width) : State := modify (fun r => { r with count := abraCounts }) (fresh w)

/-- The abracadabra model, sealed (vector FM-2). -/
def abra (w : Width) : State := modify (fun r => r.commitTable (cumTable abraCounts)) (counted w)

/-- An encode in progress, with the given interval, underflow count and accumulator. -/
def encoding (w : Width) (low high : Word) (ufc : Nat) (nacc : BitVec 3) (acc : Byte) : State :=
  modify (fun r => { r with elow := low, ehigh := high, ufc := ufc, nacc := nacc, acc := acc, encState := .active }) (abra w)

/-- The body of vector EN-4 behind a header of 1024 bytes. -/
def en4Input : Memory := [(1024, 0x39), (1025, 0xD7), (1026, 0x56), (1027, 0xD0)]

/-- A decode of that body in progress, at W = 8. -/
def decoding (low high code : Word) (rpos : Nat) : State :=
  { modify (fun r => { r with
      dlow := low, dhigh := high, dcode := code, rpos := rpos, brLen := 1028, decState := .active }) (abra w8) with
    input := en4Input }

/-- Only the model of `s` is open. -/
def opened (s : State) : State := modify (fun r => { r with fmState := .openModel }) s

/-- The host has one action waiting. -/
def asked (h : HostAction) (s : State) : State := s.withQueue [h]

/-- The environment's coming answers. -/
def answered (draws : List IoAnswer) (s : State) : State := { s with draws := draws }

/-- An error is latched. -/
def latched (s : State) : State := errorEntry .sequenceError 0x17 s

/-- The result is a next state with a property. -/
def ends (r : Result) (p : State → Bool) : Bool :=
  match r with
  | .next t => p t
  | .fault _ => false
  | .refused _ => false

theorem exists_of_ends {r : Result} {p : State → Bool} (h : ends r p = true) : ∃ t, r = .next t ∧ p t = true := by
  cases r with
  | next t => exact ⟨t, rfl, h⟩
  | fault f => cases f
  | refused r => cases h

/-- The result is a next state that shows this `STATUS`. -/
def endsAt (r : Result) (word : Word) : Bool := ends r fun t => status t == word

/-- With no answer listed every access succeeds (log 4). -/
theorem grants_of_no_draws (s : State) (n : Nat) (h : s.draws = []) : s.grants n := by
  intro a ha
  rw [h] at ha
  simp at ha

/-! ## Well-formed words: one ill-formed word for each case of R74 -/

theorem test_wellformed_refuses_unassigned_opcode : wellFormed 0x0200000000000000 = false := by decide
theorem test_wellformed_refuses_reserved_bit : wellFormed 0x0000020000000000 = false := by decide
theorem test_wellformed_refuses_unused_sym : wellFormed 0x0000000100000000 = false := by decide
theorem test_wellformed_refuses_unused_data_bit : wellFormed 0x1100000000000100 = false := by decide
theorem test_wellformed_accepts_full_fields : wellFormed 0x120001FFFFFFFFFF = true := by decide

/-! ## Decoding: a word for every row, OP in bits 63:56, SYM in 40:32, DATA in 31:0 (R70, R73) -/

theorem test_decode_core : decode 0x0000000000000000 = some .nop ∧ decode 0x0100000000000000 = some .coreReset := by decide

theorem test_decode_model_counts :
    decode 0x1000000000000000 = some .fmReset
    ∧ decode 0x11000000000000A5 = some (.fmCount 0xA5)
    ∧ decode 0x1200016180000001 = some (.fmSetcount 0x161 0x80000001)
    ∧ decode 0x1300000000000000 = some (.fmSeal .built)
    ∧ decode 0x1300000000000001 = some (.fmSeal .header) := by decide

theorem test_decode_model_getters :
    decode 0x1400010000000000 = some (.fmGetcount 256)
    ∧ decode 0x1500006100000000 = some (.fmGetlow 0x61)
    ∧ decode 0x160001FF00000000 = some (.fmGethigh 0x1FF)
    ∧ decode 0x1700000000000000 = some .fmGettotal
    ∧ decode 0x18000000FEDCBA98 = some (.fmLookup 0xFEDCBA98)
    ∧ decode 0x1900000000000000 = some .fmWriteHeader
    ∧ decode 0x1A00000000000000 = some .fmReadHeader := by decide

theorem test_decode_packer :
    decode 0x2000000000000000 = some (.bwWriteBit false)
    ∧ decode 0x2000000000000001 = some (.bwWriteBit true)
    ∧ decode 0x2100000000000041 = some (.bwWriteRawByte 0x41)
    ∧ decode 0x2200000000000000 = some .bwFinalize
    ∧ decode 0x2800000080000402 = some (.brAttach 0x80000402)
    ∧ decode 0x2900000000000000 = some .brReadBit := by decide

theorem test_decode_coders :
    decode 0x3000000000000000 = some .encInit
    ∧ decode 0x3100010000000000 = some (.encUpdate 256)
    ∧ decode 0x3200000000000000 = some .encFinish
    ∧ decode 0x3800000000000000 = some .decInit
    ∧ decode 0x3900000000000000 = some .decNext := by decide

/-- BP-7, CC-2, CC-7 to CC-10. -/
theorem test_decode_refuses :
    decode 0x2000000000000002 = none ∧ decode 0x0100000000000001 = none ∧ decode 0x0200000000000000 = none
    ∧ decode 0x0000020000000000 = none ∧ decode 0x0000000100000000 = none ∧ decode 0x1300000000000002 = none := by decide

theorem test_encode_setcount : encode (.fmSetcount 0x161 0x80000001) = 0x1200016180000001 := by decide

/-- The host's view of a row: a word that is fetched runs next. -/
theorem test_fetched_word_runs :
    decodeTableWord 64 0x1400010000000000 = some (.fmGetcount 256)
    ∧ ends (step (State.reset.withFetchWord 64 0x1400010000000000)) (fun t => t.regs.res == 1) = true := by decide +kernel

/-! ## Core control (2.5) -/

/-- CC-1. -/
theorem test_nop : endsAt (exec .nop (fresh w32)) 0x00008000 = true := by decide +kernel

/-- CC-6. -/
theorem test_core_reset :
    endsAt (step (asked (.command 0x0100000000000000) (latched (abra w8)))) 0x00008000 = true := by decide +kernel

/-- CC-2, CC-8. -/
theorem test_illegal_words :
    endsAt (step (asked (.command 0x0100000000000001) (fresh w32))) 0x01008005 = true
    ∧ endsAt (step (asked (.command 0x0000020000000000) (fresh w32))) 0x00008005 = true := by decide +kernel

/-- CC-5, an ill-formed reset word is refused while an error is latched. -/
theorem test_refused_word :
    endsAt (step (asked (.command 0x0100000000000001) (latched (fresh w32)))) 0x17008007 = true := by decide +kernel

/-- EX-1, the illegal word is reported, not the frozen model. -/
theorem test_illegal_before_sequence :
    endsAt (step (asked (.command 0x1100000000000100) (encoding w32 0 0xFFFFFFFF 0 0 0))) 0x11008035 = true := by
  decide +kernel

/-! ## Frequency model (2.1) -/

theorem test_fm_reset :
    ends (exec .fmReset (abra w32)) (fun t => t.regs.count[0x61] == 0 && status t == 0x00008000) = true := by decide +kernel

/-- FM-8. -/
theorem test_fm_count :
    ends (exec (.fmCount 0x61) (abra w32)) (fun t => t.regs.count[0x61] == 6 && status t == 0x00008000) = true := by
  decide +kernel

/-- FM-9. -/
theorem test_fm_count_saturates :
    ends (exec (.fmCount 5) (modify (fun r => { r with count := r.count.set 5 0xFFFFFFFF }) (fresh w32)))
      (fun t => t.regs.count[5] == 0xFFFFFFFF && t.err == .noError) = true := by decide +kernel

/-- FM-11. -/
theorem test_fm_setcount_range : endsAt (exec (.fmSetcount 256 1) (fresh w32)) 0x12008006 = true := by decide +kernel

/-- EX-4. -/
theorem test_fm_setcount_order :
    endsAt (exec (.fmSetcount 256 1) (encoding w32 0 0xFFFFFFFF 0 0 0)) 0x12008036 = true := by decide +kernel

/-- FM-2. -/
theorem test_fm_seal_builds :
    ends (exec (.fmSeal .built) (counted w32)) (fun t =>
      t.regs.total == 12 && status t == 0x00008010
      && [0, 97, 98, 99, 100, 101, 114, 115, 256, 257].map (cumAt t.regs.cum) == [0, 0, 5, 7, 8, 9, 9, 11, 11, 12]) = true := by
  decide +kernel

/-- FM-10, FM-10b. -/
theorem test_fm_seal_over_budget :
    let s := modify (fun r => { r with count := r.count.set 5 0xFFFFFFFF }) (fresh w32)
    endsAt (exec (.fmSeal .built) s) 0x13008004 = true ∧ endsAt (exec (.fmSeal .header) s) 0x13008003 = true := by
  decide +kernel

/-- FM-1, FM-3. -/
theorem test_fm_getcount :
    ends (exec (.fmGetcount 256) (fresh w32)) (fun t => t.regs.res == 1 && status t == 0x00008000) = true
    ∧ ends (exec (.fmGetcount 98) (abra w32)) (fun t => t.regs.res == 2) = true := by decide +kernel

/-- FM-3. -/
theorem test_fm_getlow : ends (exec (.fmGetlow 256) (abra w32)) (fun t => t.regs.res == 11) = true := by decide +kernel

/-- FM-6. -/
theorem test_fm_getlow_range : endsAt (exec (.fmGetlow 257) (abra w32)) 0x15008016 = true := by decide +kernel

/-- FM-3. -/
theorem test_fm_gethigh :
    ends (exec (.fmGethigh 97) (abra w32)) (fun t => t.regs.res == 5) = true
    ∧ ends (exec (.fmGethigh 256) (abra w32)) (fun t => t.regs.res == 12) = true := by decide +kernel

/-- FM-3, FM-7. -/
theorem test_fm_gettotal :
    ends (exec .fmGettotal (abra w32)) (fun t => t.regs.res == 12) = true
    ∧ endsAt (exec .fmGettotal (fresh w32)) 0x17008007 = true := by decide +kernel

/-- FM-4. -/
theorem test_fm_lookup :
    ([(4, 97), (5, 98), (6, 98), (7, 99), (8, 100), (9, 114), (11, 256)] : List (Word × Word)).all (fun p =>
      ends (exec (.fmLookup p.1) (abra w32)) (fun t => t.regs.res == p.2)) = true := by decide +kernel

/-- FM-5. -/
theorem test_fm_lookup_range : endsAt (exec (.fmLookup 12) (abra w32)) 0x1800801A = true := by decide +kernel

/-- FM-17: the bytes of the header, and that the sink gets them. -/
theorem test_header_bytes :
    (headerBytes abraCounts).length = 1024 ∧ ((headerBytes abraCounts).drop 0x184).take 8 = [0, 0, 0, 5, 0, 0, 0, 2]
    ∧ ((headerBytes abraCounts).drop 0x1C8).take 5 = [0, 0, 0, 2, 0] := by decide +kernel

theorem test_fm_write_header :
    exec .fmWriteHeader (abra w32) = .next ((abra w32).afterWrites (headerBytes abraCounts)) := by
  show execFmWriteHeader (abra w32) = _
  unfold execFmWriteHeader
  rw [if_neg (by decide +kernel), if_neg (by decide +kernel),
    emitRawBytes_granted _ _ (grants_of_no_draws _ _ rfl)]
  rfl

/-- FM-16. -/
theorem test_fm_write_header_misaligned :
    endsAt (exec .fmWriteHeader (modify (fun r => { r with acc := 1, nacc := 1 }) (abra w32))) 0x19008219 = true := by
  decide +kernel

/-- A source of one 1024-byte header whose first word is given, attached. -/
def headerSource (b0 b1 b2 b3 : Byte) : State :=
  { modify (fun r => { r with brLen := 1024 }) (fresh w32) with input := Memory.ofBytes [b0, b1, b2, b3] }

/-- Every byte of a header is read before the counts are checked. -/
theorem readHeader_of_source (s : State) (hc : s.regs.coderActive = false) (hr : s.regs.rpos % 8 = 0)
    (hl : s.regs.rpos / 8 + headerBytesLen ≤ s.regs.brLen.toNat) (hd : s.draws = []) :
    exec .fmReadHeader s =
      commitHeader (headerCounts ((List.range headerBytesLen).map fun k => s.input.read (s.regs.rpos / 8 + k)))
        (s.afterReads ((List.range headerBytesLen).map (s.regs.rpos / 8 + ·))) := by
  show execFmReadHeader s = _
  unfold execFmReadHeader
  rw [if_neg (by simp [hc]), if_neg (by simp [hr]), if_neg (by omega),
    sourceReadMany_granted _ _ _ (grants_of_no_draws s _ hd)]

/-- FM-18 e. -/
theorem test_fm_read_header_at_budget :
    ends (exec .fmReadHeader (headerSource 0x3F 0xFF 0xFF 0xFF)) (fun t =>
      t.err == .noError && t.regs.total == 2 ^ 30 && t.regs.rpos == 8192 && t.regs.count[0] == 0x3FFFFFFF) = true := by
  rw [readHeader_of_source _ (by decide +kernel) (by decide +kernel) (by decide +kernel) rfl]
  decide +kernel

/-- FM-18 d. -/
theorem test_fm_read_header_over_budget :
    ends (exec .fmReadHeader (headerSource 0x40 0 0 0)) (fun t =>
      status t == 0x1A000002 && t.err == .corruptHeader && t.history.length == 1024) = true := by
  rw [readHeader_of_source _ (by decide +kernel) (by decide +kernel) (by decide +kernel) rfl]
  decide +kernel

/-! ## Bit packer (2.2) -/

/-- BP-1. -/
theorem test_bw_write_bit :
    ends (exec (.bwWriteBit true) (fresh w32)) (fun t =>
      t.regs.acc == 1 && t.out == [] && status t == 0x00008200) = true := by decide +kernel

/-- The last bit of BP-2. -/
theorem test_bw_write_bit_fills_byte :
    ends (exec (.bwWriteBit false) (modify (fun r => { r with acc := 0x59, nacc := 7 }) (fresh w32))) (fun t =>
      t.out == [0xB2] && status t == 0x00008000) = true := by decide +kernel

/-- BP-5. -/
theorem test_bw_write_raw_byte :
    ends (exec (.bwWriteRawByte 0x41) { fresh w32 with out := [0xB2, 0xA0] }) (fun t => t.out == [0xB2, 0xA0, 0x41]) = true := by
  decide +kernel

/-- BP-6, BP-13. -/
theorem test_bw_write_raw_byte_errors :
    endsAt (exec (.bwWriteRawByte 0x41) (modify (fun r => { r with acc := 1, nacc := 1 }) (fresh w32))) 0x21008209 = true
    ∧ endsAt (exec (.bwWriteRawByte 1) (encoding w32 0 0xD5555553 0 1 0)) 0x21008237 = true := by decide +kernel

/-- BP-3. -/
theorem test_bw_finalize :
    ends (exec .bwFinalize (modify (fun r => { r with acc := 5, nacc := 3 }) (fresh w32))) (fun t =>
      t.out == [0xA0] && status t == 0x0000B000) = true := by decide +kernel

/-- BP-4. -/
theorem test_bw_finalize_empty :
    ends (exec .bwFinalize (modify (fun r => { r with finBits := 3 }) (fresh w32))) (fun t =>
      t.out == [] && status t == 0x00008000) = true := by decide +kernel

/-- BP-8. -/
theorem test_br_attach :
    ends (exec (.brAttach 1) { fresh w32 with presented := Memory.ofBytes [0xA5] }) (fun t =>
      status t == 0 && t.input.read 0 == 0xA5) = true := by decide +kernel

/-- BP-8: the bits 1,0,1,0,0,1,0,1,0 of the positions 0 to 8. -/
theorem test_br_read_bit :
    ((List.range 9).map fun p =>
      ends (exec .brReadBit
        { modify (fun r => { r with brLen := 1, rpos := p }) (fresh w32) with input := Memory.ofBytes [0xA5] })
        (fun t => t.regs.res == 1 && t.regs.rpos == p + 1))
      = [true, false, true, false, false, true, false, true, false] := by decide +kernel

/-- BP-10. -/
theorem test_br_read_bit_at_end :
    ends (exec .brReadBit (modify (fun r => { r with res := 7 }) (fresh w32))) (fun t =>
      t.regs.res == 0 && t.regs.rpos == 0 && status t == 0x00008000) = true := by decide +kernel

/-! ## Encoder (2.3) -/

/-- EN-1. -/
theorem test_enc_init :
    ends (exec .encInit (abra w32)) (fun t =>
      t.regs.elow == 0 && t.regs.ehigh == 0xFFFFFFFF && t.regs.ufc == 0 && status t == 0x00008030) = true := by decide +kernel

/-- EN-2. -/
theorem test_enc_update_e12 :
    ends (exec (.encUpdate 0x61) (encoding w8 0 0xFF 0 0 0)) (fun t =>
      t.regs.elow == 0 && t.regs.ehigh == 0xD3 && t.regs.ufc == 0 && status t == 0x00008230 && t.out == []) = true := by
  decide +kernel

/-- The row 'c' of EN-3: a byte goes out and two bits are deferred. -/
theorem test_enc_update_e3 :
    ends (exec (.encUpdate 0x63) (encoding w32 0x71C71C48 0xC0CA4559 0 6 0x0E)) (fun t =>
      t.regs.elow == 0x7DE49920 && t.regs.ehigh == 0xE73E253F && t.regs.ufc == 2 && t.regs.nacc == 0 && t.out == [0x3A])
      = true := by decide +kernel

/-- The last row of EN-4: the pending bit goes out before the final 1. -/
theorem test_enc_finish :
    ends (exec .encFinish (encoding w8 0x60 0xEF 1 6 0x15)) (fun t =>
      t.regs.elow == 0x40 && t.regs.ehigh == 0xFF && t.regs.nacc == 4 && t.regs.acc == 0x0D && t.out == [0x56]
      && t.regs.encState == .flushed) = true := by decide +kernel

/-- EN-8. -/
theorem test_enc_errors :
    endsAt (exec (.encUpdate 0x7A) (encoding w32 0 0xFFFFFFFF 0 0 0)) 0x31008038 = true
    ∧ endsAt (exec (.encUpdate 256) (fresh w32)) 0x31008006 = true
    ∧ endsAt (exec .encFinish (abra w32)) 0x32008017 = true := by decide +kernel

/-! ## Decoder (2.4) -/

/-- DE-1, W = 8. -/
theorem test_dec_init :
    ends (exec .decInit { modify (fun r => { r with brLen := 1028, rpos := 8192 }) (abra w8) with input := en4Input }) (fun t =>
      t.regs.dcode == 0x39 && t.regs.rpos == 8200 && t.regs.dhigh == 0xFF && status t == 0x00000090) = true := by decide +kernel

/-- DE-7. -/
theorem test_dec_init_past_the_end :
    ends (exec .decInit (abra w32)) (fun t => t.regs.dcode == 0 && status t == 0x00008090) = true := by decide +kernel

/-- Row 5 of DE-2. -/
theorem test_dec_next :
    ends (exec .decNext (decoding 0x10 0xA7 0x6B 8207)) (fun t =>
      t.regs.res == 99 && t.regs.dlow == 0 && t.regs.dhigh == 0xCF && t.regs.dcode == 0x3A && t.regs.rpos == 8211) = true := by
  decide +kernel

/-- Row 12 of DE-2. -/
theorem test_dec_next_sentinel :
    ends (exec .decNext (decoding 0x60 0xEF 0xE8 8221)) (fun t =>
      t.regs.res == 256 && t.regs.dlow == 0x40 && t.regs.dhigh == 0xFF && t.regs.dcode == 0x80 && t.regs.rpos == 8224
      && status t == 0x00008110) = true := by decide +kernel

/-! ## I/O failure (2.6) -/

/-- EX-9, and the 8th bit of a byte. -/
theorem test_io_failure :
    ends (exec .fmWriteHeader (answered [.failure] (abra w32))) (fun t =>
      t.err == .ioFailure && t.errOp == 0x19 && t.out == []) = true
    ∧ ends (exec (.bwWriteBit true) (answered [.failure] (modify (fun r => { r with nacc := 7 }) (fresh w32)))) (fun t =>
      t.err == .ioFailure && t.errOp == 0x20 && t.out == []) = true := by decide +kernel

/-- EX-11, and EX-12 from the row before `ENC_FINISH` of EN-3. -/
theorem test_io_failure_encoder :
    ends (exec (.encUpdate 0x63) (answered [.failure] (encoding w32 0x71C71C48 0xC0CA4559 0 6 0x0E))) (fun t =>
      t.err == .ioFailure && t.errOp == 0x31 && t.out == []) = true
    ∧ ends (exec .encFinish (answered [.failure] (encoding w32 0x37D2D520 0x801476E5 7 7 0x43))) (fun t =>
      t.err == .ioFailure && t.errOp == 0x32 && t.out == []) = true := by decide +kernel

/-- A source that fails on the first bit (41_bit_packer.md R142, 60_exceptions.md R245). -/
theorem test_io_failure_decoder :
    ends (exec .decNext (answered [.failure] (decoding 0x10 0xA7 0x6B 8207))) (fun t =>
      t.err == .ioFailure && t.errOp == 0x39 && t.out == []) = true
    ∧ ends (exec .decInit (answered [.failure] (modify (fun r => { r with brLen := 1 }) (abra w8)))) (fun t =>
      t.err == .ioFailure && t.errOp == 0x38 && t.out == []) = true
    ∧ ends (exec .fmReadHeader (answered [.failure] (headerSource 0 0 0 0))) (fun t =>
      t.err == .ioFailure && t.errOp == 0x1A && t.out == []) = true := by decide +kernel

/-! ## Witnesses: states that meet the hypotheses of the statements -/

/-- An idle core with a sealed model, and each way of being busy. -/
def encActive : State := encoding w8 0x60 0xEF 1 6 0x15
def decActive : State := decoding 0x10 0xA7 0x6B 8207

/-- The counts are over the budget of the width by one. -/
def overBudget : State := modify (fun r => { r with count := r.count.set 5 64 }) (fresh w8)

/-- The total is the budget of the width. -/
def atBudget : State := modify (fun r => { r with count := r.count.set 5 63 }) (fresh w8)

theorem total_of (count : Vector Word 256) (n : Nat) (h : cumAt (cumTable count) 257 = n) : countsBelow count 257 = n := by
  rw [← cumAt_cumTable count 257 (by omega), h]

theorem abra_total : countsBelow abraCounts 257 = 12 := total_of _ _ (by decide +kernel)

theorem abra_sealed (w : Width) (h : 12 ≤ maxTotal w) : (abra w).regs.modelSealed w := by
  refine fun _ => ⟨rfl, rfl, ?_⟩
  show (cumTable abraCounts)[257] ≤ _
  rw [cumTable_getElem, abra_total]
  exact h

theorem encActive_inv : encActive.regs.Inv encActive.width :=
  ⟨abra_sealed w8 (by decide), fun _ => rfl, by decide +kernel, by decide +kernel, by decide +kernel, by decide +kernel⟩

theorem decActive_inv : decActive.regs.Inv decActive.width :=
  ⟨abra_sealed w8 (by decide), fun _ => rfl, by decide +kernel, by decide +kernel, by decide +kernel, by decide +kernel⟩

theorem witness_EncodeOfDecodeGivesWord : decode 0x120001FFFFFFFFFF = some (.fmSetcount 0x1FF 0xFFFFFFFF) := by decide

theorem witness_DecoderReadsTheMatchingTableRow :
    (⟨"FM_COUNT", 0x1100000000000000, 0xFFFFFFFFFFFFFF00⟩ : OpcodeRow) ∈ opcodeTable
    ∧ (0x11000000000000FF : Cmd) &&& 0xFFFFFFFFFFFFFF00 = 0x1100000000000000
    ∧ decode 0x11000000000000FF = some (.fmCount 0xFF) := by decide

theorem witness_ExampleWordsDecodeAsTabled : (fresh w8).err = .noError := by decide +kernel

theorem witness_IllegalWordsRaiseIllegalCommand :
    (fresh w8).err = .noError
    ∧ r74Illegal 0xFF00000000000000 ∧ r74Illegal 0x0080000000000000 ∧ r74Illegal 0x0000000100000000
    ∧ r74Illegal 0x1100000000000100
    ∧ ¬ r74Illegal 0x11000000000000FF ∧ ¬ r74Illegal 0x120001FFFFFFFFFF :=
  ⟨by decide +kernel, .inl (by decide), .inr (.inl (by decide)), .inr (.inr (.inl (by decide))),
    .inr (.inr (.inr (by decide))), by unfold r74Illegal; decide, by unfold r74Illegal; decide⟩

theorem witness_StepRunsTheDecodedCommand :
    decode 0x1100000000000061 = some (.fmCount 0x61) ∧ decode 0x0100000000000000 = some .coreReset
    ∧ (asked (.command 0x1100000000000061) (fresh w8)).err = .noError
    ∧ (asked (.command 0x0100000000000000) (latched (fresh w8))).err ≠ .noError := by decide +kernel

theorem witness_ErrorStateRefusesEveryOtherWord :
    (asked (.command 0x0100000000000001) (latched (fresh w8))).queue = [.command 0x0100000000000001]
    ∧ (latched (fresh w8)).err ≠ .noError ∧ (0x0100000000000001 : Cmd) ≠ 0x0100000000000000 := by decide +kernel

theorem witness_ErrorStateEndsOnlyByReset :
    (latched (fresh w8)).err ≠ .noError
    ∧ (∃ t, step (asked (.command 0) (latched (fresh w8))) = .next t ∧ decide (t.err ≠ .noError) = true)
    ∧ (∃ t, step (asked .resetInput (latched (fresh w8))) = .next t ∧ decide (t.err = .noError) = true) :=
  ⟨by decide +kernel, exists_of_ends (by decide +kernel), exists_of_ends (by decide +kernel)⟩

theorem witness_EveryStepAnswersANextState : encActive.err = .noError := by decide +kernel

theorem witness_PreciseErrorsChangeNothingElse :
    (fresh w8).err = .noError
    ∧ (∃ t, step (asked (.command 0x1700000000000000) (fresh w8)) = .next t
        ∧ decide (t.err ≠ .noError ∧ t.err ≠ .ioFailure) = true)
    ∧ (∃ t, exec .fmReadHeader (headerSource 0x40 0 0 0) = .next t
        ∧ (status t == 0x1A000002 && t.err == .corruptHeader && t.history.length == 1024) = true) :=
  ⟨by decide +kernel, exists_of_ends (by decide +kernel), exists_of_ends test_fm_read_header_over_budget⟩

/-- The second write fails. -/
theorem witness_IoFailureKeepsOnlyLatchAndSink :
    (abra w32).err = .noError
    ∧ (∃ t, step (asked (.command 0x1900000000000000) (answered [.success, .failure] (abra w32))) = .next t
        ∧ decide (t.err = .ioFailure ∧ t.out = [0]) = true) :=
  ⟨by decide +kernel, exists_of_ends (by decide +kernel)⟩

theorem witness_EveryAccessTakesADraw :
    (∃ t, exec (.bwWriteRawByte 0x41) (fresh w8) = .next t ∧ decide (t.history ≠ []) = true)
    ∧ (∃ t, exec (.bwWriteRawByte 0x41) (answered [.failure] (fresh w8)) = .next t ∧ decide (t.history ≠ []) = true) :=
  ⟨exists_of_ends (by decide +kernel), exists_of_ends (by decide +kernel)⟩

theorem witness_SinkIsAppendOnly :
    ∃ t, step (asked (.command 0x2100000000000041) { fresh w8 with out := [1] }) = .next t
      ∧ decide (t.out = [1, 0x41]) = true := exists_of_ends (by decide +kernel)

theorem witness_SinkContentsNeverInfluenceTheCore :
    ∃ t, step (asked (.command 0x2100000000000041) (fresh w8)) = .next t ∧ decide (t.out = [0x41]) = true :=
  exists_of_ends (by decide +kernel)

theorem witness_ActiveCoderFreezesTheModel :
    encActive.regs.encState = .active ∧ decActive.regs.decState = .active ∧ (255 : BitVec 9).toNat ≤ 255 := by decide +kernel

theorem witness_SymbolOutOfRangeIsInvalid :
    255 < (256 : BitVec 9).toNat ∧ 256 < (257 : BitVec 9).toNat ∧ (255 : BitVec 9).toNat ≤ 255
    ∧ (256 : BitVec 9).toNat ≤ 256 ∧ (abra w8).err ≠ .invalidSymbol
    ∧ (∃ t, exec (.fmSetcount 255 1) (abra w8) = .next t ∧ decide (t.err = .noError) = true)
    ∧ (∃ t, exec (.encUpdate 255) (abra w8) = .next t ∧ decide (t.err = .sequenceError) = true)
    ∧ (∃ t, exec (.fmGetcount 256) (abra w8) = .next t ∧ decide (t.err = .noError) = true) :=
  ⟨by decide, by decide, by decide, by decide, by decide +kernel, exists_of_ends (by decide +kernel),
    exists_of_ends (by decide +kernel), exists_of_ends (by decide +kernel)⟩

theorem witness_ResetSetsEveryRegister :
    (asked .resetInput encActive).queue = [.resetInput]
    ∧ (asked (.command 0x0100000000000000) encActive).queue = [.command 0x0100000000000000] := by decide +kernel

theorem witness_ConfigIsAConstantOfItsFields :
    ∃ t, step (asked (.command 0x0100000000000000) encActive) = .next t ∧ decide (configWord t = 0x00000108) = true :=
  exists_of_ends (by decide +kernel)

theorem witness_PortReadsHaveNoSideEffect :
    (asked (.readPort 2) encActive).queue = [.readPort 2] ∧ 3 ≤ (3 : BitVec 4).toNat ∧ 3 ≤ (15 : BitVec 4).toNat := by
  decide +kernel

theorem witness_IdleAndPresentKeepTheCore :
    (fresh w8).queue = [] ∧ (asked (.present [0, 1]) (fresh w8)).queue = [.present [0, 1]] := by decide +kernel

theorem witness_OnlyListedCommandsWriteRes :
    ∃ t, exec .fmGettotal (abra w8) = .next t
      ∧ decide ((abra w8).err = .noError ∧ t.err ≠ .ioFailure ∧ t.regs.res ≠ (abra w8).regs.res) = true :=
  exists_of_ends (by decide +kernel)

theorem witness_OnlySealsMakeTheModelReady :
    (∃ t, exec (.fmSeal .built) (counted w8) = .next t
      ∧ decide ((counted w8).err = .noError ∧ t.err ≠ .ioFailure ∧ (counted w8).regs.fmState = .openModel
        ∧ t.regs.fmState = .ready) = true)
    ∧ (∃ t, exec .fmReset (abra w8) = .next t ∧ decide (t.err = .noError) = true)
    ∧ (∃ t, exec (.encUpdate 0x61) encActive = .next t ∧ decide (t.err = .noError) = true) :=
  ⟨exists_of_ends (by decide +kernel), exists_of_ends (by decide +kernel), exists_of_ends (by decide +kernel)⟩

/-- The bounds of the indices, and values at both ends of the range of the lookup. -/
theorem witness_CumulativeTableProperties : 0 < (cumTable abraCounts)[257] ∧ 11 < (cumTable abraCounts)[257] := by
  decide +kernel

theorem witness_LookupFindsTheSubinterval :
    (abra w8).regs.modelSealed w8 ∧ (abra w8).regs.fmState = .ready ∧ 0 < (abra w8).regs.total
    ∧ 11 < (abra w8).regs.total := ⟨abra_sealed w8 (by decide), by decide +kernel⟩

/-- `FM_RESET`, `FM_COUNT`, `FM_SETCOUNT`, `FM_SEAL` and `FM_READ_HEADER`: idle, and each coder active. -/
theorem witness_idle_or_active :
    (abra w8).regs.encState ≠ .active ∧ (abra w8).regs.decState ≠ .active
    ∧ encActive.regs.encState = .active ∧ decActive.regs.decState = .active := by decide +kernel

theorem witness_FmCountAddsOneSaturating : (0 : Nat) ≠ (0xFF : Byte).toNat ∧ (255 : Nat) ≠ (0xFE : Byte).toNat := by decide

theorem witness_FmSetcountWritesOneCount : 255 < (256 : BitVec 9).toNat ∧ (255 : BitVec 9).toNat ≤ 255 := by decide

theorem witness_FmSealValidatesAndBuildsTheTable :
    (countsBelow overBudget.regs.count 257 = 65 ∧ overBudget.width.bits - 2 = 6)
    ∧ overBudget.regs.encState ≠ .active ∧ overBudget.regs.decState ≠ .active
    ∧ (countsBelow atBudget.regs.count 257 = 64 ∧ atBudget.width.bits - 2 = 6)
    ∧ atBudget.regs.encState ≠ .active ∧ atBudget.regs.decState ≠ .active
    ∧ (countsBelow (fresh w2).regs.count 257 = 1 ∧ (fresh w2).width.bits - 2 = 0) :=
  ⟨⟨total_of _ _ (by decide +kernel), rfl⟩, by decide +kernel, by decide +kernel,
    ⟨total_of _ _ (by decide +kernel), rfl⟩, by decide +kernel, by decide +kernel,
    ⟨total_of _ _ (by decide +kernel), rfl⟩⟩

theorem witness_FmGetcountReadsTheCount :
    256 < (257 : BitVec 9).toNat ∧ (256 : BitVec 9).toNat = 256 ∧ (255 : BitVec 9).toNat < 256 := by decide

theorem witness_CumulativeGettersReadTheTable :
    256 < (257 : BitVec 9).toNat ∧ (256 : BitVec 9).toNat ≤ 256 ∧ (fresh w8).regs.fmState = .openModel
    ∧ (abra w8).regs.fmState = .ready := by decide +kernel

theorem witness_SealedGettersAreExact :
    (abra w8).regs.fmState = .ready ∧ (abra w8).regs.modelSealed (abra w8).width ∧ (256 : BitVec 9).toNat ≤ 256 :=
  ⟨by decide +kernel, abra_sealed w8 (by decide), by decide⟩

theorem witness_FmLookupAnswersTheSymbol :
    (fresh w8).regs.fmState = .openModel
    ∧ (abra w8).regs.fmState = .ready ∧ (abra w8).regs.total ≤ (12 : Word).toNat
    ∧ (11 : Word).toNat < (abra w8).regs.total ∧ (abra w8).regs.modelSealed (abra w8).width
    ∧ (11 : Word).toNat + 1 = (abra w8).regs.total :=
  ⟨by decide +kernel, by decide +kernel, by decide +kernel, by decide +kernel, abra_sealed w8 (by decide), by decide +kernel⟩

theorem witness_FmWriteHeaderSendsBigEndianCounts :
    (fresh w8).regs.fmState = .openModel ∧ encActive.regs.encState = .active
    ∧ (modify (fun r => { r with nacc := 7 }) (abra w8)).regs.nacc ≠ 0
    ∧ (abra w8).regs.fmState = .ready ∧ (abra w8).regs.encState ≠ .active ∧ (abra w8).regs.nacc = 0
    ∧ (answered (List.replicate 1024 .success ++ [.failure]) (abra w8)).grants 1024
    ∧ ¬ (answered (List.replicate 1023 .success ++ [.failure]) (abra w8)).grants 1024 := by decide +kernel

/-- The counts of a header are what the source holds: here 63 and 64 for the last symbol, at W = 8. -/
def lastCount (b : Byte) : State :=
  { modify (fun r => { r with brLen := 1024 }) (fresh w8) with input := [(1023, b)] }

theorem witness_FmReadHeaderLoadsAndSeals :
    (∀ k, (h : k < 256) → ((Vector.replicate 256 0 : Vector Word 256).set 255 63)[k] =
      (lastCount 63).input.read ((lastCount 63).regs.rpos / 8 + 4 * k)
        ++ (lastCount 63).input.read ((lastCount 63).regs.rpos / 8 + 4 * k + 1)
        ++ (lastCount 63).input.read ((lastCount 63).regs.rpos / 8 + 4 * k + 2)
        ++ (lastCount 63).input.read ((lastCount 63).regs.rpos / 8 + 4 * k + 3))
    ∧ (lastCount 63).regs.encState ≠ .active ∧ (lastCount 63).regs.decState ≠ .active
    ∧ (lastCount 63).regs.rpos % 8 = 0 ∧ (lastCount 63).regs.rpos / 8 + 1024 ≤ (lastCount 63).regs.brLen.toNat
    ∧ (lastCount 63).grants 1024 ∧ ¬ (answered (List.replicate 1023 .success ++ [.failure]) (lastCount 63)).grants 1024
    ∧ (countsBelow ((Vector.replicate 256 0).set 255 63) 257 = 64
      ∧ countsBelow ((Vector.replicate 256 0).set 255 64) 257 = 65 ∧ (lastCount 64).width.bits - 2 = 6)
    ∧ (modify (fun r => { r with rpos := 1 }) (lastCount 63)).regs.rpos % 8 ≠ 0
    ∧ (modify (fun r => { r with rpos := 8 }) (lastCount 63)).regs.brLen.toNat < 8 / 8 + 1024 :=
  ⟨by decide +kernel, by decide +kernel, by decide +kernel, by decide +kernel, by decide +kernel,
    grants_of_no_draws _ _ rfl, by decide +kernel,
    ⟨total_of _ _ (by decide +kernel), total_of _ _ (by decide +kernel), rfl⟩, by decide +kernel, by decide +kernel⟩

theorem witness_HeaderReadBackGivesTheSameModel :
    (abra w8).regs.fmState = .ready ∧ (abra w8).regs.encState ≠ .active ∧ (abra w8).regs.nacc = 0
    ∧ (abra w8).grants 1024 ∧ (abra w8).regs.modelSealed (abra w8).width
    ∧ (lastCount 0).width = (abra w8).width ∧ (lastCount 0).regs.encState ≠ .active
    ∧ (lastCount 0).regs.decState ≠ .active ∧ (lastCount 0).regs.rpos = 0
    ∧ 1024 ≤ (lastCount 0).regs.brLen.toNat ∧ (lastCount 0).grants 1024
    ∧ ({ lastCount 0 with input := Memory.ofBytes (headerBytes abraCounts ++ []) } : State).input =
        Memory.ofBytes (headerBytes abraCounts ++ []) :=
  ⟨by decide +kernel, by decide +kernel, by decide +kernel, grants_of_no_draws _ _ rfl, abra_sealed w8 (by decide), rfl,
    by decide +kernel, by decide +kernel, by decide +kernel, by decide +kernel, grants_of_no_draws _ _ rfl, by dsimp only⟩

/-- `BW_WRITE_BIT`, `BW_WRITE_RAW_BYTE` and `BW_FINALIZE`. -/
theorem witness_bit_writer :
    encActive.regs.encState = .active ∧ (abra w8).regs.encState ≠ .active ∧ (abra w8).regs.nacc = 0
    ∧ (modify (fun r => { r with nacc := 6 }) (fresh w8)).regs.nacc ≠ 7
    ∧ (modify (fun r => { r with nacc := 7 }) (fresh w8)).regs.nacc = 7
    ∧ (answered [.success, .failure] (fresh w8)).grants 1 ∧ ¬ (answered [.failure] (fresh w8)).grants 1 := by decide +kernel

theorem witness_WrittenBitsFormTheStreamMsbFirst :
    ∃ t, exec (.bwWriteBit true) (modify (fun r => { r with nacc := 7 }) (fresh w8)) = .next t
      ∧ decide ((fresh w8).err = .noError ∧ t.err = .noError) = true := exists_of_ends (by decide +kernel)

/-- `BR_ATTACH` and `BR_READ_BIT`: the last bit, the end, a source that fails. -/
theorem witness_bit_reader :
    decActive.regs.decState = .active ∧ (abra w8).regs.decState ≠ .active
    ∧ (0 : Nat) < (1 : Word).toNat
    ∧ (modify (fun r => { r with brLen := 1, rpos := 7 }) (fresh w8)).regs.rpos
        < 8 * (modify (fun r => { r with brLen := 1, rpos := 7 }) (fresh w8)).regs.brLen.toNat
    ∧ 8 * (modify (fun r => { r with brLen := 1, rpos := 8 }) (fresh w8)).regs.brLen.toNat
        ≤ (modify (fun r => { r with brLen := 1, rpos := 8 }) (fresh w8)).regs.rpos
    ∧ (fresh w8).grants 1 ∧ ¬ (answered [.failure] (fresh w8)).grants 1 := by decide +kernel

/-- An interval as wide as the total, and one wider; counts at both ends. -/
theorem witness_NarrowGivesAdjoiningSubintervals :
    (⟨0, 11⟩ : Interval).low ≤ (⟨0, 11⟩ : Interval).high ∧ countsBelow abraCounts 257 ≤ (⟨0, 11⟩ : Interval).range
    ∧ 1 ≤ countOf abraCounts 256 ∧ 1 ≤ countOf abraCounts 0x61 :=
  ⟨by decide, by rw [abra_total]; decide, by decide +kernel, by decide +kernel⟩

theorem witness_ShiftConditionsByPosition :
    (⟨0, 0⟩ : Interval).legal w2 ∧ (⟨1, 2⟩ : Interval).legal w2 ∧ (⟨1, 2⟩ : Interval).e12 w2 = false
    ∧ (⟨0x7F, 0x80⟩ : Interval).legal w8 ∧ (⟨0x7F, 0x80⟩ : Interval).e12 w8 = false := by decide

theorem witness_ShiftsAreDoublings :
    (⟨0xFF, 0xFF⟩ : Interval).legal w8 ∧ (⟨0xFF, 0xFF⟩ : Interval).e12 w8 = true
    ∧ (⟨0x7F, 0x80⟩ : Interval).legal w8 ∧ (⟨0x7F, 0x80⟩ : Interval).e12 w8 = false
    ∧ (⟨0x7F, 0x80⟩ : Interval).e3 w8 = true := by decide

theorem witness_RenormalisationEndsWithinW : (⟨0x7F, 0x80⟩ : Interval).legal w8 ∧ (⟨0, 0⟩ : Interval).legal w8 := by decide

theorem witness_DecoderFindsTheSubintervalOfItsCode :
    (⟨0x40, 0x4B⟩ : Interval).low ≤ 0x4B ∧ 0x4B ≤ (⟨0x40, 0x4B⟩ : Interval).high
    ∧ countsBelow abraCounts 257 ≤ (⟨0x40, 0x4B⟩ : Interval).range ∧ 1 ≤ countOf abraCounts 256 :=
  ⟨by decide, by decide, by rw [abra_total]; decide, by decide +kernel⟩

theorem witness_EncInitStartsOnTheFullInterval :
    (fresh w8).regs.fmState = .openModel ∧ encActive.regs.encState = .active ∧ (abra w8).regs.fmState = .ready
    ∧ (abra w8).regs.encState ≠ .active := by decide +kernel

/-- The bytes that `ENC_UPDATE` and `ENC_FINISH` send from a state. -/
def updateBytes (sym : Nat) (s : State) : List Byte :=
  (packBits (codedBits s.regs.ufc (renorm s.width (narrow s.regs.cum s.regs.total s.regs.encInterval sym)).1).1
    s.regs.acc s.regs.nacc).1

def finishBytes (s : State) : List Byte :=
  (packBits ((codedBits s.regs.ufc (renorm s.width (narrow s.regs.cum s.regs.total s.regs.encInterval 256)).1).1 ++ [true])
    s.regs.acc s.regs.nacc).1

/-- The row 'a' of EN-4 after 'd' sends one byte: the environment answers no more than that, or fails it. -/
theorem witness_EncUpdateSendsTheSymbol :
    let s := answered [.success, .failure] (encoding w8 0x10 0x87 3 4 0x0D)
    let bad := answered [.failure] (encoding w8 0x10 0x87 3 4 0x0D)
    255 < (256 : BitVec 9).toNat ∧ (255 : BitVec 9).toNat ≤ 255 ∧ (abra w8).regs.encState ≠ .active
    ∧ s.regs.encState = .active ∧ cumAt s.regs.cum (0 + 1) = cumAt s.regs.cum 0
    ∧ cumAt s.regs.cum (0x61 + 1) ≠ cumAt s.regs.cum 0x61
    ∧ s.grants (updateBytes 0x61 s).length ∧ ¬ bad.grants (updateBytes 0x61 bad).length := by
  decide +kernel

theorem witness_EncFinishSendsSentinelAndOne :
    let s := answered [.success, .failure] encActive
    let bad := answered [.failure] encActive
    (abra w8).regs.encState ≠ .active ∧ s.regs.encState = .active
    ∧ s.grants (finishBytes s).length ∧ ¬ bad.grants (finishBytes bad).length := by decide +kernel

/-- Also for `UnderflowGrowsByAtMostWMinusOne`. -/
theorem witness_EncodedBitsExtendTheStream :
    encActive.err = .noError ∧ encActive.regs.Inv encActive.width
    ∧ (∃ t, exec (.encUpdate 0x61) encActive = .next t ∧ decide (t.err = .noError) = true)
    ∧ (∃ t, exec .encFinish encActive = .next t ∧ decide (t.err = .noError) = true) :=
  ⟨by decide +kernel, encActive_inv, exists_of_ends (by decide +kernel), exists_of_ends (by decide +kernel)⟩

theorem witness_DecInitPrimesTheCode :
    let s := modify (fun r => { r with brLen := 1, rpos := 5 }) (abra w8)
    let good := answered (List.replicate 3 .success ++ [.failure]) s
    let bad := answered (List.replicate 2 .success ++ [.failure]) s
    (fresh w8).regs.fmState = .openModel ∧ decActive.regs.decState = .active
    ∧ s.regs.fmState = .ready ∧ s.regs.decState ≠ .active
    ∧ good.grants (s.regs.comingReads s.width.bits).length ∧ ¬ bad.grants (s.regs.comingReads s.width.bits).length := by
  decide +kernel

/-- The number of bits that `DEC_NEXT` reads from a state. -/
def nextReads (s : State) : Nat :=
  (s.regs.comingReads (renorm s.width (narrow s.regs.cum s.regs.total s.regs.decInterval
    (lookup s.regs.cum (decValue s.regs.total s.regs.decInterval s.regs.dcode.toNat)))).1.length).length

theorem witness_DecNextDecodesOneSymbol :
    let good := answered (List.replicate 4 .success ++ [.failure]) decActive
    let bad := answered (List.replicate 3 .success ++ [.failure]) decActive
    (abra w8).regs.decState ≠ .active ∧ good.regs.decState = .active
    ∧ good.grants (nextReads good) ∧ ¬ bad.grants (nextReads bad) := by decide +kernel

/-- Row 5 of DE-2 with the update 'c' of EN-4, and row 12 with its finish. -/
theorem witness_EncoderAndDecoderStayInStep :
    let e := encoding w8 0x10 0xA7 1 6 0x0E
    let last := decoding 0x60 0xEF 0xE8 8221
    e.width = decActive.width ∧ e.regs.cum = decActive.regs.cum ∧ e.regs.total = decActive.regs.total
    ∧ e.regs.elow = decActive.regs.dlow ∧ e.regs.ehigh = decActive.regs.dhigh
    ∧ encActive.regs.elow = last.regs.dlow ∧ encActive.regs.ehigh = last.regs.dhigh
    ∧ (∃ t, exec .decNext decActive = .next t ∧ decide (t.err = .noError ∧ t.regs.res.toNat = 0x63) = true)
    ∧ (∃ t, exec (.encUpdate 0x63) e = .next t ∧ decide (t.err = .noError) = true)
    ∧ (∃ t, exec .decNext last = .next t ∧ decide (t.err = .noError ∧ t.regs.res.toNat = 256) = true)
    ∧ (∃ t, exec .encFinish encActive = .next t ∧ decide (t.err = .noError) = true) :=
  ⟨rfl, rfl, rfl, by decide +kernel, by decide +kernel, by decide +kernel, by decide +kernel,
    exists_of_ends (by decide +kernel), exists_of_ends (by decide +kernel),
    exists_of_ends (by decide +kernel), exists_of_ends (by decide +kernel)⟩

/-- EN-6's stream, the sentinel alone, and a stream of two symbols; the decoder has the bytes before it. -/
theorem witness_DecodingReturnsTheEncodedSymbols :
    let d : State := { modify (fun r => { r with brLen := 1025, rpos := 8192 }) (abra w32) with input := [(1024, 0xF0)] }
    (abra w32).err = .noError ∧ (abra w32).regs.fmState = .ready ∧ (abra w32).regs.modelSealed (abra w32).width
    ∧ (abra w32).regs.encState ≠ .active ∧ (abra w32).regs.nacc = 0
    ∧ (∀ b ∈ [(0x63 : Byte), 0x61], (abra w32).regs.count[b.toNat] ≠ 0)
    ∧ (∃ t, execAll ([.encInit] ++ [(0x63 : Byte), 0x61].map (fun b => .encUpdate (b.setWidth 9)) ++ [.encFinish, .bwFinalize])
        (abra w32) = .next t ∧ decide (t.err = .noError) = true)
    ∧ (∃ t, execAll ([.encInit] ++ ([] : List Byte).map (fun b => .encUpdate (b.setWidth 9)) ++ [.encFinish, .bwFinalize])
        (abra w32) = .next t ∧ decide (t.err = .noError ∧ t.out = [0xF0]) = true)
    ∧ d.err = .noError ∧ d.width = (abra w32).width ∧ d.regs.fmState = .ready ∧ d.regs.cum = (abra w32).regs.cum
    ∧ d.regs.total = (abra w32).regs.total ∧ d.regs.decState ≠ .active ∧ (∀ a ∈ d.draws, a = .success)
    ∧ d.regs.rpos = 8 * 1024 ∧ d.regs.brLen.toNat = 1024 + [(0xF0 : Byte)].length
    ∧ (∀ k, (h : k < [(0xF0 : Byte)].length) → d.input.read (1024 + k) = [(0xF0 : Byte)][k]) :=
  ⟨by decide +kernel, by decide +kernel, abra_sealed w32 (by decide +kernel), by decide +kernel, by decide +kernel,
    by decide +kernel, exists_of_ends (by decide +kernel), exists_of_ends (by decide +kernel), by decide +kernel, rfl,
    by decide +kernel, rfl, rfl, by decide +kernel, by decide +kernel, by decide +kernel, by decide +kernel,
    by decide +kernel⟩

/-- States of a run: a model loaded, an encode and a decode under way. -/
theorem witness_StepKeepsTheInvariant :
    (abra w8).Inv ∧ encActive.Inv ∧ decActive.Inv
    ∧ (∃ t, step (asked (.command 0x3900000000000000) decActive) = .next t ∧ decide (t.err = .noError) = true) :=
  ⟨⟨fun _ => ⟨abra_sealed w8 (by decide), by decide +kernel, by decide +kernel, by decide +kernel, by decide +kernel,
      by decide +kernel⟩, by decide +kernel, by decide, by decide, rfl⟩,
    ⟨fun _ => encActive_inv, by decide +kernel, by decide, by decide, rfl⟩,
    ⟨fun _ => decActive_inv, by decide +kernel, by decide +kernel, by decide, rfl⟩,
    exists_of_ends (by decide +kernel)⟩

end Sys2Proof.Tests
end

section
/-! PROOFS. The family `00_scope.md`: the accesses of a command (R12). -/

namespace Sys2Proof.Machine

/-- From `s` to `t` these accesses were made: the part of a `Trace` that an error entry, a reset and `BR_ATTACH`
keep too. -/
structure Accesses (s t : State) (es : List IoEvent) : Prop where
  history : t.history = s.history ++ es
  draws   : t.draws = s.draws.drop es.length
  out     : t.out = s.out ++ es.filterMap IoEvent.sunk
  answers : ∀ k e, es[k]? = some e → e.answer = s.draws.getD k .success

theorem Trace.accesses {s t : State} {es : List IoEvent} (h : Trace s t es) : Accesses s t es :=
  ⟨h.history, h.draws, h.out, h.answers⟩

/-- Only the history, the draws and the sink of the last state matter. -/
theorem Accesses.congr {s t u : State} {es : List IoEvent} (h : Accesses s t es) (history : u.history = t.history)
    (draws : u.draws = t.draws) (out : u.out = t.out) : Accesses s u es :=
  ⟨history.trans h.history, draws.trans h.draws, out.trans h.out, h.answers⟩

theorem AllSucceeded.not_failed {es : List IoEvent} (ok : AllSucceeded es) : ¬ ∃ e ∈ es, e.answer = .failure := by
  rintro ⟨e, he, failed⟩
  exact absurd ((ok e he).symm.trans failed) (by decide)

/-- However a command ended, its accesses are one list, and a failed one among them means `IO_FAILURE`
(60_exceptions.md R244, R245). -/
theorem Ended.accesses {i : Instr} {s t : State} (h : Ended i s t) :
    ∃ es, Accesses s t es ∧ ((∃ e ∈ es, e.answer = .failure) → t.err = .ioFailure ∧ t.errOp = i.opcode) := by
  have nothing : Accesses s s [] := (Trace.refl s).accesses
  cases h with
  | error e reads _ _ trace _ =>
    have ok : AllSucceeded (reads.map fun k => .sourceRead k .success) := by simp [AllSucceeded, IoEvent.answer]
    exact ⟨_, trace.accesses.congr rfl rfl rfl, fun failed => absurd failed ok.not_failed⟩
  | ioFailure u es last trace _ _ => exact ⟨_, trace.accesses.congr rfl rfl rfl, fun _ => ⟨rfl, rfl⟩⟩
  | completed t es trace ok => exact ⟨es, trace.accesses, fun failed => absurd failed ok.not_failed⟩
  | attached len _ => exact ⟨[], nothing.congr rfl rfl rfl, by simp⟩
  | reset _ => exact ⟨[], nothing.congr rfl rfl rfl, by simp⟩

/-- A command that answers `t` ended in `t`. -/
theorem Ended.of_exec {i : Instr} {s t : State} (h : exec i s = .next t) : Ended i s t := by
  obtain ⟨u, hu, ended⟩ := exec_ended i s
  obtain rfl : u = t := Host.Outcome.next.inj (hu.symm.trans h)
  exact ended

/-- Settles O12: the accesses of a command are read off the way it ended. -/
theorem everyAccessTakesADraw : Obligations.EveryAccessTakesADraw := by
  intro s t i h
  obtain ⟨es, ⟨history, draws, out, answers⟩, ends⟩ := (Ended.of_exec h).accesses
  exact ⟨es, history, draws, out, answers, ends⟩

end Sys2Proof.Machine
end

section
/-! PROOFS. The renormalisation as a run of shifts (42_encoder.md R172 to R179): each shift doubles the interval and the code in
it, so a run of `W` shifts leaves no shift to make, and the interval left is wide enough for every sealed model. -/

namespace Sys2Proof.Machine

/-! ## The two shifts as arithmetic (R174) -/

/-- An E1/E2 shift doubles a W-bit value, fills in the bit, and drops the top bit. -/
theorem shiftE12_add_msb (w : Width) {v : Nat} (h : v ≤ mask w) (b : Bool) :
    shiftE12 w v b + (msb w v).toNat * 2 ^ w.bits = 2 * v + b.toNat := by
  have top := mask_succ w
  have two := two_mul_half w
  rw [shiftE12_eq, msb_eq w h]
  by_cases hv : half w ≤ v
  · have rest : v % half w = v - half w := by rw [Nat.mod_eq_sub_mod hv, Nat.mod_eq_of_lt (by omega)]
    simp [hv]
    omega
  · simp [hv, Nat.mod_eq_of_lt (Nat.lt_of_not_le hv)]

/-- An E3 shift doubles the distance from QUARTER of a value in the middle half. -/
theorem shiftE3_add_half (w : Width) {v : Nat} (low : quarter w ≤ v) (high : v < 3 * quarter w) (b : Bool) :
    shiftE3 w v b + half w = 2 * v + b.toNat := by
  have top := mask_succ w
  have two := two_mul_half w
  have four := two_mul_quarter w
  rw [shiftE3_eq, xor_quarter]
  by_cases hv : v < half w
  · rw [secondBit_of_lt_half w hv, if_pos (decide_eq_true low), Nat.mod_eq_of_lt (by omega)]
    omega
  · have rest : (v + quarter w) % half w = v + quarter w - half w := by
      rw [Nat.mod_eq_sub_mod (by omega), Nat.mod_eq_of_lt (by omega)]
    rw [secondBit_of_half_le w (Nat.le_of_not_lt hv) (by omega), if_neg (by simp [high]), rest]
    omega

/-! ## The two conditions by position (R172, R173) -/

theorem Interval.e12_eq_false_iff {w : Width} {iv : Interval} (legal : iv.legal w) :
    iv.e12 w = false ↔ iv.low < half w ∧ half w ≤ iv.high := by
  obtain ⟨order, fits⟩ := legal
  rw [Interval.e12, msb_eq w (order.trans fits), msb_eq w fits, beq_eq_false_iff_ne, ne_eq, decide_eq_decide]
  omega

theorem Interval.e3_iff {w : Width} {iv : Interval} (legal : iv.legal w) (apart : iv.e12 w = false) :
    iv.e3 w = true ↔ quarter w ≤ iv.low ∧ iv.high < 3 * quarter w := by
  obtain ⟨low, high⟩ := (Interval.e12_eq_false_iff legal).mp apart
  simp [Interval.e3, secondBit_of_lt_half w low, secondBit_of_half_le w high legal.2]

/-- Where the top bits of the bounds agree, every value between them has the same top bit. -/
theorem Interval.msb_between {w : Width} {iv : Interval} {v : Nat} (e12 : iv.e12 w = true) (low : iv.low ≤ v)
    (high : v ≤ iv.high) (fits : iv.high ≤ mask w) : msb w v = msb w iv.low := by
  rw [Interval.e12, msb_eq w ((low.trans high).trans fits), msb_eq w fits, beq_iff_eq, decide_eq_decide] at e12
  rw [msb_eq w (high.trans fits), msb_eq w ((low.trans high).trans fits), decide_eq_decide]
  omega

/-- An E1/E2 shift keeps a code between the bounds (43_decoder.md R202). -/
theorem Interval.shiftE12_between {w : Width} {iv : Interval} {v : Nat} (e12 : iv.e12 w = true) (low : iv.low ≤ v)
    (high : v ≤ iv.high) (fits : iv.high ≤ mask w) (b : Bool) :
    (iv.shiftE12 w).low ≤ Machine.shiftE12 w v b ∧ Machine.shiftE12 w v b ≤ (iv.shiftE12 w).high := by
  have same := msb_between e12 low high fits
  have same' := msb_between e12 (low.trans high) (Nat.le_refl _) fits
  have lowEq := shiftE12_add_msb w ((low.trans high).trans fits) false
  have midEq := shiftE12_add_msb w (high.trans fits) b
  have highEq := shiftE12_add_msb w fits true
  have bit := b.toNat_le
  rw [same] at midEq
  rw [same'] at highEq
  simp only [Interval.shiftE12, Bool.toNat_false, Bool.toNat_true] at *
  omega

theorem Interval.shiftE12_legal {w : Width} {iv : Interval} (legal : iv.legal w) (e12 : iv.e12 w = true) :
    (iv.shiftE12 w).legal w ∧ (iv.shiftE12 w).range = 2 * iv.range := by
  obtain ⟨order, fits⟩ := legal
  have same := msb_between e12 order (Nat.le_refl _) fits
  have lowEq := shiftE12_add_msb w (order.trans fits) false
  have highEq := shiftE12_add_msb w fits true
  have bound := shiftE12_le_mask w iv.high true
  rw [same] at highEq
  simp only [Interval.legal, Interval.range, Interval.shiftE12, Bool.toNat_false, Bool.toNat_true] at *
  omega

/-- An E3 shift keeps a code between the bounds (43_decoder.md R203). -/
theorem Interval.shiftE3_between {w : Width} {iv : Interval} {v : Nat} (legal : iv.legal w) (apart : iv.e12 w = false)
    (e3 : iv.e3 w = true) (low : iv.low ≤ v) (high : v ≤ iv.high) (b : Bool) :
    (iv.shiftE3 w).low ≤ Machine.shiftE3 w v b ∧ Machine.shiftE3 w v b ≤ (iv.shiftE3 w).high := by
  obtain ⟨above, below⟩ := (Interval.e3_iff legal apart).mp e3
  have lowEq := shiftE3_add_half w above (by omega) false
  have midEq := shiftE3_add_half w (above.trans low) (by omega) b
  have highEq := shiftE3_add_half w (by omega) below true
  have bit := b.toNat_le
  simp only [Interval.shiftE3, Bool.toNat_false, Bool.toNat_true] at *
  omega

theorem Interval.shiftE3_legal {w : Width} {iv : Interval} (legal : iv.legal w) (apart : iv.e12 w = false)
    (e3 : iv.e3 w = true) :
    (iv.shiftE3 w).legal w ∧ (iv.shiftE3 w).range = 2 * iv.range ∧ (iv.shiftE3 w).e12 w = false := by
  obtain ⟨above, below⟩ := (Interval.e3_iff legal apart).mp e3
  obtain ⟨order, fits⟩ := legal
  have middle := (Interval.e12_eq_false_iff ⟨order, fits⟩).mp apart
  have lowEq := shiftE3_add_half w above (by omega) false
  have highEq := shiftE3_add_half w (by omega) below true
  have bound := shiftE3_le_mask w iv.high true
  have legal' : (iv.shiftE3 w).legal w := by
    simp only [Interval.legal, Interval.shiftE3, Bool.toNat_false, Bool.toNat_true] at *
    omega
  refine ⟨legal', ?_, (Interval.e12_eq_false_iff legal').mpr ?_⟩
  · simp only [Interval.range, Interval.shiftE3, Bool.toNat_false, Bool.toNat_true] at *
    omega
  · have four := two_mul_quarter w
    simp only [Interval.shiftE3, Bool.toNat_false, Bool.toNat_true] at *
    omega

/-! ## Runs of shifts -/

/-- From the first interval these shifts, each made where its condition holds, lead to the second. -/
inductive ShiftRun (w : Width) : Interval → List Shift → Interval → Prop
  | nil (iv : Interval) : ShiftRun w iv [] iv
  | e12 {iv iv' : Interval} {xs : List Shift} (agree : iv.e12 w = true) (rest : ShiftRun w (iv.shiftE12 w) xs iv') :
      ShiftRun w iv (.e12 (msb w iv.low) :: xs) iv'
  | e3 {iv iv' : Interval} {xs : List Shift} (apart : iv.e12 w = false) (near : iv.e3 w = true)
      (rest : ShiftRun w (iv.shiftE3 w) xs iv') : ShiftRun w iv (.e3 :: xs) iv'

theorem ShiftRun.trans {w : Width} {iv iv' iv'' : Interval} {xs ys : List Shift} (h : ShiftRun w iv xs iv')
    (h' : ShiftRun w iv' ys iv'') : ShiftRun w iv (xs ++ ys) iv'' := by
  induction h with
  | nil _ => exact h'
  | e12 agree _ ih => exact .e12 agree (ih h')
  | e3 apart near _ ih => exact .e3 apart near (ih h')

/-- Every shift doubles the interval and keeps it legal. -/
theorem ShiftRun.legal_range {w : Width} {iv iv' : Interval} {xs : List Shift} (h : ShiftRun w iv xs iv')
    (legal : iv.legal w) : iv'.legal w ∧ iv'.range = 2 ^ xs.length * iv.range := by
  induction h with
  | nil _ => exact ⟨legal, by simp⟩
  | e12 agree _ ih =>
    obtain ⟨legal', range⟩ := Interval.shiftE12_legal legal agree
    obtain ⟨last, ranges⟩ := ih legal'
    exact ⟨last, by rw [ranges, range, List.length_cons, Nat.pow_succ, Nat.mul_assoc]⟩
  | e3 apart near _ ih =>
    obtain ⟨legal', range, _⟩ := Interval.shiftE3_legal legal apart near
    obtain ⟨last, ranges⟩ := ih legal'
    exact ⟨last, by rw [ranges, range, List.length_cons, Nat.pow_succ, Nat.mul_assoc]⟩

/-- A code between the bounds stays between them, whatever bits are shifted in (43_decoder.md R205). -/
theorem ShiftRun.code_between {w : Width} {iv iv' : Interval} {xs : List Shift} (h : ShiftRun w iv xs iv')
    (legal : iv.legal w) {bs : List Bool} (len : bs.length = xs.length) {code : Nat} (low : iv.low ≤ code)
    (high : code ≤ iv.high) : iv'.low ≤ shiftedCode w xs bs code ∧ shiftedCode w xs bs code ≤ iv'.high := by
  induction h generalizing bs code with
  | nil _ => exact ⟨low, high⟩
  | e12 agree _ ih =>
    obtain _ | ⟨b, bs⟩ := bs
    · cases len
    · obtain ⟨low', high'⟩ := Interval.shiftE12_between agree low high legal.2 b
      exact ih (Interval.shiftE12_legal legal agree).1 (Nat.succ.inj len) low' high'
  | e3 apart near _ ih =>
    obtain _ | ⟨b, bs⟩ := bs
    · cases len
    · obtain ⟨low', high'⟩ := Interval.shiftE3_between legal apart near low high b
      exact ih (Interval.shiftE3_legal legal apart near).1 (Nat.succ.inj len) low' high'

theorem Interval.range_le {w : Width} {iv : Interval} (legal : iv.legal w) : iv.range ≤ 2 ^ w.bits := by
  have top := mask_succ w
  unfold Interval.legal at legal
  unfold Interval.range
  omega

/-- A run from an interval at least `2^k` wide makes at most `W − k` shifts. -/
theorem ShiftRun.length_add_le {w : Width} {iv iv' : Interval} {xs : List Shift} (h : ShiftRun w iv xs iv')
    (legal : iv.legal w) {k : Nat} (wide : 2 ^ k ≤ iv.range) : xs.length + k ≤ w.bits := by
  obtain ⟨legal', range⟩ := h.legal_range legal
  have bound := Interval.range_le legal'
  rw [range] at bound
  have powers : 2 ^ (xs.length + k) ≤ 2 ^ w.bits := by
    rw [Nat.pow_add]
    exact (Nat.mul_le_mul_left _ wide).trans bound
  exact (Nat.pow_le_pow_iff_right (by decide)).mp powers

/-! ## The two loops are runs, and their bound cuts nothing off (R178) -/

theorem e12Loop_run (w : Width) (n : Nat) (iv : Interval) : ShiftRun w iv (e12Loop w n iv).1 (e12Loop w n iv).2 := by
  induction n generalizing iv with
  | zero => exact .nil iv
  | succ n ih =>
    rw [e12Loop]
    split
    case isTrue agree => exact .e12 agree (ih _)
    case isFalse => exact .nil iv

theorem e3Loop_run {w : Width} (n : Nat) {iv : Interval} (legal : iv.legal w) (apart : iv.e12 w = false) :
    ShiftRun w iv (e3Loop w n iv).1 (e3Loop w n iv).2 ∧ (e3Loop w n iv).2.e12 w = false := by
  induction n generalizing iv with
  | zero => exact ⟨.nil iv, apart⟩
  | succ n ih =>
    rw [e3Loop]
    split
    case isTrue near =>
      obtain ⟨legal', _, apart'⟩ := Interval.shiftE3_legal legal apart near
      obtain ⟨run, last⟩ := ih legal' apart'
      exact ⟨.e3 apart near run, last⟩
    case isFalse => exact ⟨.nil iv, apart⟩

/-- A loop stops where its condition fails, or after as many shifts as it may make. -/
theorem e12Loop_stops (w : Width) (n : Nat) (iv : Interval) :
    (e12Loop w n iv).2.e12 w = false ∨ (e12Loop w n iv).1.length = n := by
  induction n generalizing iv with
  | zero => exact .inr rfl
  | succ n ih =>
    rw [e12Loop]
    split
    case isTrue => exact (ih (iv.shiftE12 w)).imp_right (congrArg Nat.succ)
    case isFalse differ => exact .inl (eq_false_of_ne_true differ)

theorem e3Loop_stops (w : Width) (n : Nat) (iv : Interval) :
    (e3Loop w n iv).2.e3 w = false ∨ (e3Loop w n iv).1.length = n := by
  induction n generalizing iv with
  | zero => exact .inr rfl
  | succ n ih =>
    rw [e3Loop]
    split
    case isTrue => exact (ih (iv.shiftE3 w)).imp_right (congrArg Nat.succ)
    case isFalse far => exact .inl (eq_false_of_ne_true far)

theorem Interval.range_pos (iv : Interval) : 1 ≤ iv.range := Nat.le_add_left 1 _

/-- The E1/E2 loop ends with the top bits apart: after `W` doublings the interval is the full one. -/
theorem e12Loop_apart {w : Width} {iv : Interval} (legal : iv.legal w) : (e12Loop w w.bits iv).2.e12 w = false := by
  refine (e12Loop_stops w w.bits iv).elim id fun all => ?_
  obtain ⟨legal', range⟩ := (e12Loop_run w w.bits iv).legal_range legal
  rw [all] at range
  refine (Interval.e12_eq_false_iff legal').mpr ?_
  have full : 2 ^ w.bits ≤ (e12Loop w w.bits iv).2.range := range ▸ Nat.le_mul_of_pos_right _ iv.range_pos
  have top := mask_succ w
  have two := two_mul_half w
  have pos := half_pos w
  unfold Interval.range at full
  unfold Interval.legal at legal'
  omega

/-- With the top bits apart the interval holds two values, so the E3 loop makes at most `W − 1` shifts. -/
theorem e3Loop_length_lt {w : Width} (n : Nat) {iv : Interval} (legal : iv.legal w) (apart : iv.e12 w = false) :
    (e3Loop w n iv).1.length + 1 ≤ w.bits := by
  refine (e3Loop_run n legal apart).1.length_add_le legal (k := 1) ?_
  have := (Interval.e12_eq_false_iff legal).mp apart
  unfold Interval.range
  omega

theorem e3Loop_done {w : Width} {iv : Interval} (legal : iv.legal w) (apart : iv.e12 w = false) :
    (e3Loop w w.bits iv).2.e3 w = false := by
  refine (e3Loop_stops w w.bits iv).elim id fun all => ?_
  have := e3Loop_length_lt w.bits legal apart
  omega

/-- The renormalisation is a run of shifts, and no shift can follow it (R175, R178). -/
theorem renorm_run {w : Width} {iv : Interval} (legal : iv.legal w) :
    ShiftRun w iv (renorm w iv).1 (renorm w iv).2 ∧ (renorm w iv).2.e12 w = false ∧ (renorm w iv).2.e3 w = false := by
  have first := e12Loop_run w w.bits iv
  have legal' := (first.legal_range legal).1
  have apart := e12Loop_apart legal
  obtain ⟨second, last⟩ := e3Loop_run w.bits legal' apart
  exact ⟨first.trans second, last, e3Loop_done legal' apart⟩

/-- An interval that allows no shift is wide (R179). -/
theorem Interval.wide_of_no_shift {w : Width} {iv : Interval} (legal : iv.legal w) (apart : iv.e12 w = false)
    (far : iv.e3 w = false) : iv.wide w := by
  have four := two_mul_quarter w
  obtain ⟨low, high⟩ := (Interval.e12_eq_false_iff legal).mp apart
  have outside : ¬ (quarter w ≤ iv.low ∧ iv.high < 3 * quarter w) := fun near =>
    absurd ((Interval.e3_iff legal apart).mpr near) (by simp [far])
  unfold Interval.wide Interval.range
  omega

theorem renorm_legal_wide {w : Width} {iv : Interval} (legal : iv.legal w) :
    (renorm w iv).2.legal w ∧ (renorm w iv).2.wide w := by
  obtain ⟨run, apart, far⟩ := renorm_run legal
  have legal' := (run.legal_range legal).1
  exact ⟨legal', Interval.wide_of_no_shift legal' apart far⟩

/-- The number of E3 shifts in a list of shifts. -/
abbrev e3Count (xs : List Shift) : Nat := (xs.filter (· == .e3)).length

theorem e12Loop_e3Count (w : Width) (n : Nat) (iv : Interval) : e3Count (e12Loop w n iv).1 = 0 := by
  induction n generalizing iv with
  | zero => rfl
  | succ n ih =>
    rw [e12Loop]
    split
    case isTrue => exact ih _
    case isFalse => rfl

/-- One renormalisation makes at most `W − 1` E3 shifts (R178). -/
theorem renorm_e3Count_le {w : Width} {iv : Interval} (legal : iv.legal w) : e3Count (renorm w iv).1 ≤ w.bits - 1 := by
  have legal' := ((e12Loop_run w w.bits iv).legal_range legal).1
  have second := e3Loop_length_lt w.bits legal' (e12Loop_apart legal)
  have part := List.length_filter_le (· == Shift.e3) (e3Loop w w.bits (e12Loop w w.bits iv).2).1
  have none := e12Loop_e3Count w w.bits iv
  simp only [e3Count, renorm, List.filter_append, List.length_append] at *
  omega

/-- Only E3 shifts defer bits (R177). -/
theorem codedBits_ufc_le (ufc : Nat) (xs : List Shift) : (codedBits ufc xs).2 ≤ ufc + e3Count xs := by
  induction xs generalizing ufc with
  | nil => exact Nat.le_refl _
  | cons x xs ih =>
    cases x with
    | e12 b => exact (ih 0).trans (Nat.add_le_add_right (Nat.zero_le ufc) _)
    | e3 =>
      have rest := ih (ufc + 1)
      rw [Nat.add_assoc, Nat.add_comm 1] at rest
      exact rest

end Sys2Proof.Machine
end

section
/-! PROOFS. Narrowing to a symbol (42_encoder.md R171) and finding it again from the code (40_frequency_model.md R103, 43_decoder.md
R200, R201), on any cumulative table; and what a sealed model's table is (10_state.md R28). -/

namespace Sys2Proof.Machine

/-! ## Narrowing (R171) -/

/-- A nonempty part of the total takes a nonempty part of an interval at least as wide as the total. -/
theorem narrow_within {cum : Vector Nat 258} {total : Nat} {iv : Interval} {s : Nat} (order : iv.low ≤ iv.high)
    (counted : cumAt cum s < cumAt cum (s + 1)) (top : cumAt cum (s + 1) ≤ total) (fits : total ≤ iv.range) :
    iv.low ≤ (narrow cum total iv s).low ∧ (narrow cum total iv s).low ≤ (narrow cum total iv s).high
      ∧ (narrow cum total iv s).high ≤ iv.high := by
  have pos : 0 < total := by omega
  have apart : cumAt cum s * iv.range / total + 1 ≤ cumAt cum (s + 1) * iv.range / total := by
    rw [← Nat.add_div_right _ pos]
    refine Nat.div_le_div_right ?_
    calc cumAt cum s * iv.range + total ≤ cumAt cum s * iv.range + iv.range := Nat.add_le_add_left fits _
      _ = (cumAt cum s + 1) * iv.range := (Nat.succ_mul _ _).symm
      _ ≤ cumAt cum (s + 1) * iv.range := Nat.mul_le_mul_right _ counted
  have last : cumAt cum (s + 1) * iv.range / total ≤ iv.range :=
    Nat.div_le_of_le_mul (Nat.mul_le_mul_right _ top)
  have size : iv.range = iv.high - iv.low + 1 := rfl
  simp only [narrow]
  generalize cumAt cum s * iv.range / total = start at *
  generalize cumAt cum (s + 1) * iv.range / total = stop at *
  omega

theorem narrow_legal {w : Width} {cum : Vector Nat 258} {total : Nat} {iv : Interval} {s : Nat} (legal : iv.legal w)
    (counted : cumAt cum s < cumAt cum (s + 1)) (top : cumAt cum (s + 1) ≤ total) (fits : total ≤ iv.range) :
    (narrow cum total iv s).legal w := by
  obtain ⟨_, order, high⟩ := narrow_within legal.1 counted top fits
  exact ⟨order, high.trans legal.2⟩

/-! ## Finding the symbol (R103, R200, R201) -/

/-- The search answers a symbol whose sub-interval holds the value, if the range it starts from does and its probes suffice. -/
theorem searchCum_finds (cum : Vector Nat 258) (value : Nat) {n lo hi : Nat} (order : lo < hi) (probes : hi - lo ≤ 2 ^ n)
    (low : cumAt cum lo ≤ value) (high : value < cumAt cum hi) :
    searchCum cum value n lo hi < hi ∧ cumAt cum (searchCum cum value n lo hi) ≤ value
      ∧ value < cumAt cum (searchCum cum value n lo hi + 1) := by
  induction n generalizing lo hi with
  | zero =>
    obtain rfl : hi = lo + 1 := by omega
    exact ⟨order, low, high⟩
  | succ n ih =>
    rw [Nat.pow_succ] at probes
    rw [searchCum]
    split
    case isTrue many =>
      by_cases probe : cumAt cum ((lo + hi) / 2) ≤ value
      · simp only [probe, if_true]
        exact ih (by omega) (by omega) probe high
      · simp only [probe, if_false]
        obtain ⟨below, found⟩ := ih (lo := lo) (hi := (lo + hi) / 2) (by omega) (by omega) low (by omega)
        exact ⟨by omega, found⟩
    case isFalse one =>
      obtain rfl : hi = lo + 1 := by omega
      exact ⟨order, low, high⟩

theorem lookup_finds {cum : Vector Nat 258} {value : Nat} (first : cumAt cum 0 = 0) (below : value < cumAt cum 257) :
    lookup cum value ≤ 256 ∧ cumAt cum (lookup cum value) ≤ value ∧ value < cumAt cum (lookup cum value + 1) := by
  obtain ⟨bound, found⟩ := searchCum_finds cum value (n := 9) (lo := 0) (hi := 257) (by omega) (by omega)
    (by omega) below
  exact ⟨Nat.le_of_lt_succ bound, found⟩

/-- The value of a code in the interval is below the total (R200). -/
theorem decValue_lt {total : Nat} {iv : Interval} {code : Nat} (pos : 0 < total) (low : iv.low ≤ code)
    (high : code ≤ iv.high) : decValue total iv code < total := by
  have inside : (code - iv.low + 1) * total ≤ total * iv.range := by
    rw [Nat.mul_comm total]
    exact Nat.mul_le_mul_right _ (by unfold Interval.range; omega)
  have one : 1 ≤ (code - iv.low + 1) * total := Nat.mul_pos (Nat.succ_pos _) pos
  rw [decValue, Nat.div_lt_iff_lt_mul iv.range_pos]
  omega

/-- The sub-interval of the symbol whose part of the total holds the value holds the code (R201). -/
theorem narrow_holds_code {cum : Vector Nat 258} {total : Nat} {iv : Interval} {code s : Nat} (pos : 0 < total)
    (low : iv.low ≤ code) (above : cumAt cum s ≤ decValue total iv code)
    (below : decValue total iv code < cumAt cum (s + 1)) :
    (narrow cum total iv s).low ≤ code ∧ code ≤ (narrow cum total iv s).high := by
  have one : 1 ≤ (code - iv.low + 1) * total := Nat.mul_pos (Nat.succ_pos _) pos
  unfold decValue at above below
  rw [Nat.le_div_iff_mul_le iv.range_pos] at above
  rw [Nat.div_lt_iff_lt_mul iv.range_pos] at below
  have start : cumAt cum s * iv.range / total < code - iv.low + 1 := by
    rw [Nat.div_lt_iff_lt_mul pos]
    omega
  have last : code - iv.low + 1 ≤ cumAt cum (s + 1) * iv.range / total := by
    rw [Nat.le_div_iff_mul_le pos]
    omega
  simp only [narrow]
  omega

/-! ## Sealed models (10_state.md R28) -/

/-- The table of a sealed model: the sums of its counts, the last of them `TOTAL` and within the budget. -/
structure SealedTable (w : Width) (r : Regs) : Prop where
  cumAt_eq : ∀ i, i < 258 → cumAt r.cum i = countsBelow r.count i
  total_eq : r.total = countsBelow r.count 257
  budget   : r.total ≤ maxTotal w

theorem SealedTable.of_ready {w : Width} {r : Regs} (h : r.modelSealed w) (ready : r.fmState = .ready) :
    SealedTable w r := by
  obtain ⟨table, total, budget⟩ := h ready
  refine ⟨fun i hi => ?_, ?_, budget⟩
  · rw [table, cumAt_cumTable _ _ hi]
  · rw [total, table, cumTable_getElem]

theorem modelSealed_commitTable {w : Width} (r : Regs) (budget : countsBelow r.count 257 ≤ maxTotal w) :
    (r.commitTable (cumTable r.count)).modelSealed w := fun _ =>
  ⟨rfl, rfl, by rwa [Regs.commitTable_total, cumTable_getElem]⟩

section
variable {w : Width} {r : Regs} (table : SealedTable w r)
include table

theorem SealedTable.total_pos : 0 < r.total := by
  rw [table.total_eq, countsBelow_total]
  omega

theorem SealedTable.cumAt_zero : cumAt r.cum 0 = 0 := table.cumAt_eq 0 (by omega)

theorem SealedTable.cumAt_last : cumAt r.cum 257 = r.total := (table.cumAt_eq 257 (by omega)).trans table.total_eq.symm

theorem SealedTable.cumAt_le_total {i : Nat} (hi : i < 258) : cumAt r.cum i ≤ r.total := by
  rw [table.cumAt_eq i hi, table.total_eq]
  exact countsBelow_mono _ (Nat.le_of_lt_succ hi)

/-- A symbol whose ends in the table differ has a part of the total. -/
theorem SealedTable.counted_of_ne {i : Nat} (hi : i < 257) (differ : cumAt r.cum (i + 1) ≠ cumAt r.cum i) :
    cumAt r.cum i < cumAt r.cum (i + 1) := by
  refine Nat.lt_of_le_of_ne ?_ differ.symm
  rw [table.cumAt_eq i (by omega), table.cumAt_eq (i + 1) (by omega)]
  exact countsBelow_mono _ (Nat.le_succ i)

/-- The sentinel always has its part of the total. -/
theorem SealedTable.sentinel_counted : cumAt r.cum sentinel < cumAt r.cum (sentinel + 1) := by
  rw [table.cumAt_eq _ (by decide), table.cumAt_eq _ (by decide), countsBelow_total]
  exact Nat.lt_succ_self _

/-- A sealed total fits every wide interval (42_encoder.md R179). -/
theorem SealedTable.total_le_range {iv : Interval} (wide : iv.wide w) : r.total ≤ iv.range := by
  have budget := table.budget
  unfold Interval.wide at wide
  unfold maxTotal at budget
  omega

/-- A wide interval can be narrowed to every counted symbol. -/
theorem SealedTable.narrow_legal {iv : Interval} (legal : iv.legal w) (wide : iv.wide w) {s : Nat} (hs : s ≤ 256)
    (counted : cumAt r.cum s < cumAt r.cum (s + 1)) : (narrow r.cum r.total iv s).legal w :=
  Machine.narrow_legal legal counted (table.cumAt_le_total (by omega)) (table.total_le_range wide)

/-- The decoder's symbol has a part of the total, and its sub-interval holds the code (43_decoder.md R201, R204). -/
theorem SealedTable.decoded_symbol {iv : Interval} {code : Nat} (low : iv.low ≤ code) (high : code ≤ iv.high) :
    let sym := lookup r.cum (decValue r.total iv code)
    sym ≤ 256 ∧ cumAt r.cum sym < cumAt r.cum (sym + 1)
      ∧ (narrow r.cum r.total iv sym).low ≤ code ∧ code ≤ (narrow r.cum r.total iv sym).high := by
  have value := decValue_lt table.total_pos low high
  obtain ⟨bound, above, below⟩ := lookup_finds table.cumAt_zero (value.trans_eq table.cumAt_last.symm)
  exact ⟨bound, above.trans_lt below, narrow_holds_code table.total_pos low above below⟩

end

end Sys2Proof.Machine
end

section
/-! PROOFS. What a completed command did to the registers, said once for each command; and what a step can do. -/

namespace Sys2Proof.Machine

/-! ## Taking a completed run of checks and accesses apart -/

/-- A command that completed passed its check. -/
theorem passed_check {c : Prop} [Decidable c] {e : ErrCode} {op : BitVec 8} {s t : State} {x : Result}
    (no : e ≠ .noError) (h : (if c then raise e op s else x) = .next t) (completed : t.err = .noError) :
    ¬ c ∧ x = .next t := by
  by_cases hc : c
  · rw [if_pos hc] at h
    cases h
    exact absurd completed no
  · exact ⟨hc, by rwa [if_neg hc] at h⟩

/-- The check of a command that needs a sealed model. -/
theorem Regs.ready_of_passed {r : Regs} {busy : Bool} (passed : ¬ (!r.fmReady || busy) = true) : r.fmState = .ready := by
  rw [Bool.or_eq_true, not_or, Bool.not_eq_true', Bool.not_eq_false] at passed
  exact r.fmReady_iff.mp passed.1

theorem Access.done_of_finish {α : Type} {op : BitVec 8} {x : Access α} {t : State} (h : x.finish op = .next t)
    (completed : t.err = .noError) : ∃ a, x = .done a t := by
  cases x with
  | done a s =>
    cases h
    exact ⟨a, rfl⟩
  | ioFailed s =>
    cases h
    cases completed

theorem Access.done_of_andThen {α β : Type} {x : Access α} {f : α → State → Access β} {b : β} {u : State}
    (h : x.andThen f = .done b u) : ∃ a t, x = .done a t ∧ f a t = .done b u := by
  cases x with
  | done a t => exact ⟨a, t, rfl, h⟩
  | ioFailed t => cases h

theorem Access.done_of_thenRegs {α : Type} {x : Access α} {f : α → Regs → Regs} {a : α} {u : State}
    (h : x.thenRegs f = .done a u) : ∃ t, x = .done a t ∧ u.regs = f a t.regs := by
  obtain ⟨b, t, ht, h⟩ := Access.done_of_andThen h
  cases h
  exact ⟨t, ht, rfl⟩

/-! ## The coders' registers after a symbol -/

/-- The shifts and the interval of encoding a symbol (42_encoder.md R175). -/
abbrev Regs.encoded (w : Width) (r : Regs) (sym : Nat) : List Shift × Interval :=
  renorm w (narrow r.cum r.total r.encInterval sym)

/-- The symbol the decoder reads (43_decoder.md R204). -/
abbrev Regs.decodedSymbol (r : Regs) : Nat := lookup r.cum (currentValue r)

/-- The shifts and the interval of decoding it. -/
abbrev Regs.decoded (w : Width) (r : Regs) : List Shift × Interval :=
  renorm w (narrow r.cum r.total r.decInterval r.decodedSymbol)

/-- Encoding a symbol turned `r` into `r'` and left the encoder in the state `st`. -/
structure Regs.Encodes (w : Width) (r r' : Regs) (sym : Nat) (st : EncState) : Prop where
  regs   : r' = { r.setEncInterval (r.encoded w sym).2 with
                    acc := r'.acc, nacc := r'.nacc, ufc := (codedBits r.ufc (r.encoded w sym).1).2, encState := st }
  writer : r.writerLegal → r'.writerLegal

/-- Decoding a symbol turned `r` into `r'`, with these bits shifted into the code, and left `RES` and the decoder's state so. -/
structure Regs.Decodes (w : Width) (r r' : Regs) (bits : List Bool) (res : Word) (st : DecState) : Prop where
  regs   : r' = { r.setDecInterval (r.decoded w).2 with
                    dcode := toReg (shiftedCode w (r.decoded w).1 bits r.dcode.toNat)
                    rpos := r'.rpos, res := res, decState := st }
  length : bits.length = (r.decoded w).1.length
  reader : r.readerLegal → r'.readerLegal

theorem encodeSymbol_encodes {sym : Nat} {s t : State} {a : Unit} (h : encodeSymbol sym s = .done a t) :
    s.regs.Encodes s.width t.regs sym s.regs.encState := by
  unfold encodeSymbol at h
  obtain ⟨u, hu, regs⟩ := Access.done_of_thenRegs h
  obtain ⟨only, ufc, -, legal⟩ := encShifts_regs _ s u hu
  rw [regs]
  refine ⟨?_, legal⟩
  unfold Regs.onlyWriter at only
  rw [only, ← ufc]
  rfl

theorem decodeSymbol_decodes {s t : State} {sym : Nat} (h : decodeSymbol s = .done sym t) :
    sym = s.regs.decodedSymbol ∧ ∃ bits, s.regs.Decodes s.width t.regs bits s.regs.res s.regs.decState := by
  obtain ⟨_, u, hu, h⟩ := Access.done_of_andThen h
  obtain ⟨v, hv, regs⟩ := Access.done_of_thenRegs hu
  cases h
  rw [decShifts_eq_codeLoop] at hv
  obtain ⟨only, -, legal, bits, length, code⟩ := codeLoop_regs s.width _ (fun g hg x b => by
    obtain ⟨y, _, rfl⟩ := List.mem_map.mp hg
    exact shiftCode_le_mask s.width y x b) s v hv
  rw [codeAfter_shiftCode] at code
  rw [List.length_map] at length
  refine ⟨rfl, bits, ?_, length, ?_⟩
  · unfold Regs.onlyReader at only
    rw [regs, only, code]
    rfl
  · rw [regs]
    exact legal

/-- A code that every round keeps within W bits stays within them. -/
theorem codeAfter_le {m : Nat} {gs : List (Nat → Bool → Nat)} (fits : ∀ g ∈ gs, ∀ v b, g v b ≤ m) (bs : List Bool)
    {code : Nat} (h : code ≤ m) : codeAfter gs bs code ≤ m := by
  induction gs generalizing bs code with
  | nil => exact h
  | cons g gs ih =>
    cases bs with
    | nil => exact h
    | cons b bs => exact ih (fun g hg => fits g (List.mem_cons_of_mem _ hg)) bs (fits g List.mem_cons_self code b)

/-- Priming changes the reader and the code only, and the code is a W-bit value (43_decoder.md R206). -/
theorem prime_regs {s t : State} {a : Unit} (h : prime s = .done a t) :
    s.regs.onlyReader t.regs ∧ (s.regs.readerLegal → t.regs.readerLegal) ∧ t.regs.dcode.toNat ≤ mask s.width := by
  have fits : ∀ g ∈ List.replicate s.width.bits (shiftE12 s.width), ∀ v b, g v b ≤ mask s.width := fun g hg v b => by
    rw [List.eq_of_mem_replicate hg]
    exact shiftE12_le_mask s.width v b
  rw [prime, primeBits_eq_codeLoop] at h
  obtain ⟨only, -, legal, bits, -, code⟩ := codeLoop_regs s.width _ fits _ t h
  have bound := codeAfter_le fits bits (Nat.zero_le (mask s.width))
  refine ⟨?_, legal, ?_⟩
  · unfold Regs.onlyReader at only ⊢
    rw [only]
    rfl
  · rw [code]
    exact (toReg_toNat bound).trans_le bound

/-! ## The registers after a completed command -/

/-- The registers `r'` in which the command leaves `r` when it completes, and what its checks made sure of. -/
def Regs.After (w : Width) (r r' : Regs) : Instr → Prop
  | .nop | .fmWriteHeader | .bwWriteRawByte _ => r' = r
  | .coreReset => r' = Regs.reset w
  | .fmReset => r.coderActive = false ∧ r' = { r with count := Vector.replicate 256 0, fmState := .openModel }
  | .fmCount byte =>
    r.coderActive = false ∧ r' = r.writeCount byte.toNat (saturatingSucc r.count[byte.toNat])
  | .fmSetcount sym count => sym.toNat ≤ 255 ∧ r.coderActive = false ∧ r' = r.writeCount sym.toNat count
  | .fmSeal _ =>
    r.coderActive = false ∧ countsBelow r.count 257 ≤ maxTotal w ∧ r' = r.commitTable (cumTable r.count)
  | .fmReadHeader =>
    r.coderActive = false ∧ r.rpos + 8 * headerBytesLen ≤ r.inputBits
    ∧ ∃ counts, countsBelow counts 257 ≤ maxTotal w
      ∧ r' = { r.commitTable (cumTable counts) with count := counts, rpos := r.rpos + 8 * headerBytesLen }
  | .fmGetcount _ | .fmGetlow _ | .fmGethigh _ | .fmGettotal | .fmLookup _ => r' = { r with res := r'.res }
  | .bwWriteBit _ => r.onlyWriter r' ∧ r'.ufc = r.ufc ∧ (r.writerLegal → r'.writerLegal)
  | .bwFinalize =>
    r' = { r with finBits := r'.finBits, acc := r'.acc, nacc := r'.nacc } ∧ (r.writerLegal → r'.writerLegal)
  | .brAttach len => r.decState ≠ .active ∧ r' = { r with brLen := len, rpos := 0 }
  | .brReadBit => r' = { r with res := r'.res, rpos := r'.rpos } ∧ (r.readerLegal → r'.readerLegal)
  | .encInit =>
    r.fmState = .ready ∧ r' = { r.setEncInterval (fullInterval w) with ufc := 0, encState := .active }
  | .encUpdate sym =>
    sym.toNat ≤ 255 ∧ r.encState = .active ∧ cumAt r.cum (sym.toNat + 1) ≠ cumAt r.cum sym.toNat
    ∧ r.Encodes w r' sym.toNat .active
  | .encFinish => r.encState = .active ∧ r.Encodes w r' sentinel .flushed
  | .decInit =>
    r.fmState = .ready ∧ r'.dcode.toNat ≤ mask w ∧ (r.readerLegal → r'.readerLegal)
    ∧ r' = { r.setDecInterval (fullInterval w) with dcode := r'.dcode, rpos := r'.rpos, decState := .active }
  | .decNext =>
    r.decState = .active
    ∧ ∃ bits, r.Decodes w r' bits (BitVec.ofNat 32 r.decodedSymbol) (decStateAfter r.decodedSymbol .active)

/-- Sealing that ends without an error found the counts within the budget (40_frequency_model.md R104). -/
theorem sealTable_completed {w : Width} {counts : Vector Word 256} {e : ErrCode} {op : BitVec 8} {s t : State}
    {commit : Vector Nat 258 → Result} (no : e ≠ .noError)
    (h : (match sealTable w counts e with | .error e => raise e op s | .ok table => commit table) = .next t)
    (completed : t.err = .noError) : countsBelow counts 257 ≤ maxTotal w ∧ commit (cumTable counts) = .next t := by
  obtain ⟨-, refused⟩ | ⟨budget, accepted⟩ := sealTable_cases w counts e
  · rw [refused] at h
    cases h
    exact absurd completed no
  · rw [accepted] at h
    exact ⟨budget, h⟩

theorem commitHeader_completed {counts : Vector Word 256} {s t : State} (h : commitHeader counts s = .next t)
    (completed : t.err = .noError) :
    countsBelow counts 257 ≤ maxTotal s.width
      ∧ t.regs = { s.regs.commitTable (cumTable counts) with
                     count := counts, rpos := s.regs.rpos + 8 * headerBytesLen } := by
  obtain ⟨budget, h⟩ := sealTable_completed (by decide) h completed
  cases h
  exact ⟨budget, rfl⟩

theorem execFmReadHeader_after {s t : State} (h : execFmReadHeader s = .next t) (completed : t.err = .noError) :
    s.regs.After s.width t.regs .fmReadHeader := by
  unfold execFmReadHeader at h
  obtain ⟨idle, h⟩ := passed_check (by decide) h completed
  obtain ⟨aligned, h⟩ := passed_check (by decide) h completed
  obtain ⟨room, h⟩ := passed_check (by decide) h completed
  have fits : s.regs.rpos + 8 * headerBytesLen ≤ s.regs.inputBits := by
    unfold Regs.inputBits
    omega
  refine ⟨eq_false_of_ne_true idle, fits, ?_⟩
  cases read : sourceReadMany headerBytesLen (s.regs.rpos / 8) s with
  | ioFailed u =>
    rw [read] at h
    cases h
    cases completed
  | done bytes u =>
    obtain ⟨regs, width⟩ := sourceReadMany_regs _ _ s u bytes read
    rw [read] at h
    obtain ⟨budget, committed⟩ := commitHeader_completed h completed
    exact ⟨_, width ▸ budget, by rw [committed, regs]⟩

theorem execBwFinalize_after {s t : State} (h : execBwFinalize s = .next t) (completed : t.err = .noError) :
    s.regs.After s.width t.regs .bwFinalize := by
  obtain ⟨-, h⟩ := passed_check (by decide) h completed
  split at h
  · obtain ⟨_, h⟩ := Access.done_of_finish h completed
    obtain ⟨u, hu, regs⟩ := Access.done_of_thenRegs h
    obtain ⟨same, -⟩ := sinkWrite_regs _ s u hu
    rw [same] at regs
    rw [regs]
    exact ⟨rfl, fun _ => by simp [Regs.writerLegal]⟩
  · cases h
    exact ⟨rfl, id⟩

theorem execBrReadBit_after {s t : State} (h : execBrReadBit s = .next t) (completed : t.err = .noError) :
    s.regs.After s.width t.regs .brReadBit := by
  obtain ⟨-, h⟩ := passed_check (by decide) h completed
  obtain ⟨bit, h⟩ := Access.done_of_finish h completed
  obtain ⟨u, hu, regs⟩ := Access.done_of_thenRegs h
  obtain ⟨moved, -, legal⟩ := nextBit_regs s u bit hu
  rw [regs]
  exact ⟨by rw [moved], legal⟩

theorem execEncFinish_after {s t : State} (h : execEncFinish s = .next t) (completed : t.err = .noError) :
    s.regs.After s.width t.regs .encFinish := by
  obtain ⟨active, h⟩ := passed_check (by decide) h completed
  obtain ⟨_, h⟩ := Access.done_of_finish h completed
  obtain ⟨v, hv, regs⟩ := Access.done_of_thenRegs h
  obtain ⟨_, u, hu, hv⟩ := Access.done_of_andThen hv
  obtain ⟨encoded, legal⟩ := encodeSymbol_encodes hu
  obtain ⟨only, ufc, -, legal'⟩ := emitBit_regs true u v hv
  refine ⟨not_not.mp active, ?_⟩
  rw [regs]
  refine ⟨?_, legal' ∘ legal⟩
  unfold Regs.onlyWriter at only
  rw [only, ufc, encoded]

theorem execDecInit_after {s t : State} (h : execDecInit s = .next t) (completed : t.err = .noError) :
    s.regs.After s.width t.regs .decInit := by
  obtain ⟨allowed, h⟩ := passed_check (by decide) h completed
  obtain ⟨_, h⟩ := Access.done_of_finish h completed
  obtain ⟨u, hu, regs⟩ := Access.done_of_thenRegs h
  obtain ⟨only, legal, bound⟩ := prime_regs hu
  rw [regs]
  refine ⟨Regs.ready_of_passed allowed, bound, legal, ?_⟩
  unfold Regs.onlyReader at only
  rw [only]
  rfl

theorem execDecNext_after {s t : State} (h : execDecNext s = .next t) (completed : t.err = .noError) :
    s.regs.After s.width t.regs .decNext := by
  obtain ⟨active, h⟩ := passed_check (by decide) h completed
  obtain ⟨sym, h⟩ := Access.done_of_finish h completed
  obtain ⟨u, hu, regs⟩ := Access.done_of_thenRegs h
  obtain ⟨rfl, bits, decoded, length, legal⟩ := decodeSymbol_decodes hu
  have active := not_not.mp active
  rw [regs]
  refine ⟨active, bits, ?_, length, legal⟩
  rw [decoded, active]

/-- What each command did to the registers when it completed. -/
theorem exec_after {i : Instr} {s t : State} (h : exec i s = .next t) (completed : t.err = .noError) :
    s.regs.After s.width t.regs i := by
  cases i with
  | nop | coreReset =>
    cases h
    rfl
  | fmReset | fmCount _ =>
    obtain ⟨idle, h⟩ := passed_check (by decide) h completed
    cases h
    exact ⟨eq_false_of_ne_true idle, rfl⟩
  | fmSetcount sym count =>
    obtain ⟨isByte, h⟩ := passed_check (by decide) h completed
    obtain ⟨idle, h⟩ := passed_check (by decide) h completed
    cases h
    exact ⟨by simpa [isByteSymbol] using isByte, eq_false_of_ne_true idle, rfl⟩
  | fmSeal src =>
    obtain ⟨idle, h⟩ := passed_check (by decide) h completed
    obtain ⟨budget, h⟩ := sealTable_completed (by cases src <;> decide) h completed
    cases h
    exact ⟨eq_false_of_ne_true idle, budget, rfl⟩
  | fmGetcount _ | fmGettotal =>
    obtain ⟨-, h⟩ := passed_check (by decide) h completed
    cases h
    rfl
  | fmGetlow _ | fmGethigh _ | fmLookup _ =>
    obtain ⟨-, h⟩ := passed_check (by decide) h completed
    obtain ⟨-, h⟩ := passed_check (by decide) h completed
    cases h
    rfl
  | fmWriteHeader =>
    obtain ⟨-, h⟩ := passed_check (by decide) h completed
    obtain ⟨-, h⟩ := passed_check (by decide) h completed
    obtain ⟨_, h⟩ := Access.done_of_finish h completed
    exact (emitRawBytes_regs _ s t h).1
  | fmReadHeader => exact execFmReadHeader_after h completed
  | bwWriteBit bit =>
    obtain ⟨-, h⟩ := passed_check (by decide) h completed
    obtain ⟨_, h⟩ := Access.done_of_finish h completed
    obtain ⟨only, ufc, -, legal⟩ := emitBit_regs bit s t h
    exact ⟨only, ufc, legal⟩
  | bwWriteRawByte byte =>
    obtain ⟨-, h⟩ := passed_check (by decide) h completed
    obtain ⟨-, h⟩ := passed_check (by decide) h completed
    obtain ⟨_, h⟩ := Access.done_of_finish h completed
    exact (sinkWrite_regs byte s t h).1
  | bwFinalize => exact execBwFinalize_after h completed
  | brAttach len =>
    obtain ⟨idle, h⟩ := passed_check (by decide) h completed
    cases h
    exact ⟨idle, rfl⟩
  | brReadBit => exact execBrReadBit_after h completed
  | encInit =>
    obtain ⟨allowed, h⟩ := passed_check (by decide) h completed
    cases h
    exact ⟨Regs.ready_of_passed allowed, rfl⟩
  | encUpdate sym =>
    obtain ⟨isByte, h⟩ := passed_check (by decide) h completed
    obtain ⟨active, h⟩ := passed_check (by decide) h completed
    obtain ⟨counted, h⟩ := passed_check (by decide) h completed
    obtain ⟨_, h⟩ := Access.done_of_finish h completed
    have active := not_not.mp active
    exact ⟨by simpa [isByteSymbol] using isByte, active, counted, active ▸ encodeSymbol_encodes h⟩
  | encFinish => exact execEncFinish_after h completed
  | decInit => exact execDecInit_after h completed
  | decNext => exact execDecNext_after h completed

end Sys2Proof.Machine
end

section
/-! PROOFS. The family `10_state.md`: what a step can do, and what every step keeps. -/

namespace Sys2Proof.Machine

/-! ## What a step can do (70_reset_and_hazards.md R282, R283; 60_exceptions.md R242, R243) -/

/-- The state `t` in which one step leaves the state `s`. -/
inductive Stepped (s : State) : State → Prop
  | idle (empty : s.queue = []) : Stepped s s
  | presented (bytes : List Byte) (rest : List HostAction) (waiting : s.queue = .present bytes :: rest) :
      Stepped s (presentInput bytes (s.withQueue rest))
  | portRead (addr : BitVec 4) (rest : List HostAction) (waiting : s.queue = .readPort addr :: rest) :
      Stepped s (readPort addr (s.withQueue rest))
  | resetInput (rest : List HostAction) (waiting : s.queue = .resetInput :: rest) :
      Stepped s (resetAll (s.withQueue rest))
  | refused (w : Cmd) (rest : List HostAction) (waiting : s.queue = .command w :: rest) (error : s.err ≠ .noError) :
      Stepped s (s.withQueue rest)
  | illegal (w : Cmd) (rest : List HostAction) (waiting : s.queue = .command w :: rest) (clean : s.err = .noError) :
      Stepped s (errorEntry .illegalCommand (opField w) (s.withQueue rest))
  | ran (w : Cmd) (rest : List HostAction) (i : Instr) (t : State) (waiting : s.queue = .command w :: rest)
      (read : decode w = some i) (allowed : s.err = .noError ∨ i = .coreReset)
      (run : exec i (s.withQueue rest) = .next t) : Stepped s t

theorem stepCommand_stepped {s t : State} {w : Cmd} {rest : List HostAction} (waiting : s.queue = .command w :: rest)
    (h : stepCommand w (s.withQueue rest) = .next t) : Stepped s t := by
  obtain ⟨error, -, refuse⟩ | ⟨allowed, i, read, run⟩ | ⟨clean, -, illegal⟩ := stepCommand_cases w (s.withQueue rest)
  · cases refuse.symm.trans h
    exact .refused w rest waiting error
  · refine .ran w rest i t waiting read (allowed.imp_right ?_) (run.symm.trans h)
    rintro rfl
    exact Option.some.inj (read.symm.trans decode_coreResetWord)
  · cases illegal.symm.trans h
    exact .illegal w rest waiting clean

theorem step_stepped {s t : State} (h : step s = .next t) : Stepped s t := by
  unfold step at h
  split at h
  case h_1 empty =>
    cases h
    exact .idle empty
  case h_2 w rest waiting => exact stepCommand_stepped waiting h
  case h_3 bytes rest waiting =>
    cases h
    exact .presented bytes rest waiting
  case h_4 addr rest waiting =>
    cases h
    exact .portRead addr rest waiting
  case h_5 rest waiting =>
    cases h
    exact .resetInput rest waiting

/-! ## What every command keeps -/

theorem Ended.width {i : Instr} {s t : State} (h : Ended i s t) : t.width = s.width := by
  cases h with
  | error => rfl
  | ioFailure u es last trace _ _ => exact trace.width
  | completed t es trace _ => exact trace.width
  | attached => rfl
  | reset => rfl

/-- `ERR_OP` stays 0 without an error (10_state.md R21). -/
theorem Ended.errOp_zero {i : Instr} {s t : State} (h : Ended i s t) (clear : s.err = .noError → s.errOp = 0) :
    t.err = .noError → t.errOp = 0 := by
  cases h with
  | error e reads no _ _ _ => exact fun clean => absurd clean no
  | ioFailure => nofun
  | completed t es trace _ => rwa [trace.err, trace.errOp]
  | attached => exact clear
  | reset => exact fun _ => rfl

/-- The memories stay canonical (log 3). -/
theorem Ended.memories_wf {i : Instr} {s t : State} (h : Ended i s t) (input : Memory.wf s.input)
    (presented : Memory.wf s.presented) : Memory.wf t.input ∧ Memory.wf t.presented := by
  cases h with
  | error => exact ⟨input, presented⟩
  | ioFailure u es last trace _ _ => exact ⟨trace.input ▸ input, trace.presented ▸ presented⟩
  | completed t es trace _ => exact ⟨trace.input ▸ input, trace.presented ▸ presented⟩
  | attached len _ => exact ⟨Memory.restrict_wf _ _ presented, presented⟩
  | reset => exact ⟨input, presented⟩

/-- The sink stays what the history wrote (20_memory.md R52). -/
theorem Ended.sink_is_history {i : Instr} {s t : State} (h : Ended i s t)
    (sink : s.out = s.history.filterMap IoEvent.sunk) : t.out = t.history.filterMap IoEvent.sunk := by
  obtain ⟨es, ⟨history, -, out, -⟩, -⟩ := h.accesses
  rw [out, history, List.filterMap_append, sink]

/-- A precise error leaves the registers as they were (60_exceptions.md R244). -/
theorem Ended.regs_of_precise_error {i : Instr} {s t : State} (h : Ended i s t) (clean : s.err = .noError)
    (error : t.err ≠ .noError) (precise : t.err ≠ .ioFailure) : t.regs = s.regs := by
  cases h with
  | error => rfl
  | ioFailure => exact absurd rfl precise
  | completed t es trace _ => exact absurd (trace.err.trans clean) error
  | attached => exact absurd clean error
  | reset => exact absurd rfl error

/-! ## The registers' invariant -/

theorem fullInterval_legal_wide (w : Width) : (fullInterval w).legal w ∧ (fullInterval w).wide w := by
  have top := mask_succ w
  have two := two_mul_half w
  have four := two_mul_quarter w
  have pos := quarter_pos w
  refine ⟨⟨Nat.zero_le _, Nat.le_refl _⟩, ?_⟩
  simp only [Interval.wide, Interval.range, fullInterval]
  omega

/-- A legal interval survives the registers (log 1). -/
theorem Interval.toReg_eq {w : Width} {iv : Interval} (legal : iv.legal w) :
    (⟨(toReg iv.low).toNat, (toReg iv.high).toNat⟩ : Interval) = iv := by
  rw [toReg_toNat legal.2, toReg_toNat (legal.1.trans legal.2)]

theorem Regs.encInterval_setEncInterval_of_legal {w : Width} {iv : Interval} (legal : iv.legal w) (r : Regs) :
    (r.setEncInterval iv).encInterval = iv := Interval.toReg_eq legal

theorem Regs.decInterval_setDecInterval_of_legal {w : Width} {iv : Interval} (legal : iv.legal w) (r : Regs) :
    (r.setDecInterval iv).decInterval = iv := Interval.toReg_eq legal

theorem Regs.reset_inv (w : Width) : (Regs.reset w).Inv w := by
  have bound := resetBound_toNat w
  refine ⟨nofun, nofun, ⟨⟨Nat.zero_le _, bound.le⟩, nofun⟩, ⟨⟨Nat.zero_le _, bound.le⟩, ?_, ?_, nofun⟩, ?_, ?_⟩
  · exact Nat.le_refl _
  · exact Nat.zero_le _
  · exact Nat.zero_lt_one
  · exact Nat.zero_le _

/-- An active coder has a sealed model (40_frequency_model.md R105). -/
theorem Regs.Inv.sealedTable {w : Width} {r : Regs} (inv : r.Inv w) (active : r.encState = .active ∨ r.decState = .active) :
    r.fmState = .ready ∧ SealedTable w r := by
  obtain ⟨sealed, hasModel, -⟩ := inv
  have ready := hasModel ((Regs.coderActive_iff r).mpr active)
  exact ⟨ready, .of_ready sealed ready⟩

/-- An active encoder can narrow its interval to every counted symbol (42_encoder.md R171, R179). -/
theorem Regs.Inv.narrow_encInterval {w : Width} {r : Regs} (inv : r.Inv w) (active : r.encState = .active) {sym : Nat}
    (hs : sym ≤ 256) (counted : SealedTable w r → cumAt r.cum sym < cumAt r.cum (sym + 1)) :
    (narrow r.cum r.total r.encInterval sym).legal w := by
  obtain ⟨-, table⟩ := Regs.Inv.sealedTable inv (.inl active)
  obtain ⟨-, -, ⟨legal, wide⟩, -⟩ := inv
  exact table.narrow_legal legal (wide active) hs (counted table)

/-- Encoding a counted symbol keeps the encoder's interval legal and wide (10_state.md R36, 42_encoder.md R179). -/
theorem Regs.Encodes.encoderLegal {w : Width} {r r' : Regs} {sym : Nat} {st : EncState} (h : r.Encodes w r' sym st)
    (narrowed : (narrow r.cum r.total r.encInterval sym).legal w) : r'.encoderLegal w := by
  obtain ⟨legal, wide⟩ := renorm_legal_wide narrowed
  have after : r'.encInterval = (r.encoded w sym).2 := by
    rw [h.regs]
    exact Interval.toReg_eq legal
  rw [Regs.encoderLegal, after]
  exact ⟨legal, fun _ => wide⟩

/-- One symbol defers at most `W − 1` bits (10_state.md R37). -/
theorem Regs.Encodes.ufc_le {w : Width} {r r' : Regs} {sym : Nat} {st : EncState} (h : r.Encodes w r' sym st)
    (narrowed : (narrow r.cum r.total r.encInterval sym).legal w) : r'.ufc ≤ r.ufc + (w.bits - 1) := by
  rw [h.regs]
  exact (codedBits_ufc_le _ _).trans (Nat.add_le_add_left (renorm_e3Count_le narrowed) _)

/-- Decoding a symbol keeps the decoder's interval legal and wide, and its code in it (43_decoder.md R204, R205). -/
theorem Regs.Decodes.decoderLegal {w : Width} {r r' : Regs} {bits : List Bool} {res : Word} {st : DecState}
    (h : r.Decodes w r' bits res st) (table : SealedTable w r) (active : r.decState = .active)
    (before : r.decoderLegal w) : r'.decoderLegal w := by
  obtain ⟨legal, low, high, wide⟩ := before
  obtain ⟨bound, counted, low, high⟩ := table.decoded_symbol (iv := r.decInterval) low high
  have narrowed := table.narrow_legal legal (wide active) bound counted
  obtain ⟨legal', wide'⟩ := renorm_legal_wide narrowed
  obtain ⟨low', high'⟩ := (renorm_run narrowed).1.code_between narrowed h.length low high
  have after : r'.decInterval = (r.decoded w).2 := by
    rw [h.regs]
    exact Interval.toReg_eq legal'
  have code : r'.dcode.toNat = shiftedCode w (r.decoded w).1 bits r.dcode.toNat := by
    rw [h.regs]
    exact toReg_toNat (high'.trans legal'.2)
  refine ⟨after ▸ legal', ?_, ?_, fun _ => after ▸ wide'⟩
  · rw [BitVec.le_def, code]
    exact (congrArg Interval.low after).trans_le low'
  · rw [BitVec.le_def, code]
    exact high'.trans_eq (congrArg Interval.high after).symm

theorem Regs.Encodes.keeps_inv {w : Width} {r r' : Regs} {sym : Nat} {st : EncState} (h : r.Encodes w r' sym st)
    (inv : r.Inv w) (active : r.encState = .active)
    (narrowed : (narrow r.cum r.total r.encInterval sym).legal w) : r'.Inv w := by
  obtain ⟨ready, -⟩ := Regs.Inv.sealedTable inv (.inl active)
  obtain ⟨sealed, -, -, dec, writer, reader⟩ := inv
  have enc' := h.encoderLegal narrowed
  have writer' := h.writer writer
  rw [h.regs] at enc' writer' ⊢
  exact ⟨sealed, fun _ => ready, enc', dec, writer', reader⟩

theorem Regs.Decodes.keeps_inv {w : Width} {r r' : Regs} {bits : List Bool} {res : Word} {st : DecState}
    (h : r.Decodes w r' bits res st) (inv : r.Inv w) (active : r.decState = .active) : r'.Inv w := by
  obtain ⟨ready, table⟩ := Regs.Inv.sealedTable inv (.inr active)
  obtain ⟨sealed, -, enc, dec, writer, reader⟩ := inv
  have dec' := h.decoderLegal table active dec
  have reader' := h.reader reader
  rw [h.regs] at dec' reader' ⊢
  exact ⟨sealed, fun _ => ready, enc, dec', writer, reader'⟩

/-- Starting an encode gives it the full interval and a model (42_encoder.md R180). -/
theorem Regs.encInit_keeps_inv {w : Width} {r : Regs} (inv : r.Inv w) (ready : r.fmState = .ready) :
    ({ r.setEncInterval (fullInterval w) with ufc := 0, encState := .active } : Regs).Inv w := by
  obtain ⟨sealed, _, _, dec, writer, reader⟩ := inv
  obtain ⟨legal, wide⟩ := fullInterval_legal_wide w
  have held := Regs.encInterval_setEncInterval_of_legal legal r
  exact ⟨sealed, fun _ => ready, ⟨held.symm ▸ legal, fun _ => held.symm ▸ wide⟩, dec, writer, reader⟩

/-- Starting a decode gives it the full interval, a W-bit code and a model (43_decoder.md R210). -/
theorem Regs.decInit_keeps_inv {w : Width} {r : Regs} (inv : r.Inv w) (ready : r.fmState = .ready) {code : Word}
    (fits : code.toNat ≤ mask w) {pos : Nat} (reader : pos ≤ r.inputBits) :
    ({ r.setDecInterval (fullInterval w) with dcode := code, rpos := pos, decState := .active } : Regs).Inv w := by
  obtain ⟨sealed, _, enc, _, writer, _⟩ := inv
  obtain ⟨legal, wide⟩ := fullInterval_legal_wide w
  have held := Regs.decInterval_setDecInterval_of_legal legal r
  have top : (toReg (mask w)).toNat = mask w := toReg_toNat (Nat.le_refl _)
  refine ⟨sealed, fun _ => ready, enc, ⟨held.symm ▸ legal, Nat.zero_le _, ?_, fun _ => held.symm ▸ wide⟩, writer, reader⟩
  exact fits.trans_eq top.symm

/-- An opened model leaves nothing to seal, and no coder is active then (40_frequency_model.md R105). -/
theorem Regs.opened_keeps_inv {w : Width} {r : Regs} (inv : r.Inv w) (idle : r.coderActive = false)
    (count : Vector Word 256) : ({ r with count := count, fmState := .openModel } : Regs).Inv w := by
  obtain ⟨_, _, enc, dec, writer, reader⟩ := inv
  exact ⟨nofun, fun active => absurd active (ne_true_of_eq_false idle), enc, dec, writer, reader⟩

/-- A sealed model is the table of its counts (40_frequency_model.md R104). -/
theorem Regs.sealed_keeps_inv {w : Width} {r : Regs} (inv : r.Inv w) {count : Vector Word 256}
    (budget : countsBelow count 257 ≤ maxTotal w) {pos : Nat} (reader : pos ≤ r.inputBits) :
    ({ r.commitTable (cumTable count) with count := count, rpos := pos } : Regs).Inv w := by
  obtain ⟨_, _, enc, dec, writer, _⟩ := inv
  exact ⟨modelSealed_commitTable { r with count := count } budget, fun _ => rfl, enc, dec, writer, reader⟩

/-- A symbol that `ENC_UPDATE` or `ENC_FINISH` completed was encoded from a legal sub-interval. -/
theorem Regs.After.encodes {w : Width} {r r' : Regs} {i : Instr} (h : r.After w r' i) (inv : r.Inv w)
    (is : i = .encFinish ∨ ∃ sym, i = .encUpdate sym) :
    r.encState = .active
      ∧ ∃ sym st, r.Encodes w r' sym st ∧ (narrow r.cum r.total r.encInterval sym).legal w := by
  obtain rfl | ⟨sym, rfl⟩ := is
  · obtain ⟨active, encodes⟩ := h
    exact ⟨active, _, _, encodes, Regs.Inv.narrow_encInterval inv active (Nat.le_refl _) SealedTable.sentinel_counted⟩
  · obtain ⟨isByte, active, counted, encodes⟩ := h
    exact ⟨active, _, _, encodes, Regs.Inv.narrow_encInterval inv active (by omega) fun table =>
      table.counted_of_ne (by omega) counted⟩

/-- Every command that completes keeps the registers' invariant. -/
theorem Regs.After.keeps_inv {w : Width} {r r' : Regs} {i : Instr} (h : r.After w r' i) (inv : r.Inv w) : r'.Inv w := by
  have ⟨sealed, hasModel, enc, dec, writer, reader⟩ := inv
  cases i with
  | nop | fmWriteHeader | bwWriteRawByte _ =>
    obtain rfl : r' = r := h
    exact inv
  | coreReset =>
    obtain rfl : r' = Regs.reset w := h
    exact Regs.reset_inv w
  | fmReset | fmCount _ =>
    obtain ⟨idle, rfl⟩ := h
    exact Regs.opened_keeps_inv inv idle _
  | fmSetcount _ _ =>
    obtain ⟨-, idle, rfl⟩ := h
    exact Regs.opened_keeps_inv inv idle _
  | fmSeal _ =>
    obtain ⟨-, budget, rfl⟩ := h
    exact Regs.sealed_keeps_inv inv budget reader
  | fmReadHeader =>
    obtain ⟨-, room, counts, budget, rfl⟩ := h
    exact Regs.sealed_keeps_inv inv budget room
  | fmGetcount _ | fmGetlow _ | fmGethigh _ | fmGettotal | fmLookup _ =>
    rw [h]
    exact inv
  | bwWriteBit _ =>
    obtain ⟨only, -, writer'⟩ := h
    have writer' := writer' writer
    rw [only] at writer' ⊢
    exact ⟨sealed, hasModel, enc, dec, writer', reader⟩
  | bwFinalize =>
    obtain ⟨only, writer'⟩ := h
    have writer' := writer' writer
    rw [only] at writer' ⊢
    exact ⟨sealed, hasModel, enc, dec, writer', reader⟩
  | brAttach _ =>
    obtain ⟨-, rfl⟩ := h
    exact ⟨sealed, hasModel, enc, dec, writer, Nat.zero_le _⟩
  | brReadBit =>
    obtain ⟨only, reader'⟩ := h
    have reader' := reader' reader
    rw [only] at reader' ⊢
    exact ⟨sealed, hasModel, enc, dec, writer, reader'⟩
  | encInit =>
    obtain ⟨ready, rfl⟩ := h
    exact Regs.encInit_keeps_inv inv ready
  | encUpdate sym =>
    obtain ⟨active, _, _, encodes, narrowed⟩ := h.encodes inv (.inr ⟨sym, rfl⟩)
    exact encodes.keeps_inv inv active narrowed
  | encFinish =>
    obtain ⟨active, _, _, encodes, narrowed⟩ := h.encodes inv (.inl rfl)
    exact encodes.keeps_inv inv active narrowed
  | decInit =>
    obtain ⟨ready, fits, reader', only⟩ := h
    have reader' := reader' reader
    rw [only] at fits reader' ⊢
    exact Regs.decInit_keeps_inv inv ready fits reader'
  | decNext =>
    obtain ⟨active, bits, decodes⟩ := h
    exact decodes.keeps_inv inv active

/-! ## The machine's invariant -/

/-- A command keeps the invariant of every state in which it may run. -/
theorem exec_keeps_inv {i : Instr} {s t : State} (h : exec i s = .next t) (allowed : s.err = .noError ∨ i = .coreReset)
    (inv : s.Inv) : t.Inv := by
  obtain ⟨regs, clear, input, presented, sink⟩ := inv
  have ended := Ended.of_exec h
  obtain ⟨input', presented'⟩ := ended.memories_wf input presented
  refine ⟨fun precise => ?_, ended.errOp_zero clear, input', presented', ended.sink_is_history sink⟩
  obtain clean | rfl := allowed
  · have regs := regs (by rw [clean]; decide)
    rw [ended.width]
    by_cases completed : t.err = .noError
    · exact (exec_after h completed).keeps_inv regs
    · rwa [ended.regs_of_precise_error clean completed precise]
  · cases h
    exact Regs.reset_inv s.width

/-- Settles O59: every kind of step keeps the invariant; a command does so because it keeps the registers' invariant when it
completes and the registers when it fails. -/
theorem stepKeepsTheInvariant : Obligations.StepKeepsTheInvariant := by
  intro s t inv h
  cases step_stepped h with
  | ran w rest i t _ _ allowed run => exact exec_keeps_inv run allowed inv
  | idle => exact inv
  | refused => exact inv
  | portRead => exact inv
  | presented bytes =>
    obtain ⟨regs, clear, input, _, sink⟩ := inv
    exact ⟨regs, clear, input, Memory.ofBytes_wf bytes, sink⟩
  | resetInput =>
    obtain ⟨_, _, input, presented, sink⟩ := inv
    exact ⟨fun _ => Regs.reset_inv s.width, fun _ => rfl, input, presented, sink⟩
  | illegal w rest _ clean =>
    obtain ⟨regs, _, input, presented, sink⟩ := inv
    exact ⟨fun _ => regs (by rw [clean]; decide), nofun, input, presented, sink⟩

end Sys2Proof.Machine
end

section
/-! PROOFS. The family `10_state.md`, continued: the views of the registers, the frequency model's commands, the underflow
counter, and the register port. -/

namespace Sys2Proof.Machine

/-! ## The fields of STATUS (10_state.md R24) -/

section
variable (s : State)

theorem status_err : (status s).extractLsb' 0 4 = s.err.code := by
  rw [status, BitVec.extractLsb'_append_eq_of_add_le (by omega), BitVec.extractLsb'_eq_self]

theorem status_fmReady : (status s).getLsbD 4 = s.regs.fmReady := by
  simp only [status, BitVec.getLsbD_append]
  simp

theorem status_encState : (status s).extractLsb' 5 2 = encStateCode s.regs.encState := by
  simp (disch := omega) only [status, BitVec.extractLsb'_append_eq_of_le, BitVec.extractLsb'_append_eq_of_add_le,
    BitVec.extractLsb'_eq_self, Nat.reduceSub]

theorem status_decState : (status s).extractLsb' 7 2 = decStateCode s.regs.decState := by
  simp (disch := omega) only [status, BitVec.extractLsb'_append_eq_of_le, BitVec.extractLsb'_append_eq_of_add_le,
    BitVec.extractLsb'_eq_self, Nat.reduceSub]

theorem status_nacc : (status s).extractLsb' 9 3 = s.regs.nacc := by
  simp (disch := omega) only [status, BitVec.extractLsb'_append_eq_of_le, BitVec.extractLsb'_append_eq_of_add_le,
    BitVec.extractLsb'_eq_self, Nat.reduceSub]

theorem status_finBits : (status s).extractLsb' 12 3 = s.regs.finBits := by
  simp (disch := omega) only [status, BitVec.extractLsb'_append_eq_of_le, BitVec.extractLsb'_append_eq_of_add_le,
    BitVec.extractLsb'_eq_self, Nat.reduceSub]

theorem status_brExhausted : (status s).getLsbD 15 = s.regs.brExhausted := by
  simp only [status, BitVec.getLsbD_append]
  simp

theorem status_reserved : (status s).extractLsb' 16 8 = 0 := by
  simp (disch := omega) only [status, BitVec.extractLsb'_append_eq_of_le, BitVec.extractLsb'_append_eq_of_add_le,
    BitVec.extractLsb'_eq_self, Nat.reduceSub]

theorem status_errOp : (status s).extractLsb' 24 8 = s.errOp := by
  simp (disch := omega) only [status, BitVec.extractLsb'_append_eq_of_le, BitVec.extractLsb'_eq_self, Nat.reduceSub]

end

/-- Each error has its own number (60_exceptions.md R241). -/
theorem ErrCode.code_inj {e e' : ErrCode} : e.code = e'.code ↔ e = e' :=
  ⟨by cases e <;> cases e' <;> decide, congrArg _⟩

theorem encStateCode_inj {x y : EncState} : encStateCode x = encStateCode y ↔ x = y :=
  ⟨by cases x <;> cases y <;> decide, congrArg _⟩

theorem decStateCode_inj {x y : DecState} : decStateCode x = decStateCode y ↔ x = y :=
  ⟨by cases x <;> cases y <;> decide, congrArg _⟩

theorem Regs.brExhausted_iff (r : Regs) : r.brExhausted = true ↔ r.rpos = 8 * r.brLen.toNat := beq_iff_eq

/-- Settles O20: each field of `STATUS` is its register's code, and different values have different codes. -/
theorem statusFieldsShowTheRegisters : Obligations.StatusFieldsShowTheRegisters := by
  intro s
  rw [status_err, status_fmReady, status_encState, status_decState, status_brExhausted]
  exact ⟨ErrCode.code_inj (e' := .noError), ErrCode.code_inj (e' := .ioFailure),
    ErrCode.code_inj (e' := .corruptHeader), ErrCode.code_inj (e' := .corruptModel),
    ErrCode.code_inj (e' := .precisionOverflow), ErrCode.code_inj (e' := .illegalCommand),
    ErrCode.code_inj (e' := .invalidSymbol), ErrCode.code_inj (e' := .sequenceError),
    ErrCode.code_inj (e' := .zeroFrequency), ErrCode.code_inj (e' := .misalignedRaw),
    ErrCode.code_inj (e' := .valueOutOfRange), rfl, s.regs.fmReady_iff,
    encStateCode_inj (y := .idle), encStateCode_inj (y := .active), encStateCode_inj (y := .flushed),
    decStateCode_inj (y := .idle), decStateCode_inj (y := .active), decStateCode_inj (y := .done),
    status_nacc s, status_finBits s, s.regs.brExhausted_iff, status_reserved s, status_errOp s, by decide +kernel⟩

/-! ## CONFIG (10_state.md R23) -/

/-- No step changes the width (00_scope.md R6). -/
theorem Stepped.width {s t : State} (h : Stepped s t) : t.width = s.width := by
  cases h with
  | ran w rest i t _ _ _ run => exact (Ended.of_exec run).width
  | idle | presented | portRead | resetInput | refused | illegal => rfl

theorem configWord_width (s : State) : ((configWord s).extractLsb' 0 6).toNat = s.width.bits := by
  have fits := s.width.le_32
  rw [configWord, BitVec.extractLsb'_append_eq_of_add_le (by omega), BitVec.extractLsb'_eq_self, BitVec.toNat_ofNat]
  omega

theorem configWord_congr {s t : State} (h : t.width = s.width) : configWord t = configWord s := by
  rw [configWord, configWord, h]

/-- Settles O21: `CONFIG` is made of the width and the revision, and the width is a constant. -/
theorem configIsAConstantOfItsFields : Obligations.ConfigIsAConstantOfItsFields := by
  refine ⟨fun s => ⟨configWord_width s, s.width.two_le, s.width.le_32, ?_, ?_, ?_⟩,
    fun s t h => configWord_congr (step_stepped h).width⟩
  · rw [configWord, BitVec.extractLsb'_append_eq_of_le (by omega), BitVec.extractLsb'_append_eq_of_add_le (by omega)]
    rfl
  · rw [configWord, BitVec.extractLsb'_append_eq_of_le (by omega)]
    decide
  · rw [configWord, BitVec.extractLsb'_append_eq_of_le (by omega)]
    decide

/-! ## Who changes the model (10_state.md R29, 40_frequency_model.md R105) -/

/-- `r'` has the frequency model of `r`. -/
structure Regs.SameModel (r r' : Regs) : Prop where
  fmState : r'.fmState = r.fmState
  count   : r'.count = r.count
  cum     : r'.cum = r.cum
  total   : r'.total = r.total

theorem Regs.SameModel.of_eq {r r' x : Regs} (h : r' = x) (same : r.SameModel x) : r.SameModel r' := h ▸ same

/-- The commands that change `COUNT` or `FM_STATE` and open the model. -/
abbrev OpensModel (i : Instr) : Prop :=
  i = .fmReset ∨ (∃ b, i = .fmCount b) ∨ ∃ sym c, i = .fmSetcount sym c

/-- The commands that seal the model. -/
abbrev SealsModel (i : Instr) : Prop := (∃ src, i = .fmSeal src) ∨ i = .fmReadHeader

theorem Regs.After.opens {w : Width} {r r' : Regs} {i : Instr} (h : r.After w r' i) (opens : OpensModel i) :
    r'.fmState = .openModel := by
  obtain rfl | ⟨_, rfl⟩ | ⟨_, _, rfl⟩ := opens
  · obtain ⟨-, rfl⟩ := h
    rfl
  · obtain ⟨-, rfl⟩ := h
    rfl
  · obtain ⟨-, -, rfl⟩ := h
    rfl

/-- Every other command but `CORE_RESET` leaves the model as it was. -/
theorem Regs.After.sameModel {w : Width} {r r' : Regs} {i : Instr} (h : r.After w r' i) (notReset : i ≠ .coreReset)
    (notOpens : ¬ OpensModel i) (notSeals : ¬ SealsModel i) : r.SameModel r' := by
  cases i with
  | coreReset => exact absurd rfl notReset
  | fmReset => exact absurd (.inl rfl) notOpens
  | fmCount b => exact absurd (.inr (.inl ⟨b, rfl⟩)) notOpens
  | fmSetcount sym c => exact absurd (.inr (.inr ⟨sym, c, rfl⟩)) notOpens
  | fmSeal src => exact absurd (.inl ⟨src, rfl⟩) notSeals
  | fmReadHeader => exact absurd (.inr rfl) notSeals
  | nop | fmWriteHeader | bwWriteRawByte _ | fmGetcount _ | fmGetlow _ | fmGethigh _ | fmGettotal | fmLookup _ =>
    exact .of_eq h ⟨rfl, rfl, rfl, rfl⟩
  | bwWriteBit _ | bwFinalize | brReadBit => exact .of_eq h.1 ⟨rfl, rfl, rfl, rfl⟩
  | brAttach _ | encInit => exact .of_eq h.2 ⟨rfl, rfl, rfl, rfl⟩
  | encUpdate sym =>
    obtain ⟨-, -, -, encodes⟩ := h
    exact .of_eq encodes.regs ⟨rfl, rfl, rfl, rfl⟩
  | encFinish => exact .of_eq h.2.regs ⟨rfl, rfl, rfl, rfl⟩
  | decInit =>
    obtain ⟨-, -, -, only⟩ := h
    exact .of_eq only ⟨rfl, rfl, rfl, rfl⟩
  | decNext =>
    obtain ⟨-, bits, decodes⟩ := h
    exact .of_eq decodes.regs ⟨rfl, rfl, rfl, rfl⟩

/-- A command that makes an open model `READY` seals it. -/
theorem Regs.After.seals {w : Width} {r r' : Regs} {i : Instr} (h : r.After w r' i) (before : r.fmState = .openModel)
    (after : r'.fmState = .ready) : SealsModel i := by
  have notOpen : r'.fmState ≠ .openModel := after ▸ nofun
  by_contra notSeals
  by_cases reset : i = .coreReset
  · subst reset
    exact notOpen (congrArg Regs.fmState h)
  · by_cases opens : OpensModel i
    · exact notOpen (h.opens opens)
    · exact notOpen ((h.sameModel reset opens notSeals).fmState.trans before)

/-- Settles O25: a command that completed did to the model what its row of `Regs.After` says, and one that failed did nothing. -/
theorem onlySealsMakeTheModelReady : Obligations.OnlySealsMakeTheModelReady := by
  intro i s t h clean precise
  by_cases completed : t.err = .noError
  · have after := exec_after h completed
    refine ⟨after.seals, fun opens _ => after.opens opens, ?_⟩
    intro notReset notFmReset notCount notSetcount notSeal notHeader
    have notOpens : ¬ OpensModel i := by
      rintro (is | ⟨b, is⟩ | ⟨sym, c, is⟩)
      exacts [notFmReset is, notCount b is, notSetcount sym c is]
    have notSeals : ¬ SealsModel i := by
      rintro (⟨src, is⟩ | is)
      exacts [notSeal src is, notHeader is]
    obtain ⟨fmState, count, cum, total⟩ := after.sameModel notReset notOpens notSeals
    exact ⟨fmState, count, cum, total⟩
  · rw [(Ended.of_exec h).regs_of_precise_error clean completed precise]
    exact ⟨fun isOpen isReady => absurd (isOpen.symm.trans isReady) nofun, fun _ done => absurd done completed,
      fun _ _ _ _ _ _ => ⟨rfl, rfl, rfl, rfl⟩⟩

/-! ## The getters of a sealed model (10_state.md R28, 40_frequency_model.md R115 to R117) -/

theorem maxTotal_lt (w : Width) : maxTotal w < 2 ^ 32 := by
  have := two_mul_quarter w
  have := two_mul_half w
  have := two_pow_bits_le w
  have := quarter_pos w
  unfold maxTotal
  omega

theorem execFmGetlow_of_ready {s : State} {sym : BitVec 9} (hs : sym.toNat ≤ 256) (ready : s.regs.fmState = .ready) :
    exec (.fmGetlow sym) s = setRes (cumAt s.regs.cum sym.toNat) s := by
  simp [exec, execFmGetlow, isSymbol_of_le hs, s.regs.fmReady_iff.mpr ready]

theorem execFmGethigh_of_ready {s : State} {sym : BitVec 9} (hs : sym.toNat ≤ 256) (ready : s.regs.fmState = .ready) :
    exec (.fmGethigh sym) s = setRes (cumAt s.regs.cum (sym.toNat + 1)) s := by
  simp [exec, execFmGethigh, isSymbol_of_le hs, s.regs.fmReady_iff.mpr ready]

theorem execFmGettotal_of_ready {s : State} (ready : s.regs.fmState = .ready) :
    exec .fmGettotal s = setRes s.regs.total s := by
  simp [exec, execFmGettotal, s.regs.fmReady_iff.mpr ready]

/-- A sum of counts of a sealed model fits `RES`. -/
theorem SealedTable.res_toNat {w : Width} {r : Regs} (table : SealedTable w r) {i : Nat} (hi : i < 258) :
    (BitVec.ofNat 32 (cumAt r.cum i)).toNat = countsBelow r.count i := by
  have fits := ((table.cumAt_le_total hi).trans table.budget).trans_lt (maxTotal_lt w)
  rw [BitVec.toNat_ofNat, Nat.mod_eq_of_lt fits, table.cumAt_eq i hi]

/-- Settles O34: the table's entries are sums of counts within the budget, which is below `2^32`. -/
theorem sealedGettersAreExact : Obligations.SealedGettersAreExact := by
  intro s ready sealed
  have table := SealedTable.of_ready sealed ready
  refine ⟨fun sym hs => ?_, ?_⟩
  · have low := table.res_toNat (i := sym.toNat) (by omega)
    have high := table.res_toNat (i := sym.toNat + 1) (by omega)
    refine ⟨_, _, execFmGetlow_of_ready hs ready, low, execFmGethigh_of_ready hs ready, high, ?_, fun last => ?_⟩
    · rintro rfl
      exact BitVec.eq_of_toNat_eq low
    · have total := table.total_eq
      exact ⟨low.trans (by rw [last, total, countsBelow_total, Nat.add_sub_cancel]), high.trans (by rw [last, total])⟩
  · refine ⟨_, execFmGettotal_of_ready ready, ?_⟩
    rw [State.withRegs_regs, ← table.cumAt_last]
    exact table.res_toNat (by omega)

/-! ## The underflow counter (10_state.md R37) -/

/-- Settles O54: only E3 shifts defer bits, and a renormalisation makes at most `W − 1` of them. -/
theorem underflowGrowsByAtMostWMinusOne : Obligations.UnderflowGrowsByAtMostWMinusOne := by
  intro s t inv _ completed h
  obtain ⟨i, is, run⟩ : ∃ i, (i = .encFinish ∨ ∃ sym, i = .encUpdate sym) ∧ exec i s = .next t := by
    obtain run | ⟨sym, run⟩ := h
    · exact ⟨_, .inl rfl, run⟩
    · exact ⟨_, .inr ⟨sym, rfl⟩, run⟩
  obtain ⟨-, _, _, encodes, narrowed⟩ := (exec_after run completed).encodes inv is
  exact encodes.ufc_le narrowed

/-! ## The register port (10_state.md R25) -/

/-- Settles O22: the step only takes the read off the queue and adds the answer to the host's list. -/
theorem portReadsHaveNoSideEffect : Obligations.PortReadsHaveNoSideEffect := by
  intro s addr rest waiting
  refine ⟨portValue s addr, ?_, ?_, ?_, ?_, ?_⟩
  · rw [step, waiting]
    rfl
  · rintro rfl
    rfl
  · rintro rfl
    rfl
  · rintro rfl
    rfl
  · intro high
    have other : ∀ a : BitVec 4, a.toNat < 3 → addr ≠ a := by
      rintro a low rfl
      omega
    rw [portValue, if_neg (other 0 (by decide)), if_neg (other 1 (by decide)), if_neg (other 2 (by decide))]

end Sys2Proof.Machine
end

section
/-! PROOFS. The family `20_memory.md`: the bits written form one stream, most significant first (R54). -/

namespace Sys2Proof.Machine

/-! ## The bits of an accumulator -/

/-- The low `n` bits of a byte, the most significant of them first: what `Regs.pendingBits` says of the accumulator and
`bitsMsbFirst` of a full byte. -/
def lowBits (n : Nat) (acc : Byte) : List Bool := (List.range n).map fun k => acc.getLsbD (n - 1 - k)

theorem Regs.pendingBits_eq_lowBits (r : Regs) : r.pendingBits = lowBits r.nacc.toNat r.acc := rfl

theorem bitsMsbFirst_eq_lowBits (b : Byte) : bitsMsbFirst b = lowBits 8 b := rfl

theorem shiftInBit_getLsbD_zero (acc : Byte) (b : Bool) : (shiftInBit acc b).getLsbD 0 = b := by
  simp [shiftInBit, -BitVec.getLsbD_eq_getElem]

theorem shiftInBit_getLsbD_succ (acc : Byte) (b : Bool) {i : Nat} (hi : i < 7) :
    (shiftInBit acc b).getLsbD (i + 1) = acc.getLsbD i := by
  have room : i + 1 < 8 := by omega
  simp [shiftInBit, room, -BitVec.getLsbD_eq_getElem]

/-- A bit shifted in follows the bits held (41_bit_packer.md R140). -/
theorem lowBits_shiftInBit (acc : Byte) (b : Bool) {n : Nat} (hn : n < 8) :
    lowBits (n + 1) (shiftInBit acc b) = lowBits n acc ++ [b] := by
  have held : ∀ k ∈ List.range n, (shiftInBit acc b).getLsbD (n - k) = acc.getLsbD (n - 1 - k) := by
    intro k hk
    have hk : k < n := List.mem_range.mp hk
    rw [show n - k = n - 1 - k + 1 by omega]
    exact shiftInBit_getLsbD_succ acc b (by omega)
  rw [lowBits, List.range_succ, List.map_append, Nat.add_sub_cancel, List.map_congr_left held]
  simp only [lowBits, List.map_singleton, Nat.sub_self, shiftInBit_getLsbD_zero]

/-! ## The stream of packed bits -/

/-- Packing loses, adds and reorders no bit: the bytes sent and the bits still held spell the bits held before and then the
bits written (R54). -/
theorem packBits_stream (bits : List Bool) (acc : Byte) (n : BitVec 3) :
    (packBits bits acc n).1.flatMap bitsMsbFirst ++ lowBits (packBits bits acc n).2.2.toNat (packBits bits acc n).2.1
      = lowBits n.toNat acc ++ bits := by
  induction bits generalizing acc n with
  | nil => simp [packBits]
  | cons b bs ih =>
    by_cases full : n = 7
    · subst full
      have sent : bitsMsbFirst (shiftInBit acc b) = lowBits 7 acc ++ [b] := lowBits_shiftInBit acc b (by decide)
      have rest := ih 0 0
      simp only [packBits, if_true, List.flatMap_cons, List.append_assoc, rest, sent]
      rfl
    · have count : (n + 1).toNat = n.toNat + 1 := by bv_omega
      rw [packBits, if_neg full, ih, count, lowBits_shiftInBit acc b (by bv_omega), List.append_assoc]
      rfl

/-- The stream after the sink took what a run of bits packs and the accumulator holds the rest. -/
theorem State.writtenBits_of_packed {s t : State} {bits : List Bool}
    (out : t.out = s.out ++ (packBits bits s.regs.acc s.regs.nacc).1)
    (acc : t.regs.acc = (packBits bits s.regs.acc s.regs.nacc).2.1)
    (nacc : t.regs.nacc = (packBits bits s.regs.acc s.regs.nacc).2.2) : t.writtenBits = s.writtenBits ++ bits := by
  simp only [State.writtenBits, Regs.pendingBits_eq_lowBits, out, acc, nacc, List.flatMap_append, List.append_assoc,
    packBits_stream]

/-! ## What each writer adds to the stream -/

theorem emitBits_writtenBits {bits : List Bool} {s t : State} {a : Unit} (h : emitBits bits s = .done a t) :
    t.writtenBits = s.writtenBits ++ bits := by
  have granted := (emitBits_makes bits s).grants_of_done h
  rw [List.length_map] at granted
  rw [emitBits_granted bits s granted] at h
  cases h
  exact State.writtenBits_of_packed rfl rfl rfl

theorem emitBit_writtenBits {b : Bool} {s t : State} {a : Unit} (h : emitBit b s = .done a t) :
    t.writtenBits = s.writtenBits ++ [b] :=
  emitBits_writtenBits ((emitBits_single b s).trans h)

/-- A symbol adds its coded bits (42_encoder.md R175, R176). -/
theorem encodeSymbol_writtenBits {sym : Nat} {s t : State} {a : Unit} (h : encodeSymbol sym s = .done a t) :
    t.writtenBits = s.writtenBits ++ (codedBits s.regs.ufc (s.regs.encoded s.width sym).1).1 := by
  have granted := (encodeSymbol_makes sym s rfl).grants_of_done h
  rw [List.length_map] at granted
  rw [encodeSymbol_granted sym s rfl granted] at h
  cases h
  exact State.writtenBits_of_packed rfl rfl rfl

/-- Settles O40: a completed `BW_WRITE_BIT` passed its check and emitted its bit. -/
theorem writtenBitsFormTheStreamMsbFirst : Obligations.WrittenBitsFormTheStreamMsbFirst := by
  intro s t bit h _ completed
  obtain ⟨-, h⟩ := passed_check (by decide) h completed
  obtain ⟨_, h⟩ := Access.done_of_finish h completed
  exact emitBit_writtenBits h

/-- `ENC_UPDATE` adds the coded bits of its symbol (42_encoder.md R181). -/
theorem execEncUpdate_writtenBits {sym : BitVec 9} {s t : State} (h : execEncUpdate sym s = .next t)
    (completed : t.err = .noError) :
    t.writtenBits = s.writtenBits ++ (codedBits s.regs.ufc (s.regs.encoded s.width sym.toNat).1).1 := by
  obtain ⟨-, h⟩ := passed_check (by decide) h completed
  obtain ⟨-, h⟩ := passed_check (by decide) h completed
  obtain ⟨-, h⟩ := passed_check (by decide) h completed
  obtain ⟨_, h⟩ := Access.done_of_finish h completed
  exact encodeSymbol_writtenBits h

/-- `ENC_FINISH` adds the coded bits of the sentinel and the final 1 (42_encoder.md R182). -/
theorem execEncFinish_writtenBits {s t : State} (h : execEncFinish s = .next t) (completed : t.err = .noError) :
    t.writtenBits = s.writtenBits ++ (codedBits s.regs.ufc (s.regs.encoded s.width sentinel).1).1 ++ [true] := by
  obtain ⟨-, h⟩ := passed_check (by decide) h completed
  obtain ⟨_, h⟩ := Access.done_of_finish h completed
  obtain ⟨_, v, hv, flushed⟩ := Access.done_of_andThen h
  obtain ⟨_, u, hu, hv⟩ := Access.done_of_andThen hv
  cases flushed
  calc v.writtenBits = u.writtenBits ++ [true] := emitBit_writtenBits hv
    _ = _ := by rw [encodeSymbol_writtenBits hu]

/-- Settles O53: each of the two encoder commands adds its coded bits when it completes. -/
theorem encodedBitsExtendTheStream : Obligations.EncodedBitsExtendTheStream :=
  fun _ _ _ completed =>
    ⟨fun _ h => execEncUpdate_writtenBits h completed, fun h => execEncFinish_writtenBits h completed⟩

end Sys2Proof.Machine
end

section
/-! PROOFS. The family `20_memory.md`, continued: the core never reads the sink (R52), and a step runs the command of its word
(R61). That the core is blind to the sink and the history is said by moving what a state recorded behind an older record:
every operation commutes with `State.behind`. -/

namespace Sys2Proof.Machine

/-! ## Steps -/

/-- Settles O6: of the three things a word can do, a legal word that is not refused runs its command. -/
theorem stepRunsTheDecodedCommand : Obligations.StepRunsTheDecodedCommand := by
  intro s w i rest waiting read allowed
  rw [step_command s w rest waiting]
  obtain ⟨error, other, -⟩ | ⟨-, j, readJ, run⟩ | ⟨-, unread, -⟩ := stepCommand_cases w (s.withQueue rest)
  · exact absurd allowed (not_or.mpr ⟨error, other⟩)
  · obtain rfl : j = i := Option.some.inj (readJ.symm.trans read)
    exact run
  · cases unread.symm.trans read

/-! ## An older record in front of a state's own -/

/-- The state with an older sink and history in front of what its own hold. -/
def State.behind (sink : List Byte) (past : List IoEvent) (s : State) : State :=
  { s with out := sink ++ s.out, history := past ++ s.history }

/-- The accesses' outcome, its state behind the older record. -/
def Access.behind {α : Type} (sink : List Byte) (past : List IoEvent) : Access α → Access α
  | .done a s => .done a (s.behind sink past)
  | .ioFailed s => .ioFailed (s.behind sink past)

/-- A step's outcome, its state behind the older record. -/
def resultBehind (sink : List Byte) (past : List IoEvent) : Result → Result
  | .next s => .next (s.behind sink past)
  | .fault f => .fault f
  | .refused r => .refused r

/-- Every state lies behind its own record with nothing of its own. -/
theorem State.behind_own_record (s : State) (sink : List Byte) (past : List IoEvent) :
    ({ s with out := [], history := [] } : State).behind sink past = { s with out := sink, history := past } := by
  simp [State.behind]

section Blind
variable {sink : List Byte} {past : List IoEvent}

/-! ## Combinators -/

theorem Access.andThen_behind {α β : Type} {x' x : Access α} {f' f : α → State → Access β}
    (hx : x' = x.behind sink past) (hf : ∀ a s, f' a (s.behind sink past) = (f a s).behind sink past) :
    x'.andThen f' = (x.andThen f).behind sink past := by
  subst hx
  cases x with
  | done a s => exact hf a s
  | ioFailed s => rfl

theorem Access.thenRegs_behind {α : Type} {x' x : Access α} {f : α → Regs → Regs} (hx : x' = x.behind sink past) :
    x'.thenRegs f = (x.thenRegs f).behind sink past :=
  Access.andThen_behind hx fun _ _ => rfl

theorem Access.finish_behind {α : Type} {x' x : Access α} {op : BitVec 8} (hx : x' = x.behind sink past) :
    x'.finish op = resultBehind sink past (x.finish op) := by
  subst hx
  cases x <;> rfl

/-- A choice that both states make alike. -/
theorem ite_behind {α : Type} {c : Prop} [Decidable c] {x' x y' y : Access α} (hx : x' = x.behind sink past)
    (hy : y' = y.behind sink past) : (if c then x' else y') = (if c then x else y).behind sink past := by
  rw [hx, hy, apply_ite (Access.behind sink past)]

/-- A check that both states fail alike. -/
theorem check_behind {c : Prop} [Decidable c] {e : ErrCode} {op : BitVec 8} {s : State} {x' x : Result}
    (hx : x' = resultBehind sink past x) :
    (if c then raise e op (s.behind sink past) else x') = resultBehind sink past (if c then raise e op s else x) := by
  rw [hx, apply_ite (resultBehind sink past)]
  rfl

/-! ## Accesses -/

theorem State.recordAccess_behind (event : IoAnswer → IoEvent) (s : State) :
    (s.behind sink past).recordAccess event = (s.recordAccess event).behind sink past := by
  simp [State.recordAccess, State.behind, State.nextAnswer]

theorem State.appendOut_behind (b : Byte) (s : State) :
    (s.behind sink past).appendOut b = (s.appendOut b).behind sink past := by
  simp [State.appendOut, State.behind]

theorem sinkWrite_behind (b : Byte) (s : State) :
    sinkWrite b (s.behind sink past) = (sinkWrite b s).behind sink past := by
  cases h : s.nextAnswer with
  | success =>
    rw [sinkWrite_of_success b s h, sinkWrite_of_success b (s.behind sink past) h, State.recordAccess_behind,
      State.appendOut_behind]
    rfl
  | failure =>
    rw [sinkWrite_of_failure b s h, sinkWrite_of_failure b (s.behind sink past) h, State.recordAccess_behind]
    rfl

theorem sourceRead_behind (i : Nat) (s : State) :
    sourceRead i (s.behind sink past) = (sourceRead i s).behind sink past := by
  cases h : s.nextAnswer with
  | success =>
    rw [sourceRead_of_success i s h, sourceRead_of_success i (s.behind sink past) h, State.recordAccess_behind]
    rfl
  | failure =>
    rw [sourceRead_of_failure i s h, sourceRead_of_failure i (s.behind sink past) h, State.recordAccess_behind]
    rfl

theorem emitBit_behind (b : Bool) (s : State) : emitBit b (s.behind sink past) = (emitBit b s).behind sink past :=
  ite_behind (Access.thenRegs_behind (sinkWrite_behind _ s)) rfl

theorem emitRepeated_behind (b : Bool) (n : Nat) (s : State) :
    emitRepeated b n (s.behind sink past) = (emitRepeated b n s).behind sink past := by
  induction n generalizing s with
  | zero => rfl
  | succ n ih => exact Access.andThen_behind (emitBit_behind b s) fun _ t => ih t

theorem emitRawBytes_behind (vs : List Byte) (s : State) :
    emitRawBytes vs (s.behind sink past) = (emitRawBytes vs s).behind sink past := by
  induction vs generalizing s with
  | nil => rfl
  | cons v vs ih => exact Access.andThen_behind (sinkWrite_behind v s) fun _ t => ih t

theorem nextBit_behind (s : State) : nextBit (s.behind sink past) = (nextBit s).behind sink past :=
  ite_behind (Access.andThen_behind (sourceRead_behind _ s) fun _ _ => rfl) rfl

theorem sourceReadMany_behind (n i : Nat) (s : State) :
    sourceReadMany n i (s.behind sink past) = (sourceReadMany n i s).behind sink past := by
  induction n generalizing i s with
  | zero => rfl
  | succ n ih =>
    exact Access.andThen_behind (sourceRead_behind i s) fun _ t =>
      Access.andThen_behind (ih (i + 1) t) fun _ _ => rfl

/-! ## The coders -/

theorem encShift_behind (x : Shift) (s : State) :
    encShift x (s.behind sink past) = (encShift x s).behind sink past := by
  cases x with
  | e12 b =>
    exact Access.andThen_behind (emitBit_behind b s) fun _ t =>
      Access.thenRegs_behind (emitRepeated_behind (!b) _ t)
  | e3 => rfl

theorem encShifts_behind (xs : List Shift) (s : State) :
    encShifts xs (s.behind sink past) = (encShifts xs s).behind sink past := by
  induction xs generalizing s with
  | nil => rfl
  | cons x xs ih => exact Access.andThen_behind (encShift_behind x s) fun _ t => ih t

theorem encodeSymbol_behind (sym : Nat) (s : State) :
    encodeSymbol sym (s.behind sink past) = (encodeSymbol sym s).behind sink past := by
  unfold encodeSymbol
  exact Access.thenRegs_behind (encShifts_behind _ s)

theorem decShift_behind (x : Shift) (s : State) :
    decShift x (s.behind sink past) = (decShift x s).behind sink past :=
  Access.andThen_behind (nextBit_behind s) fun _ _ => rfl

theorem decShifts_behind (xs : List Shift) (s : State) :
    decShifts xs (s.behind sink past) = (decShifts xs s).behind sink past := by
  induction xs generalizing s with
  | nil => rfl
  | cons x xs ih => exact Access.andThen_behind (decShift_behind x s) fun _ t => ih t

theorem decodeSymbol_behind (s : State) :
    decodeSymbol (s.behind sink past) = (decodeSymbol s).behind sink past :=
  Access.andThen_behind (Access.thenRegs_behind (decShifts_behind _ s)) fun _ _ => rfl

theorem primeBits_behind (n : Nat) (s : State) :
    primeBits n (s.behind sink past) = (primeBits n s).behind sink past := by
  induction n generalizing s with
  | zero => rfl
  | succ n ih =>
    exact Access.andThen_behind (nextBit_behind s) fun b t =>
      ih (t.withRegs { t.regs with dcode := toReg (shiftE12 t.width t.regs.dcode.toNat b) })

theorem prime_behind (s : State) : prime (s.behind sink past) = (prime s).behind sink past :=
  primeBits_behind _ (s.withRegs { s.regs with dcode := 0 })

/-! ## Commands and steps -/

theorem execFmSeal_behind (src : SealSource) (s : State) :
    execFmSeal src (s.behind sink past) = resultBehind sink past (execFmSeal src s) := by
  refine check_behind ?_
  show (match sealTable s.width s.regs.count (sealError src) with | .error _ => _ | .ok _ => _) = _
  cases sealTable s.width s.regs.count (sealError src) <;> rfl

theorem commitHeader_behind (counts : Vector Word 256) (s : State) :
    commitHeader counts (s.behind sink past) = resultBehind sink past (commitHeader counts s) := by
  unfold commitHeader
  show (match sealTable s.width counts .corruptHeader with | .error _ => _ | .ok _ => _) = _
  cases sealTable s.width counts .corruptHeader <;> rfl

theorem execFmReadHeader_behind (s : State) :
    execFmReadHeader (s.behind sink past) = resultBehind sink past (execFmReadHeader s) := by
  refine check_behind (check_behind (check_behind ?_))
  show (match sourceReadMany headerBytesLen (s.regs.rpos / 8) (s.behind sink past) with
    | .ioFailed _ => _ | .done _ _ => _) = _
  rw [sourceReadMany_behind]
  cases sourceReadMany headerBytesLen (s.regs.rpos / 8) s with
  | done bytes t => exact commitHeader_behind (headerCounts bytes) t
  | ioFailed t => rfl

/-- No command looks at the sink or the history (20_memory.md R52). -/
theorem exec_behind (i : Instr) (s : State) : exec i (s.behind sink past) = resultBehind sink past (exec i s) := by
  cases i with
  | nop | coreReset => rfl
  | fmReset | fmCount _ | fmGetcount _ | fmGettotal | brAttach _ | encInit => exact check_behind rfl
  | fmSetcount _ _ | fmGetlow _ | fmGethigh _ | fmLookup _ => exact check_behind (check_behind rfl)
  | fmSeal src => exact execFmSeal_behind src s
  | fmWriteHeader => exact check_behind (check_behind (Access.finish_behind (emitRawBytes_behind _ s)))
  | fmReadHeader => exact execFmReadHeader_behind s
  | bwWriteBit bit => exact check_behind (Access.finish_behind (emitBit_behind bit s))
  | bwWriteRawByte byte => exact check_behind (check_behind (Access.finish_behind (sinkWrite_behind byte s)))
  | bwFinalize =>
    refine check_behind ?_
    rw [apply_ite (resultBehind sink past)]
    exact if_congr Iff.rfl (Access.finish_behind (Access.thenRegs_behind (sinkWrite_behind _ s))) rfl
  | brReadBit => exact check_behind (Access.finish_behind (Access.thenRegs_behind (nextBit_behind s)))
  | encUpdate sym =>
    exact check_behind (check_behind (check_behind (Access.finish_behind (encodeSymbol_behind sym.toNat s))))
  | encFinish =>
    exact check_behind (Access.finish_behind (Access.thenRegs_behind
      (Access.andThen_behind (encodeSymbol_behind sentinel s) fun _ t => emitBit_behind true t)))
  | decInit =>
    exact check_behind (Access.finish_behind (Access.thenRegs_behind
      (prime_behind (s.withRegs (s.regs.setDecInterval (fullInterval s.width))))))
  | decNext => exact check_behind (Access.finish_behind (Access.thenRegs_behind (decodeSymbol_behind s)))

theorem stepCommand_behind (w : Cmd) (s : State) :
    stepCommand w (s.behind sink past) = resultBehind sink past (stepCommand w s) := by
  have same : screen w (s.behind sink past) = screen w s := rfl
  unfold stepCommand
  rw [same]
  cases screen w s with
  | refuse | illegal _ => rfl
  | run i => exact exec_behind i s

/-- No step looks at the sink or the history. -/
theorem step_behind (s : State) : step (s.behind sink past) = resultBehind sink past (step s) := by
  have waiting : (s.behind sink past).queue = s.queue := rfl
  unfold step
  rw [waiting]
  cases s.queue with
  | nil => rfl
  | cons action rest =>
    cases action with
    | command w => exact stepCommand_behind w (s.withQueue rest)
    | present _ | readPort _ | resetInput => rfl

end Blind

/-- A step that answers `t` does so from an empty record too, and `t` has what that run recorded behind the record of `s`. -/
theorem step_from_empty_record {s t : State} (h : step s = .next t) :
    ∃ u, step { s with out := [], history := [] } = .next u ∧ t = u.behind s.out s.history := by
  have blind := step_behind (sink := s.out) (past := s.history) { s with out := [], history := [] }
  rw [State.behind_own_record] at blind
  have h := blind.symm.trans h
  cases hu : step { s with out := [], history := [] } with
  | next u =>
    rw [hu] at h
    cases h
    exact ⟨u, rfl, rfl⟩
  | fault f => cases f
  | refused r =>
    rw [hu] at h
    cases h

/-- Settles O13: a step puts what it records behind what was recorded before. -/
theorem sinkIsAppendOnly : Obligations.SinkIsAppendOnly := by
  intro s t h
  obtain ⟨u, -, rfl⟩ := step_from_empty_record h
  exact ⟨List.prefix_append _ _, List.prefix_append _ _⟩

/-- Settles O14: what a step records from an empty record is what it adds to every other. -/
theorem sinkContentsNeverInfluenceTheCore : Obligations.SinkContentsNeverInfluenceTheCore := by
  intro s t sink past h
  obtain ⟨u, run, rfl⟩ := step_from_empty_record h
  refine ⟨u.out, u.history, rfl, rfl, ?_⟩
  have blind := step_behind (sink := sink) (past := past) { s with out := [], history := [] }
  rw [State.behind_own_record, run] at blind
  exact blind

end Sys2Proof.Machine
end

section
/-! PROOFS. The family `30_encoding.md`: words and commands (R70 to R77). The decoder's forms, its table's rows and the
cases of R74 are compared through one relation, `OpForm.Fits`: the word has the form's opcode and only operand bits the form uses. -/

namespace Sys2Proof

open Laws

/-! ## A word as its fields (R70) -/

theorem append_and_eq_append_iff {m n : Nat} {a c p : BitVec m} {b d q : BitVec n} :
    (a ++ b) &&& (c ++ d) = p ++ q ↔ a &&& c = p ∧ b &&& d = q := by
  rw [BitVec.and_append]
  refine ⟨fun h => ⟨?_, ?_⟩, fun ⟨high, low⟩ => high ▸ low ▸ rfl⟩
  · simpa only [BitVec.extractLsb'_append_eq_left] using congrArg (BitVec.extractLsb' n m) h
  · simpa only [BitVec.extractLsb'_append_eq_right] using congrArg (BitVec.extractLsb' 0 n) h

theorem fields_append (w : Cmd) : opField w ++ reservedField w ++ symField w ++ dataField w = w := by
  have high : opField w ++ reservedField w = w.extractLsb' 41 23 :=
    BitVec.extractLsb'_append_extractLsb'_eq_extractLsb' rfl
  have sym : w.extractLsb' 41 23 ++ symField w = w.extractLsb' 32 32 :=
    BitVec.extractLsb'_append_extractLsb'_eq_extractLsb' rfl
  have data : w.extractLsb' 32 32 ++ dataField w = w.extractLsb' 0 64 :=
    BitVec.extractLsb'_append_extractLsb'_eq_extractLsb' rfl
  rw [high, sym, data, BitVec.extractLsb'_eq_self]

/-- The low `n` bits of `DATA`. -/
def lowMask (n : Nat) : Word := BitVec.ofNat 32 (2 ^ n - 1)

theorem toNat_and_lowMask (data : Word) (n : Nat) : (data &&& lowMask n).toNat = data.toNat % 2 ^ n := by
  rw [lowMask, BitVec.toNat_and, BitVec.toNat_ofNat, ← Nat.and_two_pow_sub_one_eq_mod _ 32, Nat.and_comm (2 ^ n - 1),
    ← Nat.and_assoc, Nat.and_two_pow_sub_one_eq_mod _ 32, Nat.mod_eq_of_lt data.isLt, Nat.and_two_pow_sub_one_eq_mod]

theorem and_lowMask_eq_self_iff (data : Word) (n : Nat) : data &&& lowMask n = data ↔ data.toNat < 2 ^ n := by
  rw [← BitVec.toNat_inj, toNat_and_lowMask, Nat.mod_eq_iff_lt (Nat.two_pow_pos n).ne']

/-- No bit of `DATA` is set above the low `n`. -/
theorem and_not_lowMask_eq_zero_iff (data : Word) (n : Nat) : data &&& ~~~ lowMask n = 0 ↔ data.toNat < 2 ^ n := by
  rw [← and_lowMask_eq_self_iff]
  refine ⟨fun h => ?_, fun h => ?_⟩
  · calc data &&& lowMask n = (data &&& lowMask n) ||| (data &&& ~~~ lowMask n) := by rw [h]; exact BitVec.or_zero.symm
    _ = data := by rw [← BitVec.and_or_distrib_left, BitVec.or_not_self, BitVec.and_allOnes]
  · rw [← h, BitVec.and_assoc, BitVec.and_not_self]
    exact BitVec.and_zero

theorem and_lowMask_zero (data : Word) : data &&& lowMask 0 = 0 := BitVec.and_zero

theorem and_lowMask_all (data : Word) : data &&& lowMask 32 = data := (and_lowMask_eq_self_iff data 32).mpr data.isLt

theorem and_lowMask_byte (data : Word) : data &&& lowMask 8 = (data.extractLsb' 0 8).setWidth 32 := by
  refine BitVec.eq_of_toNat_eq ?_
  rw [toNat_and_lowMask, BitVec.toNat_setWidth_of_le (by decide), BitVec.extractLsb'_toNat, Nat.shiftRight_zero]

theorem and_lowMask_bit (data : Word) : data &&& lowMask 1 = if data.getLsbD 0 then 1 else 0 := by
  refine BitVec.eq_of_toNat_eq ?_
  rw [toNat_and_lowMask, BitVec.getLsbD, Nat.testBit_zero, Nat.pow_one]
  obtain even | odd := Nat.mod_two_eq_zero_or_one data.toNat
  · rw [even]
    rfl
  · rw [odd]
    rfl

/-! ## The forms of the decoder (R71 to R74) -/

/-- The word has the opcode of the form and sets no bit outside the operands the form uses (R74). -/
structure OpForm.Fits (f : OpForm) (w : Cmd) : Prop where
  op       : f.op = opField w
  reserved : reservedField w = 0
  sym      : f.usesSym = true ∨ symField w = 0
  data     : (dataField w).toNat < 2 ^ f.dataBits

theorem OpForm.fits_iff (f : OpForm) (w : Cmd) : f.Fits w ↔ f.op = opField w ∧ f.operandsLegal w = true := by
  simp only [OpForm.operandsLegal, Bool.and_eq_true, Bool.or_eq_true, beq_iff_eq, decide_eq_true_eq]
  exact ⟨fun ⟨op, reserved, sym, data⟩ => ⟨op, ⟨reserved, sym⟩, data⟩,
    fun ⟨op, ⟨reserved, sym⟩, data⟩ => ⟨op, reserved, sym, data⟩⟩

theorem opForms_op_nodup : (opForms.map OpForm.op).Nodup := by decide

/-- No two forms share an opcode (R73). -/
theorem OpForm.eq_of_op_eq {f g : OpForm} (hf : f ∈ opForms) (hg : g ∈ opForms) (h : f.op = g.op) : f = g :=
  List.inj_on_of_nodup_map opForms_op_nodup hf hg h

theorem OpForm.Fits.unique {f g : OpForm} {w : Cmd} (hf : f ∈ opForms) (hg : g ∈ opForms) (h : f.Fits w) (k : g.Fits w) :
    f = g :=
  OpForm.eq_of_op_eq hf hg (h.op.trans k.op.symm)

/-- What the decoder reads: the command of the one form that the word fits. -/
theorem decode_eq_some_iff (w : Cmd) (i : Instr) :
    decode w = some i ↔ ∃ f ∈ opForms, f.Fits w ∧ f.build (symField w) (dataField w) = i := by
  simp only [OpForm.fits_iff]
  unfold decode
  cases found : opForms.find? (fun f => f.op == opField w) with
  | none =>
    refine ⟨nofun, fun ⟨f, hf, ⟨op, _⟩, _⟩ => ?_⟩
    exact absurd (beq_iff_eq.mpr op) (List.find?_eq_none.mp found f hf)
  | some g =>
    have hg := List.mem_of_find?_eq_some found
    have op : g.op = opField w := by simpa using List.find?_some found
    rw [Option.ite_none_right_eq_some, Option.some_inj]
    refine ⟨fun ⟨legal, made⟩ => ⟨g, hg, ⟨op, legal⟩, made⟩, fun ⟨f, hf, ⟨opF, legal⟩, made⟩ => ?_⟩
    cases OpForm.eq_of_op_eq hf hg (opF.trans op.symm)
    exact ⟨legal, made⟩

theorem decode_eq_none_iff (w : Cmd) : decode w = none ↔ ∀ f ∈ opForms, ¬ f.Fits w := by
  simp only [Option.eq_none_iff_forall_ne_some, ne_eq, decode_eq_some_iff, not_exists, not_and]
  exact ⟨fun h f hf fits => h _ f hf fits rfl, fun h _ f hf fits _ => h f hf fits⟩

/-! ## Decoding what was encoded (R70 to R75) -/

/-- A command is read back from its word when the form of its opcode uses the command's operand bits and makes it from them. -/
theorem decode_encode_of_form {i : Instr} {f : OpForm} (found : opForms.find? (fun f => f.op == i.opcode) = some f)
    (sym : f.usesSym = true ∨ i.symOperand = 0) (data : i.dataOperand.toNat < 2 ^ f.dataBits)
    (made : f.build i.symOperand i.dataOperand = i) : decode (encode i) = some i := by
  obtain ⟨opE, reservedE, symE, dataE⟩ := EncodeFields.of_cmdWord i
  have op : f.op = i.opcode := by simpa using List.find?_some found
  exact (decode_eq_some_iff _ i).mpr ⟨f, List.mem_of_find?_eq_some found,
    ⟨op.trans opE.symm, reservedE, symE ▸ sym, dataE ▸ data⟩, by rw [symE, dataE, made]⟩

theorem toNat_byteOperand_lt (byte : Byte) : (byte.setWidth 32).toNat < 2 ^ 8 := by
  rw [BitVec.toNat_setWidth_of_le (by decide)]
  exact byte.isLt

theorem extractLsb'_byteOperand (byte : Byte) : (byte.setWidth 32).extractLsb' 0 8 = byte := by
  rw [BitVec.extractLsb'_setWidth_of_le (by decide), BitVec.extractLsb'_eq_self]

/-- Settles O1: command by command, the form of its opcode makes it from its operands. -/
theorem decodeOfEncodeGivesInstruction : Obligations.DecodeOfEncodeGivesInstruction := by
  intro i
  cases i with
  | nop | coreReset | fmReset | fmGettotal | fmWriteHeader | fmReadHeader | bwFinalize | brReadBit | encInit | encFinish
  | decInit | decNext => exact decode_encode_of_form rfl (.inr rfl) (by decide) rfl
  | fmGetcount _ | fmGetlow _ | fmGethigh _ | encUpdate _ => exact decode_encode_of_form rfl (.inl rfl) Nat.one_pos rfl
  | fmSetcount _ data => exact decode_encode_of_form rfl (.inl rfl) data.isLt rfl
  | fmLookup data | brAttach data => exact decode_encode_of_form rfl (.inr rfl) data.isLt rfl
  | fmSeal src => cases src <;> exact decode_encode_of_form rfl (.inr rfl) (by decide) rfl
  | bwWriteBit bit => cases bit <;> exact decode_encode_of_form rfl (.inr rfl) (by decide) rfl
  | fmCount byte =>
    exact decode_encode_of_form rfl (.inr rfl) (toNat_byteOperand_lt byte)
      (congrArg Instr.fmCount (extractLsb'_byteOperand byte))
  | bwWriteRawByte byte =>
    exact decode_encode_of_form rfl (.inr rfl) (toNat_byteOperand_lt byte)
      (congrArg Instr.bwWriteRawByte (extractLsb'_byteOperand byte))

/-! ## Encoding what was decoded (R77) -/

theorem opForms_symOperand : ∀ f ∈ opForms, ∀ sym data, (f.build sym data).symOperand = if f.usesSym then sym else 0 := by
  simp [opForms, coreForms, modelForms, packerForms, coderForms, Instr.symOperand]

theorem sealSource_dataOperand (data : Word) :
    (Instr.fmSeal (sealSourceOf data)).dataOperand = if data.getLsbD 0 then 1 else 0 := by
  unfold sealSourceOf
  cases data.getLsbD 0 <;> rfl

/-- The `DATA` operand of what a form makes: the bits of `DATA` the form uses (R72). -/
theorem opForms_dataOperand : ∀ f ∈ opForms, ∀ sym data, (f.build sym data).dataOperand = data &&& lowMask f.dataBits := by
  simpa [opForms, coreForms, modelForms, packerForms, coderForms, Instr.dataOperand, and_lowMask_zero, and_lowMask_all,
    and_lowMask_byte, and_lowMask_bit] using sealSource_dataOperand

/-- Settles O2: the operands of what a form makes are the word's fields, because the word fits the form. -/
theorem encodeOfDecodeGivesWord : Obligations.EncodeOfDecodeGivesWord := by
  intro w i read
  obtain ⟨f, hf, fits, rfl⟩ := (decode_eq_some_iff w i).mp read
  have op : (f.build (symField w) (dataField w)).opcode = opField w := (Machine.opField_of_decode w _ read).symm
  have sym : (f.build (symField w) (dataField w)).symOperand = symField w := by
    rw [opForms_symOperand f hf]
    obtain used | zero := fits.sym
    · rw [if_pos used]
    · rw [zero, ite_self]
  have data : (f.build (symField w) (dataField w)).dataOperand = dataField w := by
    rw [opForms_dataOperand f hf, (and_lowMask_eq_self_iff _ _).mpr fits.data]
  rw [encode, op, sym, data, cmdWord_of_fields w fits.reserved]

/-! ## The rows of the table are the forms (R73, R74) -/

/-- The row of a form: the mask has every bit but those of the operands the form uses. -/
def OpForm.row (f : OpForm) : OpcodeRow where
  mnemonic := (f.build 0 0).mnemonic
  pat := cmdWord f.op 0 0
  mask := BitVec.allOnes 8 ++ BitVec.allOnes 15 ++ (if f.usesSym then 0 else BitVec.allOnes 9) ++ ~~~ lowMask f.dataBits

theorem opForms_map_row : opForms.map OpForm.row = opcodeTable := by decide

theorem opForms_mnemonic : ∀ f ∈ opForms, ∀ sym data, (f.build sym data).mnemonic = f.row.mnemonic := by
  simp [opForms, coreForms, modelForms, packerForms, coderForms, Instr.mnemonic, OpForm.row]

/-- A form's row matches the words that fit the form: the mask and the match, field by field. -/
theorem OpForm.row_matches_iff (f : OpForm) (w : Cmd) : w &&& f.row.mask = f.row.pat ↔ f.Fits w := by
  have sym : symField w &&& (if f.usesSym then 0 else BitVec.allOnes 9) = 0 ↔ f.usesSym = true ∨ symField w = 0 := by
    cases f.usesSym with
    | true => simp
    | false => rw [if_neg Bool.false_ne_true, BitVec.and_allOnes, or_iff_right Bool.false_ne_true]
  calc w &&& f.row.mask = f.row.pat
    _ ↔ opField w ++ reservedField w ++ symField w ++ dataField w &&& f.row.mask = f.row.pat := by rw [fields_append]
    _ ↔ ((opField w &&& BitVec.allOnes 8 = f.op ∧ reservedField w &&& BitVec.allOnes 15 = 0)
          ∧ symField w &&& (if f.usesSym then 0 else BitVec.allOnes 9) = 0)
        ∧ dataField w &&& ~~~ lowMask f.dataBits = 0 := by
      simp only [← append_and_eq_append_iff]
      rfl
    _ ↔ f.Fits w := by
      rw [BitVec.and_allOnes, BitVec.and_allOnes, sym, and_not_lowMask_eq_zero_iff]
      exact ⟨fun ⟨⟨⟨op, reserved⟩, sym⟩, data⟩ => ⟨op.symm, reserved, sym, data⟩,
        fun ⟨op, reserved, sym, data⟩ => ⟨⟨⟨op.symm, reserved⟩, sym⟩, data⟩⟩

theorem mem_opcodeTable_iff (r : OpcodeRow) : r ∈ opcodeTable ↔ ∃ f ∈ opForms, f.row = r := by
  rw [← opForms_map_row, List.mem_map]

/-- Settles O3: the rows are the forms, and a word fits at most one form. -/
theorem decoderReadsTheMatchingTableRow : Obligations.DecoderReadsTheMatchingTableRow := by
  simp only [Obligations.DecoderReadsTheMatchingTableRow, mem_opcodeTable_iff]
  refine ⟨?_, ?_, ?_⟩
  · rintro w _ ⟨f, hf, rfl⟩ matched
    have fits := (f.row_matches_iff w).mp matched
    exact ⟨_, (decode_eq_some_iff w _).mpr ⟨f, hf, fits, rfl⟩, opForms_mnemonic f hf _ _⟩
  · intro w i read
    obtain ⟨f, hf, fits, rfl⟩ := (decode_eq_some_iff w i).mp read
    exact ⟨_, ⟨f, hf, rfl⟩, (f.row_matches_iff w).mpr fits, (opForms_mnemonic f hf _ _).symm⟩
  · rintro w _ _ ⟨f, hf, rfl⟩ ⟨g, hg, rfl⟩ matchedF matchedG
    rw [((f.row_matches_iff w).mp matchedF).unique hf hg ((g.row_matches_iff w).mp matchedG)]

/-! ## The illegal words (R74) -/

/-- The forms outside R71's list of opcodes are the ones that do not use `SYM`. -/
theorem opForms_usesSym : ∀ f ∈ opForms, f.op ∉ [(0x12 : BitVec 8), 0x14, 0x15, 0x16, 0x31] ↔ f.usesSym = false := by
  decide

theorem opForms_r72DataBits : ∀ f ∈ opForms, r72DataBits f.op = lowMask f.dataBits := by decide

/-- The four cases of R74 are the words that fit no form. -/
theorem r74Illegal_iff (w : Cmd) : r74Illegal w ↔ ∀ f ∈ opForms, ¬ f.Fits w := by
  by_cases known : opField w ∈ opForms.map OpForm.op
  · obtain ⟨f, hf, op⟩ := List.mem_map.mp known
    have only : (∀ g ∈ opForms, ¬ g.Fits w) ↔ ¬ f.Fits w :=
      ⟨fun h => h f hf, fun h g hg fits => h (OpForm.eq_of_op_eq hg hf (fits.op.trans op.symm) ▸ fits)⟩
    have fits : f.Fits w ↔
        reservedField w = 0 ∧ (f.usesSym = true ∨ symField w = 0) ∧ (dataField w).toNat < 2 ^ f.dataBits :=
      ⟨fun ⟨_, reserved, sym, data⟩ => ⟨reserved, sym, data⟩, fun ⟨reserved, sym, data⟩ => ⟨op, reserved, sym, data⟩⟩
    change opField w ∉ opForms.map OpForm.op ∨ _ ↔ _
    rw [only, fits, or_iff_right (not_not.mpr known), ← op, opForms_usesSym f hf, opForms_r72DataBits f hf, ne_eq (_ &&& _),
      and_not_lowMask_eq_zero_iff, not_and_or, not_and_or, not_or, Bool.not_eq_true]
  · exact ⟨fun _ f hf fits => known (List.mem_map.mpr ⟨f, hf, fits.op⟩), fun _ => .inl known⟩

theorem decode_eq_none_iff_r74Illegal (w : Cmd) : decode w = none ↔ r74Illegal w := by
  rw [decode_eq_none_iff, r74Illegal_iff]

end Sys2Proof
end

section
/-! PROOFS. The family `30_encoding.md`, continued: what illegal words do (R74, R82), the range of `SYM` (R76), and who writes `RES`
(R81). -/

namespace Sys2Proof.Machine

/-! ## The range checks of SYM (30_encoding.md R76) -/

theorem byteCheck_fails {sym : BitVec 9} (h : 255 < sym.toNat) : (!isByteSymbol sym) = true :=
  (Bool.not_eq_true' _).mpr (isByteSymbol_of_gt h)

theorem byteCheck_passes {sym : BitVec 9} (h : sym.toNat ≤ 255) : ¬ (!isByteSymbol sym) = true :=
  ne_true_of_eq_false ((Bool.not_eq_false' _).mpr (isByteSymbol_of_le h))

theorem symbolCheck_fails {sym : BitVec 9} (h : 256 < sym.toNat) : (!isSymbol sym) = true :=
  (Bool.not_eq_true' _).mpr (isSymbol_of_gt h)

theorem symbolCheck_passes {sym : BitVec 9} (h : sym.toNat ≤ 256) : ¬ (!isSymbol sym) = true :=
  ne_true_of_eq_false ((Bool.not_eq_false' _).mpr (isSymbol_of_le h))

theorem execEncUpdate_of_gt {sym : BitVec 9} (h : 255 < sym.toNat) (s : State) :
    exec (.encUpdate sym) s = raise .invalidSymbol (Instr.encUpdate sym).opcode s :=
  if_pos (byteCheck_fails h)

/-! ## Illegal words and the example words (30_encoding.md R74, R82) -/

/-- A word without a command raises `ILLEGAL_COMMAND` (60_exceptions.md R243). -/
theorem stepCommand_illegal {s : State} {w : Cmd} (clean : s.err = .noError) (unread : decode w = none) :
    stepCommand w s = raise .illegalCommand (opField w) s := by
  obtain ⟨error, -⟩ | ⟨-, i, read, -⟩ | ⟨-, -, raised⟩ := stepCommand_cases w s
  · exact absurd clean error
  · cases unread.symm.trans read
  · exact raised

/-- Settles O5: a row of the table matches the words that fit its form, and R74's cases are the words that fit none. -/
theorem illegalWordsRaiseIllegalCommand : Obligations.IllegalWordsRaiseIllegalCommand := by
  refine ⟨fun w => ?_, fun s w rest waiting clean illegal => ?_, fun s w rest waiting clean legal => ?_⟩
  · rw [r74Illegal_iff, ← opForms_map_row, List.forall_mem_map]
    simp only [ne_eq, OpForm.row_matches_iff]
  · rw [step_command s w rest waiting]
    exact stepCommand_illegal clean ((decode_eq_none_iff_r74Illegal w).mpr illegal)
  · obtain ⟨i, read⟩ := Option.ne_none_iff_exists'.mp (mt (decode_eq_none_iff_r74Illegal w).mp legal)
    exact ⟨i, read, stepRunsTheDecodedCommand s w i rest waiting read (.inl clean)⟩

/-- Settles O4: the words are decoded, the symbol 256 fails the range check, and the word without a command is illegal. -/
theorem exampleWordsDecodeAsTabled : Obligations.ExampleWordsDecodeAsTabled := by
  refine ⟨by decide, by decide, by decide, by decide, by decide, by decide, by decide, by decide, by decide, by decide,
    by decide, by decide, by decide, fun s => ?_, fun s clean => ?_⟩
  · exact execEncUpdate_of_gt (by decide) s
  · exact stepCommand_illegal clean (by decide)

/-! ## INVALID_SYMBOL is the range checks' own (30_encoding.md R76) -/

/-- The outcome does not have the error `e`. -/
abbrev NotRaised (e : ErrCode) (x : Result) : Prop := ∀ t, x = .next t → t.err ≠ e

theorem NotRaised.next {e : ErrCode} {t : State} (h : t.err ≠ e) : NotRaised e (.next t) := by
  rintro _ ⟨⟩
  exact h

/-- A check that raises another error. -/
theorem NotRaised.check {c : Prop} [Decidable c] {e e' : ErrCode} {op : BitVec 8} {s : State} {x : Result}
    (other : e' ≠ e) (h : NotRaised e x) : NotRaised e (if c then raise e' op s else x) := by
  split
  · exact .next other
  · exact h

/-- Accesses end in the error of before, or in `IO_FAILURE` (60_exceptions.md R245). -/
theorem NotRaised.finish {α : Type} {e : ErrCode} {op : BitVec 8} {s : State} {x : Access α} (did : x.Did s)
    (io : ErrCode.ioFailure ≠ e) (h : s.err ≠ e) : NotRaised e (x.finish op) := by
  cases did with
  | done a t es trace _ => exact .next (trace.err ▸ h)
  | ioFailed => exact .next io

/-- Settles O16: the range of `SYM` is the first check of each of the five commands, and no later check of theirs raises
`INVALID_SYMBOL`. -/
theorem symbolOutOfRangeIsInvalid : Obligations.SymbolOutOfRangeIsInvalid := by
  intro s sym
  refine ⟨fun out => ⟨fun _ => if_pos (byteCheck_fails out), execEncUpdate_of_gt out s⟩,
    fun out => ⟨if_pos (symbolCheck_fails out), if_pos (symbolCheck_fails out), if_pos (symbolCheck_fails out)⟩,
    fun inRange clean => ?_, fun inRange clean => ?_⟩
  · have setcount (count : Word) : NotRaised .invalidSymbol (exec (.fmSetcount sym count) s) := by
      rw [exec, execFmSetcount, if_neg (byteCheck_passes inRange)]
      exact .check (by decide) (.next clean)
    have update : NotRaised .invalidSymbol (exec (.encUpdate sym) s) := by
      rw [exec, execEncUpdate, if_neg (byteCheck_passes inRange)]
      exact .check (by decide) (.check (by decide) (.finish (encodeSymbol_did _ s) (by decide) clean))
    rintro t (⟨count, h⟩ | h)
    exacts [setcount count t h, update t h]
  · have getcount : NotRaised .invalidSymbol (exec (.fmGetcount sym) s) := by
      rw [exec, execFmGetcount, if_neg (symbolCheck_passes inRange)]
      exact .next clean
    have getlow : NotRaised .invalidSymbol (exec (.fmGetlow sym) s) := by
      rw [exec, execFmGetlow, if_neg (symbolCheck_passes inRange)]
      exact .check (by decide) (.next clean)
    have gethigh : NotRaised .invalidSymbol (exec (.fmGethigh sym) s) := by
      rw [exec, execFmGethigh, if_neg (symbolCheck_passes inRange)]
      exact .check (by decide) (.next clean)
    rintro t (h | h | h)
    exacts [getcount t h, getlow t h, gethigh t h]

/-! ## Who writes RES (30_encoding.md R81) -/

/-- The seven commands of R81. -/
abbrev WritesRes (i : Instr) : Prop :=
  (∃ sym, i = .fmGetcount sym ∨ i = .fmGetlow sym ∨ i = .fmGethigh sym) ∨ i = .fmGettotal ∨ (∃ v, i = .fmLookup v)
    ∨ i = .brReadBit ∨ i = .decNext

theorem Regs.res_of_eq {r r' x : Regs} (h : r' = x) (same : x.res = r.res) : r'.res = r.res := h ▸ same

/-- A completed command other than the seven and `CORE_RESET` keeps `RES`. -/
theorem Regs.After.sameRes {w : Width} {r r' : Regs} {i : Instr} (h : r.After w r' i) (notReset : i ≠ .coreReset)
    (notWrites : ¬ WritesRes i) : r'.res = r.res := by
  cases i with
  | coreReset => exact absurd rfl notReset
  | fmGetcount sym | fmGetlow sym | fmGethigh sym => exact absurd (.inl ⟨sym, by simp⟩) notWrites
  | fmGettotal => exact absurd (.inr (.inl rfl)) notWrites
  | fmLookup v => exact absurd (.inr (.inr (.inl ⟨v, rfl⟩))) notWrites
  | brReadBit | decNext => exact absurd (.inr (.inr (.inr (by simp)))) notWrites
  | nop | fmWriteHeader | bwWriteRawByte _ => exact Regs.res_of_eq h rfl
  | fmReset | fmCount _ | brAttach _ | encInit => exact Regs.res_of_eq h.2 rfl
  | bwWriteBit _ | bwFinalize => exact Regs.res_of_eq h.1 rfl
  | fmSetcount _ _ | fmSeal _ =>
    obtain ⟨-, -, only⟩ := h
    exact Regs.res_of_eq only rfl
  | fmReadHeader =>
    obtain ⟨-, -, counts, -, only⟩ := h
    exact Regs.res_of_eq only rfl
  | encUpdate sym =>
    obtain ⟨-, -, -, encodes⟩ := h
    exact Regs.res_of_eq encodes.regs rfl
  | encFinish => exact Regs.res_of_eq h.2.regs rfl
  | decInit =>
    obtain ⟨-, -, -, only⟩ := h
    exact Regs.res_of_eq only rfl

/-- Settles O24: a command that completed changed `RES` only as its row of `Regs.After` says, and one that failed did not. -/
theorem onlyListedCommandsWriteRes : Obligations.OnlyListedCommandsWriteRes := by
  intro i s t h clean precise changed
  by_cases completed : t.err = .noError
  · by_contra unlisted
    obtain ⟨notReset, unlisted⟩ := not_or.mp unlisted
    exact changed ((exec_after h completed).sameRes notReset fun writes => unlisted ⟨completed, writes⟩)
  · exact absurd (congrArg Regs.res ((Ended.of_exec h).regs_of_precise_error clean completed precise)) changed

end Sys2Proof.Machine
end

section
/-! PROOFS. The family `40_frequency_model.md`: the cumulative table and the lookup (R101 to R103). -/

namespace Sys2Proof.Machine

/-! ## Sums of counts (R101, R102) -/

theorem countOf_le (count : Vector Word 256) (s : Nat) : countOf count s ≤ 2 ^ 32 - 1 := by
  unfold countOf
  split
  · exact Nat.le_sub_one_of_lt (BitVec.isLt _)
  · decide

theorem countsBelow_le (count : Vector Word 256) (n : Nat) : countsBelow count n ≤ n * (2 ^ 32 - 1) := by
  induction n with
  | zero => rw [countsBelow_zero, Nat.zero_mul]
  | succ n ih =>
    rw [countsBelow_succ, Nat.succ_mul]
    exact Nat.add_le_add ih (countOf_le count n)

theorem one_le_total (count : Vector Word 256) : 1 ≤ countsBelow count 257 := by
  rw [countsBelow_total]
  exact Nat.le_add_left 1 _

/-- The sub-interval of the symbol `s` holds the value (R103). -/
structure Subinterval (count : Vector Word 256) (s value : Nat) : Prop where
  low  : countsBelow count s ≤ value
  high : value < countsBelow count (s + 1)

theorem Subinterval.le {count : Vector Word 256} {s s' value : Nat} (h : Subinterval count s value)
    (h' : Subinterval count s' value) : s ≤ s' := by
  by_contra above
  have ordered := countsBelow_mono count (Nat.succ_le_of_lt (Nat.lt_of_not_le above))
  exact absurd (ordered.trans h.low) (Nat.not_le_of_gt h'.high)

theorem Subinterval.unique {count : Vector Word 256} {s s' value : Nat} (h : Subinterval count s value)
    (h' : Subinterval count s' value) : s = s' := Nat.le_antisymm (h.le h') (h'.le h)

/-- A symbol whose sub-interval holds a value occurs. -/
theorem Subinterval.counted {count : Vector Word 256} {s value : Nat} (h : Subinterval count s value) :
    1 ≤ countOf count s := by
  have nonempty := h.low.trans_lt h.high
  rw [countsBelow_succ] at nonempty
  omega

/-- A lookup in the table of the counts answers the symbol of a value below the total (R103). -/
theorem lookup_subinterval {count : Vector Word 256} {cum : Vector Nat 258} {value : Nat}
    (table : ∀ i, i < 258 → cumAt cum i = countsBelow count i) (below : value < countsBelow count 257) :
    lookup cum value ≤ 256 ∧ Subinterval count (lookup cum value) value := by
  obtain ⟨bound, low, high⟩ := lookup_finds (table 0 (by omega)) (below.trans_eq (table 257 (by omega)).symm)
  rw [table _ (by omega)] at low high
  exact ⟨bound, low, high⟩

/-- Settles O26: the entries of the table are the sums of the counts, and the lookup finds the symbol of a value. -/
theorem cumulativeTableProperties : Obligations.CumulativeTableProperties := by
  intro count
  simp only [cumTable_getElem]
  refine ⟨countsBelow_zero count, fun _ _ => trivial, fun i _ => countsBelow_mono count (Nat.le_succ i), ?_, fun s _ => ?_,
    fun v below => ?_, ?_⟩
  · rw [countsBelow_total, Nat.add_sub_cancel_left]
  · rw [countsBelow_succ]
    omega
  · obtain ⟨bound, found⟩ := lookup_subinterval (cumAt_cumTable count) below
    exact ⟨_, ⟨Nat.lt_succ_of_le bound, found.low, found.high⟩, fun s' _ low high => Subinterval.unique ⟨low, high⟩ found⟩
  · rw [countsBelow_total]
    exact Nat.add_le_add_right (countsBelow_le count 256) 1

/-! ## The lookup of a sealed model (R103) -/

theorem SealedTable.lookup_subinterval {w : Width} {r : Regs} (table : SealedTable w r) {value : Nat}
    (below : value < r.total) : lookup r.cum value ≤ 256 ∧ Subinterval r.count (lookup r.cum value) value :=
  Machine.lookup_subinterval table.cumAt_eq (below.trans_eq table.total_eq)

/-- Settles O27: the lookup ends in the sub-interval of the value, and no two sub-intervals meet. -/
theorem lookupFindsTheSubinterval : Obligations.LookupFindsTheSubinterval := by
  intro w r value sealed ready below sym
  have table := SealedTable.of_ready sealed ready
  obtain ⟨bound, found⟩ : sym ≤ 256 ∧ Subinterval r.count sym value := table.lookup_subinterval below
  rw [table.cumAt_eq sym (by omega), table.cumAt_eq (sym + 1) (by omega)]
  refine ⟨bound, found.low, found.high, found.counted, fun s hs low high => ?_⟩
  rw [table.cumAt_eq _ (by omega)] at low high
  exact Subinterval.unique ⟨low, high⟩ found

end Sys2Proof.Machine
end

section
/-! PROOFS. The family `40_frequency_model.md`, continued: the commands on the registers (R105, R110 to R118). -/

namespace Sys2Proof.Machine

/-! ## The checks of the state -/

theorem coderCheck_fails {r : Regs} (active : r.encState = .active ∨ r.decState = .active) : r.coderActive = true :=
  r.coderActive_iff.mpr active

theorem coderCheck_passes {r : Regs} (enc : r.encState ≠ .active) (dec : r.decState ≠ .active) :
    ¬ r.coderActive = true := ne_true_of_eq_false (Regs.coderActive_of_neither enc dec)

theorem readyCheck_fails {r : Regs} (isOpen : r.fmState = .openModel) : (!r.fmReady) = true :=
  (Bool.not_eq_true' _).mpr (Regs.fmReady_of_open isOpen)

theorem readyCheck_passes {r : Regs} (ready : r.fmState = .ready) : ¬ (!r.fmReady) = true :=
  ne_true_of_eq_false ((Bool.not_eq_false' _).mpr (r.fmReady_iff.mpr ready))

/-- Settles O15: the coder check is the first of four of the commands, and comes second, after the range of `SYM`, in
`FM_SETCOUNT`. -/
theorem activeCoderFreezesTheModel : Obligations.ActiveCoderFreezesTheModel := by
  intro s active
  have busy := coderCheck_fails active
  exact ⟨if_pos busy, fun _ => if_pos busy, fun _ _ inRange => (if_neg (byteCheck_passes inRange)).trans (if_pos busy),
    fun _ => if_pos busy, if_pos busy⟩

/-! ## Commands that open the model (R110 to R112) -/

/-- Settles O28: with no coder active the counts are replaced by zeros. -/
theorem fmResetClearsEveryCount : Obligations.FmResetClearsEveryCount := by
  intro s
  refine ⟨fun enc dec => ⟨_, if_neg (coderCheck_passes enc dec), fun k h => ?_, rfl⟩, fun active =>
    if_pos (coderCheck_fails active)⟩
  exact Vector.getElem_replicate h

theorem saturatingSucc_toNat (c : Word) : (saturatingSucc c).toNat = min (c.toNat + 1) (2 ^ 32 - 1) := by
  unfold saturatingSucc
  split
  case isTrue room =>
    have room : c.toNat < 2 ^ 32 - 1 := room
    rw [BitVec.toNat_add_of_lt (by simpa using Nat.add_lt_of_lt_sub room)]
    exact (Nat.min_eq_left room).symm
  case isFalse full =>
    have full : 2 ^ 32 - 1 ≤ c.toNat := Nat.not_lt.mp full
    omega

/-- Settles O29: one count is replaced by its successor, and a write to one count leaves the others. -/
theorem fmCountAddsOneSaturating : Obligations.FmCountAddsOneSaturating := by
  intro s byte
  refine ⟨fun enc dec => ⟨_, if_neg (coderCheck_passes enc dec), ?_, fun k h other => ?_, rfl⟩, fun active =>
    if_pos (coderCheck_fails active)⟩
  · rw [← saturatingSucc_toNat]
    exact congrArg BitVec.toNat (Vector.getElem_setIfInBounds_self byte.isLt)
  · exact Vector.getElem_setIfInBounds_ne h other.symm

/-- Settles O30: the range of `SYM` is checked before the coders, and one count is written. -/
theorem fmSetcountWritesOneCount : Obligations.FmSetcountWritesOneCount := by
  intro s sym count
  refine ⟨fun out => if_pos (byteCheck_fails out), fun inRange active =>
    (if_neg (byteCheck_passes inRange)).trans (if_pos (coderCheck_fails active)), fun inRange enc dec =>
    ⟨_, (if_neg (byteCheck_passes inRange)).trans (if_neg (coderCheck_passes enc dec)), fun k h => ?_, rfl⟩⟩
  simp only [State.withRegs_regs, Regs.writeCount_count, Vector.getElem_setIfInBounds, eq_comm (a := k)]

/-! ## FM_SEAL (R104, R113) -/

theorem sealTable_of_gt {w : Width} {count : Vector Word 256} (above : maxTotal w < countsBelow count 257) (e : ErrCode) :
    sealTable w count e = .error e := by
  obtain ⟨-, refused⟩ | ⟨within, -⟩ := sealTable_cases w count e
  · exact refused
  · exact absurd above (Nat.not_lt_of_le within)

theorem sealTable_of_le {w : Width} {count : Vector Word 256} (within : countsBelow count 257 ≤ maxTotal w) (e : ErrCode) :
    sealTable w count e = .ok (cumTable count) := by
  obtain ⟨above, -⟩ | ⟨-, accepted⟩ := sealTable_cases w count e
  · exact absurd above (Nat.not_lt_of_le within)
  · exact accepted

/-- The registers of a sealed model. -/
theorem Regs.commitTable_cumTable (r : Regs) (count : Vector Word 256) :
    r.commitTable (cumTable count) =
      { r with cum := cumTable count, total := countsBelow count 257, fmState := .ready } := by
  rw [Regs.commitTable, cumTable_getElem]

theorem execFmSeal_of_gt {s : State} {src : SealSource} (idle : ¬ s.regs.coderActive = true)
    (above : maxTotal s.width < countsBelow s.regs.count 257) :
    exec (.fmSeal src) s = raise (sealError src) (Instr.fmSeal src).opcode s := by
  rw [exec, execFmSeal, if_neg idle, sealTable_of_gt above]

theorem execFmSeal_of_le {s : State} {src : SealSource} (idle : ¬ s.regs.coderActive = true)
    (within : countsBelow s.regs.count 257 ≤ maxTotal s.width) :
    exec (.fmSeal src) s = .next (s.withRegs { s.regs with
      cum := cumTable s.regs.count, total := countsBelow s.regs.count 257, fmState := .ready }) := by
  rw [exec, execFmSeal, if_neg idle, sealTable_of_le within, ← Regs.commitTable_cumTable]

/-- Settles O31: sealing is the check of the total, and commits the table of the counts. -/
theorem fmSealValidatesAndBuildsTheTable : Obligations.FmSealValidatesAndBuildsTheTable := by
  intro s src
  refine ⟨one_le_total _, fun active => if_pos (coderCheck_fails active), fun enc dec above => ⟨?_, ?_⟩,
    fun enc dec within => ⟨_, execFmSeal_of_le (coderCheck_passes enc dec) within, cumTable_getElem _, rfl⟩⟩
  all_goals
    rintro rfl
    exact execFmSeal_of_gt (coderCheck_passes enc dec) above

/-! ## The getters (R114 to R117) -/

theorem execFmGetcount_of_le {s : State} {sym : BitVec 9} (hs : sym.toNat ≤ 256) :
    exec (.fmGetcount sym) s = setRes (countOf s.regs.count sym.toNat) s := if_neg (symbolCheck_passes hs)

/-- Settles O32: the count of a byte fits `RES` as it is, and the sentinel's is 1. -/
theorem fmGetcountReadsTheCount : Obligations.FmGetcountReadsTheCount := by
  intro s sym
  refine ⟨fun out => if_pos (symbolCheck_fails out), fun last => ?_, fun isByte => ?_⟩
  · rw [execFmGetcount_of_le last.le, last, countOf_sentinel]
    rfl
  · rw [execFmGetcount_of_le isByte.le, countOf, dif_pos isByte, setRes, BitVec.ofNat_toNat, BitVec.setWidth_eq]
    rfl

/-- Settles O33: the getters check the range of `SYM`, then the model, and read one entry of the table. -/
theorem cumulativeGettersReadTheTable : Obligations.CumulativeGettersReadTheTable := by
  intro s sym
  refine ⟨fun out => ⟨if_pos (symbolCheck_fails out), if_pos (symbolCheck_fails out)⟩,
    fun isOpen => ⟨fun inRange => ?_, if_pos (readyCheck_fails isOpen)⟩,
    fun ready => ⟨fun inRange => ?_, execFmGettotal_of_ready ready⟩⟩
  · have unready := readyCheck_fails isOpen
    have inRange := symbolCheck_passes inRange
    exact ⟨(if_neg inRange).trans (if_pos unready), (if_neg inRange).trans (if_pos unready)⟩
  · rw [execFmGetlow_of_ready inRange ready, execFmGethigh_of_ready inRange ready, cumAt_eq_getElem _ _ (by omega),
      cumAt_eq_getElem _ _ (by omega)]
    exact ⟨rfl, rfl⟩

/-! ## FM_LOOKUP (R118) -/

theorem execFmLookup_of_ready {s : State} {value : Word} (ready : s.regs.fmState = .ready)
    (below : value.toNat < s.regs.total) : exec (.fmLookup value) s = setRes (lookup s.regs.cum value.toNat) s :=
  (if_neg (readyCheck_passes ready)).trans (if_neg (Nat.not_le_of_gt below))

/-- The last value of the total is the sentinel's. -/
theorem subinterval_sentinel {count : Vector Word 256} {value : Nat} (last : value + 1 = countsBelow count 257) :
    Subinterval count 256 value := by
  have total := countsBelow_total count
  exact ⟨by omega, last ▸ Nat.lt_succ_self value⟩

/-- Settles O35: the symbol found fits `RES`, and the last value finds the sentinel because it finds only one symbol. -/
theorem fmLookupAnswersTheSymbol : Obligations.FmLookupAnswersTheSymbol := by
  intro s value
  refine ⟨fun isOpen => if_pos (readyCheck_fails isOpen), fun ready above =>
    (if_neg (readyCheck_passes ready)).trans (if_pos above), fun ready below sealed => ?_⟩
  have table := SealedTable.of_ready sealed ready
  obtain ⟨bound, found⟩ := table.lookup_subinterval below
  have res : (BitVec.ofNat 32 (lookup s.regs.cum value.toNat)).toNat = lookup s.regs.cum value.toNat := by
    rw [BitVec.toNat_ofNat, Nat.mod_eq_of_lt (by omega)]
  refine ⟨_, execFmLookup_of_ready ready below, ?_⟩
  simp only [State.withRegs_regs, res]
  refine ⟨bound, found.low, found.high, fun last => ?_, rfl⟩
  rw [found.unique (subinterval_sentinel (last.trans table.total_eq))]
  rfl

end Sys2Proof.Machine
end

section
/-! PROOFS. The family `40_frequency_model.md`, continued: the header of a model (R119, R120; 20_memory.md R55, R56). -/

namespace Sys2Proof.Machine

/-! ## The bytes of a header (20_memory.md R55, R56) -/

/-- Four bytes a word: byte `j` of word `k`. -/
theorem flatMap_bigEndianBytes_getElem? (words : List Word) (k : Nat) {j : Nat} (hj : j < 4) :
    (words.flatMap bigEndianBytes)[4 * k + j]? = words[k]?.bind fun c => (bigEndianBytes c)[j]? := by
  induction words generalizing k with
  | nil => simp
  | cons c cs ih =>
    have four : (bigEndianBytes c).length = 4 := rfl
    rw [List.flatMap_cons]
    cases k with
    | zero =>
      rw [Nat.mul_zero, Nat.zero_add, List.getElem?_append_left (hj.trans_eq four.symm)]
      rfl
    | succ k =>
      rw [List.getElem?_append_right (by omega), four, show 4 * (k + 1) + j - 4 = 4 * k + j by omega, ih k,
        List.getElem?_cons_succ]

theorem headerBytes_length (count : Vector Word 256) : (headerBytes count).length = 1024 := by
  have four (c : Word) : (bigEndianBytes c).length = 4 := rfl
  rw [headerBytes, List.length_flatMap]
  simp only [four]
  rw [List.map_const', List.sum_replicate, Vector.length_toList]
  rfl

theorem headerBytes_getElem? (count : Vector Word 256) {k : Nat} (hk : k < 256) {j : Nat} (hj : j < 4) :
    (headerBytes count)[4 * k + j]? = (bigEndianBytes count[k])[j]? := by
  rw [headerBytes, flatMap_bigEndianBytes_getElem? _ _ hj, Vector.getElem?_toList, Vector.getElem?_eq_getElem hk]
  rfl

/-- A byte moved up within a word loses no bit. -/
theorem shiftedByte_toNat (b : Byte) {n : Nat} (hn : n ≤ 24) : (b.setWidth 32 <<< n).toNat = b.toNat <<< n := by
  have fits : b.toNat <<< n < 2 ^ 32 := by
    rw [Nat.shiftLeft_eq]
    calc b.toNat * 2 ^ n < 2 ^ 8 * 2 ^ n := Nat.mul_lt_mul_of_pos_right b.isLt (Nat.two_pow_pos n)
      _ ≤ 2 ^ 8 * 2 ^ 24 := Nat.mul_le_mul_left _ (Nat.pow_le_pow_right (by decide) hn)
  rw [BitVec.toNat_shiftLeft, BitVec.toNat_setWidth_of_le (by decide), Nat.mod_eq_of_lt fits]

theorem bigEndianWord_eq_append (b0 b1 b2 b3 : Byte) : bigEndianWord b0 b1 b2 b3 = b0 ++ b1 ++ b2 ++ b3 := by
  have appended : (b0 ++ b1 ++ b2 ++ b3).toNat = b0.toNat <<< 24 ||| b1.toNat <<< 16 ||| b2.toNat <<< 8 ||| b3.toNat := by
    simp only [BitVec.toNat_append, Nat.shiftLeft_or_distrib, ← Nat.shiftLeft_add]
  refine BitVec.eq_of_toNat_eq (Eq.trans ?_ appended.symm)
  rw [bigEndianWord, BitVec.toNat_or, BitVec.toNat_or, BitVec.toNat_or, shiftedByte_toNat b0 (by decide),
    shiftedByte_toNat b1 (by decide), shiftedByte_toNat b2 (by decide), BitVec.toNat_setWidth_of_le (by decide)]

/-- A word is its four bytes. -/
theorem append_bytes (c : Word) :
    c.extractLsb' 24 8 ++ c.extractLsb' 16 8 ++ c.extractLsb' 8 8 ++ c.extractLsb' 0 8 = c := by
  have high : c.extractLsb' 24 8 ++ c.extractLsb' 16 8 = c.extractLsb' 16 16 :=
    BitVec.extractLsb'_append_extractLsb'_eq_extractLsb' rfl
  have middle : c.extractLsb' 16 16 ++ c.extractLsb' 8 8 = c.extractLsb' 8 24 :=
    BitVec.extractLsb'_append_extractLsb'_eq_extractLsb' rfl
  have low : c.extractLsb' 8 24 ++ c.extractLsb' 0 8 = c.extractLsb' 0 32 :=
    BitVec.extractLsb'_append_extractLsb'_eq_extractLsb' rfl
  rw [high, middle, low, BitVec.extractLsb'_eq_self]

/-- Word `k` of a byte sequence that is long enough. -/
theorem bigEndianWords_getElem? {k : Nat} {bytes : List Byte} (long : 4 * k + 3 < bytes.length) :
    (bigEndianWords bytes)[k]? =
      some (bigEndianWord (bytes.getD (4 * k) 0) (bytes.getD (4 * k + 1) 0) (bytes.getD (4 * k + 2) 0)
        (bytes.getD (4 * k + 3) 0)) := by
  induction k generalizing bytes with
  | zero =>
    match bytes, long with
    | b0 :: b1 :: b2 :: b3 :: rest, _ => rfl
  | succ k ih =>
    match bytes, long with
    | b0 :: b1 :: b2 :: b3 :: rest, long =>
      have long : 4 * (k + 1) + 3 < rest.length + 4 := long
      exact ih (by omega)

/-- The counts of a header read from a source. -/
theorem headerCounts_map_range {read : Nat → Byte} {counts : Vector Word 256}
    (source : ∀ k, (h : k < 256) →
      counts[k] = read (4 * k) ++ read (4 * k + 1) ++ read (4 * k + 2) ++ read (4 * k + 3)) :
    headerCounts ((List.range 1024).map read) = counts := by
  have byteAt : ∀ i, i < 1024 → ((List.range 1024).map read).getD i 0 = read i := fun i hi => by
    rw [List.getD_eq_getElem?_getD, List.getElem?_map, List.getElem?_range hi]
    rfl
  refine Vector.ext fun k hk => ?_
  have word := bigEndianWords_getElem? (k := k) (bytes := (List.range 1024).map read)
    (by rw [List.length_map, List.length_range]; omega)
  rw [byteAt _ (by omega), byteAt _ (by omega), byteAt _ (by omega), byteAt _ (by omega), bigEndianWord_eq_append] at word
  rw [headerCounts, Vector.getElem_ofFn, List.getD_eq_getElem?_getD, word, source k hk]
  rfl

/-! ## FM_WRITE_HEADER (R119) -/

/-- The check of the model and the encoder. -/
theorem writeCheck_fails {r : Regs} (h : r.fmState = .openModel ∨ r.encState = .active) :
    (!r.fmReady || r.encState == .active) = true :=
  (Bool.or_eq_true _ _).mpr (h.imp readyCheck_fails beq_iff_eq.mpr)

theorem writeCheck_passes {r : Regs} (ready : r.fmState = .ready) (enc : r.encState ≠ .active) :
    ¬ (!r.fmReady || r.encState == .active) = true := fun h =>
  ((Bool.or_eq_true _ _).mp h).elim (readyCheck_passes ready) fun active => enc (beq_iff_eq.mp active)

theorem execFmWriteHeader_of_aligned {s : State} (ready : s.regs.fmState = .ready) (enc : s.regs.encState ≠ .active)
    (aligned : s.regs.nacc = 0) :
    exec .fmWriteHeader s = (emitRawBytes (headerBytes s.regs.count) s).finish Instr.fmWriteHeader.opcode :=
  (if_neg (writeCheck_passes ready enc)).trans (if_neg (not_not.mpr aligned))

/-- Settles O36: the bytes are those of the counts, one write for each; the first write that fails ends the command. -/
theorem fmWriteHeaderSendsBigEndianCounts : Obligations.FmWriteHeaderSendsBigEndianCounts := by
  intro s
  refine ⟨fun h => if_pos (writeCheck_fails h), fun ready enc misaligned =>
    (if_neg (writeCheck_passes ready enc)).trans (if_pos misaligned), fun ready enc aligned =>
    ⟨headerBytes s.regs.count, headerBytes_length _, fun k hk => ?_, fun granted => ?_, fun failing => ?_⟩⟩
  · exact ⟨headerBytes_getElem? _ hk (j := 0) (by omega), headerBytes_getElem? _ hk (j := 1) (by omega),
      headerBytes_getElem? _ hk (j := 2) (by omega), headerBytes_getElem? _ hk (j := 3) (by omega)⟩
  · rw [execFmWriteHeader_of_aligned ready enc aligned, emitRawBytes_granted]
    · rfl
    · rwa [headerBytes_length]
  · have makes := (emitRawBytes_makes (headerBytes s.regs.count) s).finish_failed Instr.fmWriteHeader.opcode
    rw [List.length_map, headerBytes_length, ← execFmWriteHeader_of_aligned ready enc aligned] at makes
    obtain ⟨k, t, hk, before, failed, run, err, op, out⟩ := makes failing
    rw [sunkBytes_writeEvents] at out
    exact ⟨k, t, hk, before, failed, run, err, op, out⟩

/-! ## FM_READ_HEADER (R120) -/

theorem commitHeader_of_gt {counts : Vector Word 256} {s : State} (above : maxTotal s.width < countsBelow counts 257) :
    commitHeader counts s = raise .corruptHeader Instr.fmReadHeader.opcode s := by
  rw [commitHeader, sealTable_of_gt above]

theorem commitHeader_of_le {counts : Vector Word 256} {s : State} (within : countsBelow counts 257 ≤ maxTotal s.width) :
    commitHeader counts s = .next (s.withRegs { s.regs with
      count := counts, cum := cumTable counts, total := countsBelow counts 257, fmState := .ready
      rpos := s.regs.rpos + 8192 }) := by
  rw [commitHeader, sealTable_of_le within]
  simp only [Regs.commitTable_cumTable]
  rfl

/-- The source holds these counts as a header, from the byte the reader stands on. -/
abbrev State.HoldsHeader (s : State) (counts : Vector Word 256) : Prop :=
  ∀ k, (h : k < 256) → counts[k] =
    s.input.read (s.regs.rpos / 8 + 4 * k) ++ s.input.read (s.regs.rpos / 8 + 4 * k + 1)
      ++ s.input.read (s.regs.rpos / 8 + 4 * k + 2) ++ s.input.read (s.regs.rpos / 8 + 4 * k + 3)

/-- The checks `FM_READ_HEADER` makes before it reads have passed. -/
structure State.MayReadHeader (s : State) : Prop where
  idle    : ¬ s.regs.coderActive = true
  aligned : ¬ s.regs.rpos % 8 ≠ 0
  room    : ¬ s.regs.rpos / 8 + headerBytesLen > s.regs.brLen.toNat

/-- A read that fails ends the command, and the sink has gained nothing (60_exceptions.md R245). -/
theorem State.MayReadHeader.exec_failed {s : State} (h : s.MayReadHeader) (failing : ¬ s.grants 1024) :
    ∃ t, exec .fmReadHeader s = .next t ∧ t.err = .ioFailure ∧ t.errOp = 0x1A ∧ t.out = s.out := by
  obtain ⟨k, hk, before, failed⟩ := State.first_failure failing
  obtain ⟨u, ended, out⟩ := (sourceReadMany_makes headerBytesLen (s.regs.rpos / 8) s).failed k
    (by rwa [List.length_map, List.length_map, List.length_range]) before failed
  rw [sunkBytes_readEvents, List.append_nil] at out
  refine ⟨ioFailureEntry Instr.fmReadHeader.opcode u, ?_, rfl, rfl, out⟩
  rw [exec, execFmReadHeader, if_neg h.idle, if_neg h.aligned, if_neg h.room, ended]

/-- With every read granted the counts of the source are committed, or raise. -/
theorem State.MayReadHeader.exec_granted {s : State} (h : s.MayReadHeader) (granted : s.grants 1024)
    {counts : Vector Word 256} (source : s.HoldsHeader counts) :
    exec .fmReadHeader s =
      commitHeader counts (s.afterReads ((List.range 1024).map (s.regs.rpos / 8 + ·))) := by
  rw [exec, execFmReadHeader, if_neg h.idle, if_neg h.aligned, if_neg h.room,
    sourceReadMany_granted headerBytesLen _ _ granted]
  exact congrArg (commitHeader · _) (headerCounts_map_range source)

theorem State.MayReadHeader.exec_refused {s : State} (h : s.MayReadHeader) (granted : s.grants 1024)
    {counts : Vector Word 256} (source : s.HoldsHeader counts) (above : maxTotal s.width < countsBelow counts 257) :
    exec .fmReadHeader s =
      raise .corruptHeader Instr.fmReadHeader.opcode (s.afterReads ((List.range 1024).map (s.regs.rpos / 8 + ·))) := by
  rw [h.exec_granted granted source, commitHeader_of_gt (by rwa [State.afterReads_width])]

theorem State.MayReadHeader.exec_sealed {s : State} (h : s.MayReadHeader) (granted : s.grants 1024)
    {counts : Vector Word 256} (source : s.HoldsHeader counts) (within : countsBelow counts 257 ≤ maxTotal s.width) :
    exec .fmReadHeader s =
      .next ((s.afterReads ((List.range 1024).map (s.regs.rpos / 8 + ·))).withRegs { s.regs with
        count := counts, cum := cumTable counts, total := countsBelow counts 257, fmState := .ready
        rpos := s.regs.rpos + 8192 }) := by
  rw [h.exec_granted granted source, commitHeader_of_le (by rwa [State.afterReads_width])]
  rfl

/-- Settles O37: after the checks the header is read and its counts are sealed; a read that fails ends the command. -/
theorem fmReadHeaderLoadsAndSeals : Obligations.FmReadHeaderLoadsAndSeals := by
  intro s counts source
  refine ⟨fun active => if_pos (coderCheck_fails active), fun enc dec => ?_⟩
  have idle := coderCheck_passes enc dec
  have ready (aligned : s.regs.rpos % 8 = 0) (room : s.regs.rpos / 8 + 1024 ≤ s.regs.brLen.toNat) : s.MayReadHeader :=
    ⟨idle, not_not.mpr aligned, Nat.not_lt_of_le room⟩
  refine ⟨fun misaligned => (if_neg idle).trans (if_pos misaligned), fun aligned short =>
    (if_neg idle).trans ((if_neg (not_not.mpr aligned)).trans (if_pos short)), fun aligned room failing =>
    (ready aligned room).exec_failed failing, fun aligned room granted => ?_⟩
  exact ⟨fun above => (ready aligned room).exec_refused granted source above,
    fun within => ⟨cumTable counts, cumTable_getElem counts, (ready aligned room).exec_sealed granted source within⟩⟩

/-! ## Write, then read back (R280) -/

/-- The source holds the bytes presented first. -/
theorem Memory.read_ofBytes_append {bytes : List Byte} {i : Nat} {b : Byte} (held : bytes[i]? = some b) (body : List Byte) :
    (Memory.ofBytes (bytes ++ body)).read i = b := by
  obtain ⟨inside, -⟩ := List.getElem?_eq_some_iff.mp held
  rw [Memory.read_ofBytes, List.getD_eq_getElem?_getD, List.getElem?_append_left inside, held, Option.getD_some]

/-- Settles O38: the bytes written make the counts read, and a sealed table is the table of its counts. -/
theorem headerReadBackGivesTheSameModel : Obligations.HeaderReadBackGivesTheSameModel := by
  intro a b body ready enc aligned grantedA sealed width encB decB start room grantedB
  obtain ⟨-, -, writes⟩ := fmWriteHeaderSendsBigEndianCounts a
  obtain ⟨bytes, -, counts, written, -⟩ := writes ready enc aligned
  obtain ⟨b', run, -⟩ := exec_ended .fmReadHeader b
  refine ⟨a.afterWrites bytes, b', bytes, written grantedA, rfl, fun input => ?_⟩
  have table := SealedTable.of_ready sealed ready
  have source : b.HoldsHeader a.regs.count := fun k hk => by
    obtain ⟨byte0, byte1, byte2, byte3⟩ := counts k hk
    rw [start, input, Nat.zero_div, Nat.zero_add, Memory.read_ofBytes_append byte0, Memory.read_ofBytes_append byte1,
      Memory.read_ofBytes_append byte2, Memory.read_ofBytes_append byte3]
    exact (append_bytes _).symm
  have budget : countsBelow a.regs.count 257 ≤ maxTotal b.width := by
    rw [width, ← table.total_eq]
    exact table.budget
  have reads : b.MayReadHeader := by
    refine ⟨coderCheck_passes encB decB, ?_, ?_⟩
    · rw [start]
      decide
    · rw [start, Nat.zero_div, Nat.zero_add]
      exact Nat.not_lt_of_le room
  have loaded := reads.exec_sealed grantedB source budget
  cases run.symm.trans loaded
  refine ⟨loaded, rfl, (sealed ready).1.symm, table.total_eq.symm, rfl, ?_⟩
  rw [State.withRegs_regs, start]

end Sys2Proof.Machine
end

section
/-! PROOFS. The family `41_bit_packer.md`: the writer's and the reader's commands (R140 to R142, R150 to R154). Each command is one
check of a coder's state and then the spec of its primitive, granted or failed. -/

namespace Sys2Proof.Machine

/-! ## A command of one access -/

/-- When its one access fails a command ends in `IO_FAILURE`, and the sink has gained nothing (60_exceptions.md R245). -/
theorem Access.Makes.finish_failed_single {α : Type} {e : IoEvent} {s : State} {x : Access α} (h : x.Makes [e] s)
    (op : BitVec 8) (failing : ¬ s.grants 1) :
    ∃ t, x.finish op = .next t ∧ t.err = .ioFailure ∧ t.errOp = op ∧ t.out = s.out := by
  obtain ⟨k, t, first, -, -, run, err, errOp, out⟩ := h.finish_failed op failing
  obtain rfl : k = 0 := Nat.lt_one_iff.mp first
  exact ⟨t, run, err, errOp, out.trans (List.append_nil _)⟩

/-! ## BW_FINALIZE (R152) -/

/-- A byte shifted up by the places left holds its low bits first and then zeros. -/
theorem lowBits_shiftLeft (acc : Byte) {n m : Nat} (places : n + m = 8) :
    lowBits 8 (acc <<< m) = lowBits n acc ++ List.replicate m false := by
  have held : ∀ k ∈ List.range n, (acc <<< m).getLsbD (8 - 1 - k) = acc.getLsbD (n - 1 - k) := fun k hk => by
    have hk : k < n := List.mem_range.mp hk
    rw [BitVec.getLsbD_shiftLeft, decide_eq_true (by omega), decide_eq_false (by omega),
      show 8 - 1 - k - m = n - 1 - k by omega]
    rfl
  have padded : ∀ k ∈ List.range m, (acc <<< m).getLsbD (8 - 1 - (n + k)) = false := fun k hk => by
    have hk : k < m := List.mem_range.mp hk
    rw [BitVec.getLsbD_shiftLeft, decide_eq_true (show 8 - 1 - (n + k) < m by omega)]
    simp
  have zeros : (List.range m).map (fun k => (acc <<< m).getLsbD (8 - 1 - (n + k))) = List.replicate m false := by
    rw [List.map_congr_left padded, List.map_const', List.length_range]
  have split : List.range 8 = List.range n ++ (List.range m).map (n + ·) := places ▸ List.range_add
  rw [lowBits, split, List.map_append, List.map_map, List.map_congr_left held]
  exact congrArg (lowBits n acc ++ ·) zeros

theorem bitsMsbFirst_paddedByte (r : Regs) :
    bitsMsbFirst (paddedByte r) = r.pendingBits ++ List.replicate (8 - r.nacc.toNat) false :=
  lowBits_shiftLeft r.acc (Nat.add_sub_cancel' r.nacc.isLt.le)

theorem execBwFinalize_of_pending {s : State} (enc : s.regs.encState ≠ .active) (pending : s.regs.nacc ≠ 0) :
    exec .bwFinalize s =
      ((sinkWrite (paddedByte s.regs) s).thenRegs fun _ r => { r with finBits := r.nacc, acc := 0, nacc := 0 }).finish
        Instr.bwFinalize.opcode :=
  (if_neg enc).trans (if_pos pending)

/-- Settles O42: the byte sent is the padded byte of the accumulator. -/
theorem bwFinalizePadsWithZeros : Obligations.BwFinalizePadsWithZeros := by
  intro s
  refine ⟨fun active => if_pos active, fun enc empty => (if_neg enc).trans (if_neg (not_not.mpr empty)),
    fun enc pending granted => ⟨paddedByte s.regs, ?_, bitsMsbFirst_paddedByte s.regs⟩, fun enc pending failing => ?_⟩
  · rw [execBwFinalize_of_pending enc pending, sinkWrite_granted _ _ granted]
    rfl
  · rw [execBwFinalize_of_pending enc pending]
    exact (sinkWrite_makes _ s).thenRegs.finish_failed_single _ failing

/-! ## BR_ATTACH (R153) -/

/-- Settles O43: the array attached is the presented one cut at `len`. -/
theorem brAttachRewindsToTheNewInput : Obligations.BrAttachRewindsToTheNewInput := by
  intro s len
  exact ⟨fun active => if_pos active, fun dec => ⟨s.presented.restrict len.toNat, if_neg dec, fun k below =>
    Memory.read_restrict_of_lt len.toNat k s.presented below⟩⟩

/-! ## BR_READ_BIT (R142, R154) -/

theorem State.inputBit_of_lt {s : State} {i : Nat} (inside : i < s.regs.inputBits) :
    s.inputBit i = (s.input.read (i / 8)).getLsbD (7 - i % 8) := if_pos inside

theorem ofNat_toNat_bool (b : Bool) : BitVec.ofNat 32 b.toNat = if b then 1 else 0 := by
  cases b <;> rfl

theorem execBrReadBit_of_idle {s : State} (dec : s.regs.decState ≠ .active) :
    exec .brReadBit s =
      ((nextBit s).thenRegs fun b r => { r with res := BitVec.ofNat 32 b.toNat }).finish Instr.brReadBit.opcode :=
  if_neg dec

theorem nextBit_makes_single {s : State} (inside : s.regs.rpos < s.regs.inputBits) :
    (nextBit s).Makes [.sourceRead (s.regs.rpos / 8) .success] s := by
  have one : min 1 (s.regs.inputBits - s.regs.rpos) = 1 := by omega
  have makes := nextBit_makes s
  rwa [Regs.comingReads, one] at makes

/-- Settles O44: the bit read is the next bit of the input, with one source read below the end and none at it. -/
theorem brReadBitReadsMsbFirst : Obligations.BrReadBitReadsMsbFirst := by
  intro s
  refine ⟨fun active => if_pos active, fun dec inside granted => ?_, fun dec ended => ?_, fun dec inside failing => ?_⟩
  · rw [execBrReadBit_of_idle dec, nextBit_granted s inside granted, State.inputBit_of_lt inside, Access.done_thenRegs,
      ofNat_toNat_bool]
    rfl
  · rw [execBrReadBit_of_idle dec, nextBit_at_end s (Nat.not_lt_of_le ended)]
    rfl
  · rw [execBrReadBit_of_idle dec]
    exact (nextBit_makes_single inside).thenRegs.finish_failed_single _ failing

/-! ## BW_WRITE_BIT (R140, R150) -/

theorem shiftInBit_eq_or (acc : Byte) (b : Bool) : shiftInBit acc b = (acc <<< 1) ||| (if b then 1 else 0) := by
  cases b <;> rfl

theorem emitBit_makes_single {s : State} (bit : Bool) (full : s.regs.nacc = 7) :
    (emitBit bit s).Makes [.sinkWrite (shiftInBit s.regs.acc bit) .success] s := by
  have makes := emitBit_makes bit s
  rwa [packBits, if_pos full] at makes

theorem execBwWriteBit_of_idle {s : State} (enc : s.regs.encState ≠ .active) (bit : Bool) :
    exec (.bwWriteBit bit) s = (emitBit bit s).finish (Instr.bwWriteBit bit).opcode := if_neg enc

/-- Settles O39: the bit goes into the accumulator, and from a full one to the sink. -/
theorem bwWriteBitFillsTheAccumulator : Obligations.BwWriteBitFillsTheAccumulator := by
  intro s bit
  refine ⟨fun active => if_pos active, fun enc room => ?_, fun enc full granted => ?_, fun enc full failing => ?_⟩
  · rw [execBwWriteBit_of_idle enc, emitBit_of_room bit s room, shiftInBit_eq_or]
    rfl
  · rw [execBwWriteBit_of_idle enc, emitBit_of_full_granted bit s full granted, shiftInBit_eq_or]
    rfl
  · rw [execBwWriteBit_of_idle enc]
    exact (emitBit_makes_single bit full).finish_failed_single _ failing

/-! ## BW_WRITE_RAW_BYTE (R141, R151) -/

theorem execBwWriteRawByte_of_aligned {s : State} (enc : s.regs.encState ≠ .active) (aligned : s.regs.nacc = 0)
    (byte : Byte) :
    exec (.bwWriteRawByte byte) s = (emitRawByte byte s).finish (Instr.bwWriteRawByte byte).opcode :=
  (if_neg enc).trans (if_neg (not_not.mpr aligned))

/-- Settles O41: past the two checks the byte is one write to the sink, and no register takes part. -/
theorem bwWriteRawByteBypassesTheAccumulator : Obligations.BwWriteRawByteBypassesTheAccumulator := by
  intro s byte
  refine ⟨fun active => if_pos active, fun enc misaligned => (if_neg enc).trans (if_pos misaligned),
    fun enc aligned granted => ?_, fun enc aligned failing => ?_⟩
  · rw [execBwWriteRawByte_of_aligned enc aligned, emitRawByte, sinkWrite_granted byte s granted]
    rfl
  · rw [execBwWriteRawByte_of_aligned enc aligned]
    exact (sinkWrite_makes byte s).finish_failed_single _ failing

end Sys2Proof.Machine
end

section
/-! PROOFS. The family `42_encoder.md`: the interval algebra (R171 to R174, R178, R179). -/

namespace Sys2Proof.Machine

/-! ## Adjoining parts of an interval (R171) -/

/-- The parts of the total that a counted symbol begins and ends at stay apart when they are scaled to an interval at least as wide
as the total. -/
theorem scaled_parts_apart {total range low high : Nat} (pos : 0 < total) (counted : low < high) (fits : total ≤ range) :
    low * range / total + 1 ≤ high * range / total := by
  rw [← Nat.add_div_right _ pos]
  refine Nat.div_le_div_right ?_
  calc low * range + total ≤ low * range + range := Nat.add_le_add_left fits _
    _ = (low + 1) * range := (Nat.succ_mul _ _).symm
    _ ≤ high * range := Nat.mul_le_mul_right _ counted

/-- A counted symbol's sub-interval ends right before the next symbol's begins. -/
theorem narrow_adjoins {cum : Vector Nat 258} {total : Nat} {iv : Interval} {s : Nat} (pos : 0 < total)
    (counted : cumAt cum s < cumAt cum (s + 1)) (fits : total ≤ iv.range) :
    (narrow cum total iv s).high + 1 = (narrow cum total iv (s + 1)).low := by
  have apart := scaled_parts_apart pos counted fits
  exact Nat.sub_add_cancel (Nat.le_add_left_of_le (Nat.le_of_add_left_le apart))

theorem narrow_low_of_zero {cum : Vector Nat 258} {iv : Interval} {s : Nat} (first : cumAt cum s = 0) (total : Nat) :
    (narrow cum total iv s).low = iv.low := by
  rw [narrow, first, Nat.zero_mul, Nat.zero_div, Nat.add_zero]

theorem narrow_high_of_total {cum : Vector Nat 258} {iv : Interval} {s total : Nat} (pos : 0 < total) (order : iv.low ≤ iv.high)
    (last : cumAt cum (s + 1) = total) : (narrow cum total iv s).high = iv.high := by
  have size : iv.range = iv.high - iv.low + 1 := rfl
  simp only [narrow, last, Nat.mul_div_cancel_left _ pos]
  omega

theorem cumTable_counted {count : Vector Word 256} {s : Nat} (hs : s ≤ 256) (counted : 1 ≤ countOf count s) :
    cumAt (cumTable count) s < cumAt (cumTable count) (s + 1) := by
  rw [cumAt_cumTable _ _ (by omega), cumAt_cumTable _ _ (by omega), countsBelow_succ]
  omega

/-- Settles O45: a counted symbol's scaled part is not empty, and the table begins with 0 and ends with the total. -/
theorem narrowGivesAdjoiningSubintervals : Obligations.NarrowGivesAdjoiningSubintervals := by
  intro count iv order fits narrowTo
  have pos : 0 < countsBelow count 257 := one_le_total count
  have last : cumAt (cumTable count) 257 = countsBelow count 257 := cumAt_cumTable count 257 (by omega)
  refine ⟨fun s hs counted => ?_, fun s hs counted => ?_, ?_, ?_⟩
  · refine narrow_within order (cumTable_counted hs counted) ?_ fits
    rw [cumAt_cumTable _ _ (by omega)]
    exact countsBelow_mono count (by omega)
  · exact narrow_adjoins pos (cumTable_counted hs.le counted) fits
  · exact narrow_low_of_zero (cumAt_cumTable count 0 (by omega)) _
  · exact narrow_high_of_total pos order last

/-! ## The shift conditions (R172, R173) -/

/-- Two numbers agree in a bit when masking it out of their difference leaves nothing. -/
theorem xor_and_two_pow_eq_zero_iff (a b n : Nat) : (a ^^^ b) &&& 2 ^ n = 0 ↔ a.testBit n = b.testBit n := by
  have weight : 2 ^ n ≠ 0 := (Nat.two_pow_pos n).ne'
  rw [Nat.and_two_pow, Nat.testBit_xor]
  cases a.testBit n <;> cases b.testBit n <;> simp

theorem Interval.msb_of_apart {w : Width} {iv : Interval} (legal : iv.legal w) (apart : iv.e12 w = false) :
    msb w iv.low = false ∧ msb w iv.high = true := by
  obtain ⟨low, high⟩ := (Interval.e12_eq_false_iff legal).mp apart
  rw [msb_eq w (legal.1.trans legal.2), msb_eq w legal.2]
  exact ⟨decide_eq_false (Nat.not_le_of_lt low), decide_eq_true high⟩

/-- Settles O46: where the top bits differ, the bounds lie in different halves, and their second bits say how far from the
middle. -/
theorem shiftConditionsByPosition : Obligations.ShiftConditionsByPosition := by
  intro w iv legal
  have agree : iv.e12 w = true ↔ iv.low.testBit (w.bits - 1) = iv.high.testBit (w.bits - 1) := beq_iff_eq
  refine ⟨agree, agree.trans (xor_and_two_pow_eq_zero_iff _ _ _).symm, ?_, fun apart => ?_⟩
  · rw [Interval.e3, Bool.and_eq_true, Bool.not_eq_true']
    rfl
  · obtain ⟨lowBit, highBit⟩ := Interval.msb_of_apart legal apart
    obtain ⟨low, high⟩ := (Interval.e12_eq_false_iff legal).mp apart
    refine ⟨lowBit, highBit, (Interval.e3_iff legal apart).trans ?_⟩
    exact ⟨fun ⟨above, below⟩ => ⟨above, low, high, below⟩, fun ⟨above, _, _, below⟩ => ⟨above, below⟩⟩

/-! ## The shifts (R174, R203) -/

/-- An E3 shift doubles the distance from QUARTER. -/
theorem shiftE3_eq_double (w : Width) {v : Nat} (low : quarter w ≤ v) (high : v < 3 * quarter w) (b : Bool) :
    shiftE3 w v b = 2 * (v - quarter w) + b.toNat := by
  have moved := shiftE3_add_half w low high b
  have four := two_mul_quarter w
  omega

/-- The E3 transform is the masked shift with the top bit flipped: the bit it flips before the shift is the one below. -/
theorem shiftE3_eq_xor_half (w : Width) (v : Nat) (b : Bool) : shiftE3 w v b = shiftE12 w v b ^^^ half w := by
  have pos := quarter_pos w
  have four := two_mul_quarter w
  have two := two_mul_half w
  have flipped : quarter w <<< 1 = half w := by rw [Nat.shiftLeft_eq, pow_one, Nat.mul_comm, four]
  have kept : half w &&& mask w = half w := Nat.and_two_pow_sub_one_of_lt_two_pow (by omega)
  have apart : b.toNat &&& half w = 0 := by
    have low : b.toNat < half w := by
      have bit := b.toNat_le
      omega
    rw [half, Nat.and_two_pow, Nat.testBit_lt_two_pow low, Bool.toNat_false, Nat.zero_mul]
  rw [shiftE3, shiftE12, Nat.shiftLeft_xor_distrib, flipped, Nat.and_xor_distrib_right, kept]
  refine Nat.eq_of_testBit_eq fun i => ?_
  have one : (b.toNat.testBit i && (half w).testBit i) = false := by rw [← Nat.testBit_and, apart, Nat.zero_testBit]
  rw [Nat.testBit_or, Nat.testBit_xor, Nat.testBit_xor, Nat.testBit_or]
  cases filled : b.toNat.testBit i with
  | false => simp
  | true =>
    rw [filled, Bool.true_and] at one
    simp [one]

/-- Settles O47: an E1/E2 shift drops the common top bit of a doubled value, an E3 shift doubles the distance from QUARTER. -/
theorem shiftsAreDoublings : Obligations.ShiftsAreDoublings := by
  intro w iv code b legal low high
  obtain ⟨order, fits⟩ := legal
  refine ⟨fun agree => ?_, fun apart near => ?_, shiftE3_eq_xor_half w code b⟩
  · have codeTop := Interval.msb_between agree low high fits
    exact ⟨shiftE12_add_msb w (order.trans fits) false, shiftE12_add_msb w fits true,
      codeTop ▸ shiftE12_add_msb w (high.trans fits) b⟩
  · obtain ⟨above, below⟩ := (Interval.e3_iff ⟨order, fits⟩ apart).mp near
    obtain ⟨legal', -, apart'⟩ := Interval.shiftE3_legal ⟨order, fits⟩ apart near
    exact ⟨shiftE3_eq_double w above (order.trans_lt below) false, shiftE3_eq_double w (above.trans order) below true,
      shiftE3_eq_double w (above.trans low) (high.trans_lt below) b, Interval.msb_of_apart legal' apart'⟩

/-! ## The renormalisation (R178, R179) -/

/-- Settles O48: a renormalisation is a run of doublings that no shift can follow. -/
theorem renormalisationEndsWithinW : Obligations.RenormalisationEndsWithinW := by
  intro w iv legal shifts final
  obtain ⟨run, apart, far⟩ := renorm_run legal
  obtain ⟨legal', wide⟩ := renorm_legal_wide legal
  exact ⟨run.length_add_le legal (k := 0) iv.range_pos, renorm_e3Count_le legal, legal', apart, far, wide⟩

end Sys2Proof.Machine
end

section
/-! PROOFS. The family `42_encoder.md`, continued: the encoder's commands (R180 to R182). -/

namespace Sys2Proof.Machine

/-- A command that writes ends in `IO_FAILURE` at the first write that fails, the bytes before it in the sink (60_exceptions.md
R245). -/
theorem Access.Makes.finish_failed_writes {α : Type} {bytes : List Byte} {s : State} {x : Access α}
    (h : x.Makes (writeEvents bytes) s) (op : BitVec 8) (failing : ¬ s.grants bytes.length) :
    ∃ k t, k < bytes.length ∧ s.grants k ∧ s.draws[k]? = some .failure ∧ x.finish op = .next t
      ∧ t.err = .ioFailure ∧ t.errOp = op ∧ t.out = s.out ++ bytes.take k := by
  have failed := h.finish_failed op
  simp only [List.length_map, sunkBytes_writeEvents] at failed
  exact failed failing

/-! ## ENC_INIT (R180) -/

theorem execEncInit_of_ready {s : State} (ready : s.regs.fmState = .ready) (enc : s.regs.encState ≠ .active) :
    exec .encInit s =
      .next (s.withRegs { s.regs.setEncInterval (fullInterval s.width) with ufc := 0, encState := .active }) :=
  if_neg (writeCheck_passes ready enc)

/-- Settles O50: the check is of the model and the encoder, and the full interval is `[0, MASK]`. -/
theorem encInitStartsOnTheFullInterval : Obligations.EncInitStartsOnTheFullInterval :=
  fun _ => ⟨fun h => if_pos (writeCheck_fails h), execEncInit_of_ready⟩

/-! ## ENC_UPDATE (R181) -/

theorem execEncUpdate_of_counted {s : State} {sym : BitVec 9} (hs : sym.toNat ≤ 255) (active : s.regs.encState = .active)
    (counted : cumAt s.regs.cum (sym.toNat + 1) ≠ cumAt s.regs.cum sym.toNat) :
    exec (.encUpdate sym) s = (encodeSymbol sym.toNat s).finish (Instr.encUpdate sym).opcode :=
  (if_neg (byteCheck_passes hs)).trans ((if_neg (not_not.mpr active)).trans (if_neg counted))

/-- Settles O51: past its three checks the command encodes its symbol. -/
theorem encUpdateSendsTheSymbol : Obligations.EncUpdateSendsTheSymbol := by
  intro s sym
  refine ⟨fun high => execEncUpdate_of_gt high s, fun hs => ⟨fun idle =>
    (if_neg (byteCheck_passes hs)).trans (if_pos idle), fun active absent =>
    (if_neg (byteCheck_passes hs)).trans ((if_neg (not_not.mpr active)).trans (if_pos absent)),
    fun active counted => ⟨fun granted => ?_, fun failing => ?_⟩⟩⟩
  · rw [execEncUpdate_of_counted hs active counted, encodeSymbol_granted sym.toNat s rfl granted]
    rfl
  · rw [execEncUpdate_of_counted hs active counted]
    exact (encodeSymbol_makes sym.toNat s rfl).finish_failed_writes _ failing

/-! ## ENC_FINISH (R182) -/

theorem execEncFinish_of_active {s : State} (active : s.regs.encState = .active) :
    exec .encFinish s =
      (((encodeSymbol sentinel s).andThen fun _ t => emitBit true t).thenRegs fun _ r =>
        { r with encState := .flushed }).finish Instr.encFinish.opcode :=
  if_neg (not_not.mpr active)

/-- The sentinel and the final bit, granted, are one run of bits. -/
theorem encodeSentinel_granted (s : State) {coded : List Shift × Interval} {packed : List Byte × Byte × BitVec 3}
    (hc : renorm s.width (narrow s.regs.cum s.regs.total s.regs.encInterval sentinel) = coded)
    (hp : packBits ((codedBits s.regs.ufc coded.1).1 ++ [true]) s.regs.acc s.regs.nacc = packed)
    (granted : s.grants packed.1.length) :
    ((encodeSymbol sentinel s).andThen fun _ t => emitBit true t) =
      .done () ((s.afterWrites packed.1).withRegs
        { s.regs with
          elow := toReg coded.2.low
          ehigh := toReg coded.2.high
          ufc := (codedBits s.regs.ufc coded.1).2
          acc := packed.2.1
          nacc := packed.2.2 }) := by
  rw [packBits_append] at hp
  subst hp
  rw [List.length_append] at granted
  have first := State.grants_mono (Nat.le_add_right _ _) granted
  rw [encodeSymbol_granted sentinel s hc first, Access.done_andThen, ← emitBits_single]
  refine (emitBits_granted [true] _ ?_).trans ?_
  · exact State.grants_afterWrites (s := s) _ granted rfl
  · simp [State.afterWrites_append]

/-- Settles O52: past its check the command sends the sentinel's bits and the final 1 as one run. -/
theorem encFinishSendsSentinelAndOne : Obligations.EncFinishSendsSentinelAndOne := by
  intro s
  refine ⟨fun idle => if_pos idle, fun active => ⟨fun granted => ?_, fun failing => ?_⟩⟩
  · rw [execEncFinish_of_active active, encodeSentinel_granted s rfl rfl granted]
    rfl
  · rw [execEncFinish_of_active active]
    exact (encodeSentinel_makes s rfl).thenRegs.finish_failed_writes _ failing

end Sys2Proof.Machine
end

section
/-! PROOFS. The round trip (42_encoder.md R183), the stream: the shifts of a list of symbols make a stream whose `W` bits at the
decoder's place lie in the part of the interval that each symbol takes. -/

namespace Sys2Proof.Machine

/-! ## Settled intervals -/

/-- A legal interval that no shift can be made on: how a coder starts (R180), and how a renormalisation leaves it (R178). -/
structure Interval.Settled (w : Width) (iv : Interval) : Prop where
  legal : iv.legal w
  apart : iv.e12 w = false
  far   : iv.e3 w = false

theorem Interval.Settled.wide {w : Width} {iv : Interval} (h : iv.Settled w) : iv.wide w :=
  Interval.wide_of_no_shift h.legal h.apart h.far

theorem renorm_settled {w : Width} {iv : Interval} (legal : iv.legal w) : (renorm w iv).2.Settled w := by
  obtain ⟨-, apart, far⟩ := renorm_run legal
  exact ⟨(renorm_legal_wide legal).1, apart, far⟩

theorem fullInterval_settled (w : Width) : (fullInterval w).Settled w := by
  obtain ⟨legal, -⟩ := fullInterval_legal_wide w
  have top := mask_succ w
  have two := two_mul_half w
  have pos := half_pos w
  have apart : (fullInterval w).e12 w = false := (Interval.e12_eq_false_iff legal).mpr ⟨pos, Nat.le_sub_one_of_lt (by omega)⟩
  refine ⟨legal, apart, eq_false_of_ne_true fun near => ?_⟩
  exact absurd ((Interval.e3_iff legal apart).mp near).1 (Nat.not_le_of_lt (quarter_pos w))

/-- The interval holds the code. -/
structure Interval.Holds (iv : Interval) (code : Nat) : Prop where
  low  : iv.low ≤ code
  high : code ≤ iv.high

/-! ## The code of a stream -/

/-- The `W` bits in the decoder while these shifts are still to come (43_decoder.md R205). -/
def streamCode (w : Width) (xs : List Shift) : Nat := window w.bits (streamBit 0 xs)

theorem streamCode_le_mask (w : Width) (xs : List Shift) : streamCode w xs ≤ mask w :=
  Nat.le_sub_one_of_lt (window_lt _ _)

theorem window_false (n : Nat) : window n (fun _ => false) = 0 := by
  induction n with
  | zero => rfl
  | succ n ih => rw [window_succ, ih, Bool.toNat_false, Nat.zero_mul]

/-- The top bit of a window is the first bit of the stream. -/
theorem msb_window (w : Width) (f : Nat → Bool) : msb w (window w.bits f) = f 0 := by
  obtain ⟨n, hn⟩ : ∃ n, w.bits = n + 1 := ⟨w.bits - 1, by have := w.two_le; omega⟩
  have rest := window_lt n (fun i => f (i + 1))
  rw [msb_eq w (Nat.le_sub_one_of_lt (window_lt _ _)), half, hn, window_succ, Nat.add_sub_cancel]
  cases f 0 <;> simp [rest]

/-- At the end of the stream, the final 1 and the padding spell HALF. -/
theorem streamCode_nil (w : Width) : streamCode w [] = half w := by
  obtain ⟨n, hn⟩ : ∃ n, w.bits = n + 1 := ⟨w.bits - 1, by have := w.two_le; omega⟩
  have zeros : (fun i => streamBit 0 [] (i + 1)) = fun _ => false := by
    funext i
    rw [streamBit_nil, decide_eq_false i.succ_ne_zero]
  rw [streamCode, hn, window_succ, zeros, window_false, streamBit_nil, half, hn]
  simp

/-- Past its second place a stream moves on by one bit a shift. -/
theorem streamBit_cons (x : Shift) (xs : List Shift) (i : Nat) :
    streamBit 0 (x :: xs) (i + 2) = streamBit 0 xs (i + 1) := by
  cases x with
  | e12 b => exact streamBit_e12_succ b xs (i + 1)
  | e3 => exact (streamBit_deferred 0 xs).2.2 i

theorem streamBit_cons_width (w : Width) (x : Shift) (xs : List Shift) (i : Nat) :
    streamBit 0 (x :: xs) (w.bits + (i + 1)) = streamBit 0 xs (w.bits + i) := by
  obtain ⟨n, hn⟩ : ∃ n, w.bits = n + 1 := ⟨w.bits - 1, by have := w.two_le; omega⟩
  rw [hn, show n + 1 + (i + 1) = n + i + 2 by omega, streamBit_cons, show n + 1 + i = n + i + 1 by omega]

theorem streamCode_e12 (w : Width) (b : Bool) (xs : List Shift) :
    shiftE12 w (streamCode w (.e12 b :: xs)) (streamBit 0 (.e12 b :: xs) w.bits) = streamCode w xs :=
  (shiftE12_window w _).trans (window_congr _ _ _ fun i _ => streamBit_e12_succ b xs i)

theorem streamCode_e3 (w : Width) (xs : List Shift) :
    quarter w ≤ streamCode w (.e3 :: xs) ∧ streamCode w (.e3 :: xs) < 3 * quarter w
      ∧ shiftE3 w (streamCode w (.e3 :: xs)) (streamBit 0 (.e3 :: xs) w.bits) = streamCode w xs := by
  obtain ⟨first, second, later⟩ := streamBit_deferred 0 xs
  refine shiftE3_window w (streamBit 0 (.e3 :: xs)) (streamBit 0 xs) first.symm ?_ fun i => (later i).symm
  rw [streamBit_e3, streamBit_e3, second, first]

/-- A shift of the decoder, with the stream's next bit, leaves the code of the shifts after it (43_decoder.md R202, R203). -/
theorem shiftCode_streamCode (w : Width) (x : Shift) (xs : List Shift) :
    shiftCode w x (streamCode w (x :: xs)) (streamBit 0 (x :: xs) w.bits) = streamCode w xs := by
  cases x with
  | e12 b => exact streamCode_e12 w b xs
  | e3 => exact (streamCode_e3 w xs).2.2

/-- The bits behind a window of `W` bits. -/
def bitsBehind (w : Width) (xs : List Shift) (n : Nat) : List Bool :=
  (List.range n).map fun i => streamBit 0 xs (w.bits + i)

theorem bitsBehind_cons (w : Width) (x : Shift) (xs : List Shift) (n : Nat) :
    bitsBehind w (x :: xs) (n + 1) = streamBit 0 (x :: xs) w.bits :: bitsBehind w xs n := by
  simp [bitsBehind, List.range_succ_eq_map, Function.comp_def, streamBit_cons_width]

theorem shiftedCode_streamCode (w : Width) (xs ys : List Shift) :
    shiftedCode w xs (bitsBehind w (xs ++ ys) xs.length) (streamCode w (xs ++ ys)) = streamCode w ys := by
  induction xs with
  | nil => rfl
  | cons x xs ih =>
    rw [List.cons_append, List.length_cons, bitsBehind_cons, shiftedCode, shiftCode_streamCode, ih]

theorem streamBit_append_width (w : Width) (xs ys : List Shift) (i : Nat) :
    streamBit 0 (xs ++ ys) (w.bits + (xs.length + i)) = streamBit 0 ys (w.bits + i) := by
  induction xs with
  | nil => rw [List.nil_append, List.length_nil, Nat.zero_add]
  | cons x xs ih =>
    rw [List.cons_append, List.length_cons, show xs.length + 1 + i = xs.length + i + 1 by omega, streamBit_cons_width, ih]

/-! ## The code of a stream lies in the interval -/

/-- Undoing an E1/E2 shift: a code with the bounds' top bit lies between them where its shift lies between theirs. -/
theorem Interval.Holds.of_shiftE12 {w : Width} {iv : Interval} {code : Nat} {b : Bool} (legal : iv.legal w)
    (agree : iv.e12 w = true) (fits : code ≤ mask w) (top : msb w code = msb w iv.low)
    (h : (iv.shiftE12 w).Holds (Machine.shiftE12 w code b)) : iv.Holds code := by
  obtain ⟨order, high⟩ := legal
  obtain ⟨above, below⟩ := h
  have same := Interval.msb_between agree order (Nat.le_refl _) high
  have lowEq := shiftE12_add_msb w (order.trans high) false
  have codeEq := shiftE12_add_msb w fits b
  have highEq := shiftE12_add_msb w high true
  have bit := b.toNat_le
  rw [top] at codeEq
  rw [same] at highEq
  simp only [Interval.shiftE12, Bool.toNat_false, Bool.toNat_true] at *
  exact ⟨by omega, by omega⟩

/-- Undoing an E3 shift: the same of a code in the middle half. -/
theorem Interval.Holds.of_shiftE3 {w : Width} {iv : Interval} {code : Nat} {b : Bool} (legal : iv.legal w)
    (apart : iv.e12 w = false) (near : iv.e3 w = true) (low : quarter w ≤ code) (high : code < 3 * quarter w)
    (h : (iv.shiftE3 w).Holds (Machine.shiftE3 w code b)) : iv.Holds code := by
  have order := legal.1
  obtain ⟨start, stop⟩ := (Interval.e3_iff legal apart).mp near
  obtain ⟨above, below⟩ := h
  have lowEq := shiftE3_add_half w start (order.trans_lt stop) false
  have codeEq := shiftE3_add_half w low high b
  have highEq := shiftE3_add_half w (start.trans order) stop true
  have bit := b.toNat_le
  simp only [Interval.shiftE3, Bool.toNat_false, Bool.toNat_true] at *
  exact ⟨by omega, by omega⟩

/-- Before a run of shifts the code of the stream lies in the interval, if it does so after it. -/
theorem ShiftRun.holds_streamCode {w : Width} {iv iv' : Interval} {xs ys : List Shift} (run : ShiftRun w iv xs iv')
    (legal : iv.legal w) (after : iv'.Holds (streamCode w ys)) : iv.Holds (streamCode w (xs ++ ys)) := by
  induction run with
  | nil _ => exact after
  | @e12 iv _ xs agree _ ih =>
    have moved := ih (Interval.shiftE12_legal legal agree).1 after
    rw [← streamCode_e12 w (msb w iv.low)] at moved
    refine moved.of_shiftE12 legal agree (streamCode_le_mask w _) ?_
    rw [streamCode, msb_window]
    exact streamBit_e12_zero _ _ _
  | @e3 iv _ xs apart near _ ih =>
    have moved := ih (Interval.shiftE3_legal legal apart near).1 after
    obtain ⟨low, high, shifted⟩ := streamCode_e3 w (xs ++ ys)
    rw [← shifted] at moved
    exact moved.of_shiftE3 legal apart near low high

/-! ## Symbols -/

/-- The shifts made for these symbols, one after another, from an interval on (R175). -/
def symbolShifts (w : Width) (cum : Vector Nat 258) (total : Nat) : Interval → List Nat → List Shift
  | _, [] => []
  | iv, sym :: syms =>
    (renorm w (narrow cum total iv sym)).1 ++ symbolShifts w cum total (renorm w (narrow cum total iv sym)).2 syms

/-- The bits of two runs of shifts, the second with the bits the first deferred. -/
theorem codedBits_append (ufc : Nat) (xs ys : List Shift) :
    (codedBits ufc (xs ++ ys)).1 = (codedBits ufc xs).1 ++ (codedBits (codedBits ufc xs).2 ys).1 := by
  induction xs generalizing ufc with
  | nil => rfl
  | cons x xs ih =>
    cases x with
    | e12 b => simp [codedBits, ih]
    | e3 => exact ih (ufc + 1)

/-- The symbol is one of the 257 and occurs. -/
structure Regs.Counts (r : Regs) (sym : Nat) : Prop where
  symbol  : sym ≤ 256
  counted : cumAt r.cum sym < cumAt r.cum (sym + 1)

section
variable {w : Width} {r : Regs} (table : SealedTable w r)
include table

theorem SealedTable.counts_sentinel : r.Counts sentinel := ⟨Nat.le_refl _, table.sentinel_counted⟩

theorem SealedTable.counts_byte {b : Byte} (occurs : r.count[b.toNat] ≠ 0) : r.Counts b.toNat := by
  have byte := b.isLt
  have pos : 0 < r.count[b.toNat].toNat := Nat.pos_of_ne_zero fun zero => occurs (BitVec.eq_of_toNat_eq zero)
  refine ⟨by omega, ?_⟩
  rw [table.cumAt_eq _ (by omega), table.cumAt_eq _ (by omega), countsBelow_succ, countOf, dif_pos byte]
  exact Nat.lt_add_of_pos_right pos

/-- The part of a settled interval that a counted symbol takes. -/
theorem SealedTable.narrow_legal_of_settled {iv : Interval} (settled : iv.Settled w) {sym : Nat} (h : r.Counts sym) :
    (narrow r.cum r.total iv sym).legal w :=
  table.narrow_legal settled.legal settled.wide h.symbol h.counted

/-- The code lies in its symbol's part of the interval, if what the symbol leaves holds the code of the rest. -/
theorem SealedTable.narrow_holds {iv : Interval} (settled : iv.Settled w) {sym : Nat} (h : r.Counts sym) {ys : List Shift}
    (after : (renorm w (narrow r.cum r.total iv sym)).2.Holds (streamCode w ys)) :
    (narrow r.cum r.total iv sym).Holds (streamCode w ((renorm w (narrow r.cum r.total iv sym)).1 ++ ys)) := by
  have legal := table.narrow_legal_of_settled settled h
  exact (renorm_run legal).1.holds_streamCode legal after

/-- The code of the symbols' stream lies in the interval they are coded from. -/
theorem SealedTable.holds_symbols {syms : List Nat} (counted : ∀ sym ∈ syms, r.Counts sym) {iv : Interval}
    (settled : iv.Settled w) : iv.Holds (streamCode w (symbolShifts w r.cum r.total iv syms)) := by
  induction syms generalizing iv with
  | nil =>
    obtain ⟨low, high⟩ := (Interval.e12_eq_false_iff settled.legal).mp settled.apart
    rw [symbolShifts, streamCode_nil]
    exact ⟨low.le, high⟩
  | cons sym syms ih =>
    obtain ⟨first, rest⟩ := List.forall_mem_cons.mp counted
    have part := table.narrow_holds settled first (ih rest (renorm_settled (table.narrow_legal_of_settled settled first)))
    have top := table.cumAt_le_total (Nat.succ_lt_succ (Nat.lt_succ_of_le first.symbol))
    obtain ⟨low, -, high⟩ := narrow_within settled.legal.1 first.counted top (table.total_le_range settled.wide)
    exact ⟨low.trans part.low, part.high.trans high⟩

end

/-- A code in a counted symbol's sub-interval has its value in the symbol's part of the total (43_decoder.md R201). -/
theorem decValue_of_narrow_holds {cum : Vector Nat 258} {total : Nat} {iv : Interval} {code s : Nat} (pos : 0 < total)
    (counted : cumAt cum s < cumAt cum (s + 1)) (fits : total ≤ iv.range) (h : (narrow cum total iv s).Holds code) :
    cumAt cum s ≤ decValue total iv code ∧ decValue total iv code < cumAt cum (s + 1) := by
  have nonempty := Nat.le_of_add_left_le (scaled_parts_apart pos counted fits)
  obtain ⟨low, high⟩ := h
  simp only [narrow] at low high
  have start : cumAt cum s * iv.range / total < code - iv.low + 1 := by omega
  have last : code - iv.low + 1 ≤ cumAt cum (s + 1) * iv.range / total := by omega
  have one : 1 ≤ (code - iv.low + 1) * total := Nat.mul_pos (Nat.succ_pos _) pos
  rw [Nat.div_lt_iff_lt_mul pos] at start
  rw [Nat.le_div_iff_mul_le pos] at last
  rw [decValue, Nat.le_div_iff_mul_le iv.range_pos, Nat.div_lt_iff_lt_mul iv.range_pos]
  omega

/-- The decoder looks up the symbol whose part of the interval holds its code (43_decoder.md R201). -/
theorem SealedTable.lookup_of_narrow_holds {w : Width} {r : Regs} (table : SealedTable w r) {iv : Interval}
    (settled : iv.Settled w) {sym code : Nat} (h : r.Counts sym) (part : (narrow r.cum r.total iv sym).Holds code) :
    lookup r.cum (decValue r.total iv code) = sym := by
  obtain ⟨symbol, counted⟩ := h
  obtain ⟨low, high⟩ := decValue_of_narrow_holds table.total_pos counted (table.total_le_range settled.wide) part
  have below := high.trans_le (table.cumAt_le_total (by omega))
  rw [table.cumAt_eq _ (by omega)] at low high
  exact (table.lookup_subinterval below).2.unique ⟨low, high⟩

end Sys2Proof.Machine
end

section
/-! PROOFS. The round trip (42_encoder.md R183), the decoder: started on the stream of a list of symbols, it returns them. -/

namespace Sys2Proof.Machine

/-! ## The decoder's commands, granted (43_decoder.md R210, R211) -/

theorem decInitCheck_passes {r : Regs} (ready : r.fmState = .ready) (dec : r.decState ≠ .active) :
    ¬ (!r.fmReady || r.decState == .active) = true := fun h =>
  ((Bool.or_eq_true _ _).mp h).elim (readyCheck_passes ready) fun active => dec (beq_iff_eq.mp active)

theorem execDecInit_granted {s : State} (ready : s.regs.fmState = .ready) (dec : s.regs.decState ≠ .active)
    (granted : s.grants (s.regs.comingReads s.width.bits).length) :
    exec .decInit s =
      .next ((s.afterReads (s.regs.comingReads s.width.bits)).withRegs
        { s.regs.setDecInterval (fullInterval s.width) with
          dcode := toReg (bitsToNat (s.comingBits s.width.bits))
          rpos := s.regs.rposAfter s.width.bits
          decState := .active }) := by
  refine (if_neg (decInitCheck_passes ready dec)).trans ?_
  rw [prime_granted (s.withRegs (s.regs.setDecInterval (fullInterval s.width))) granted]
  rfl

theorem execDecNext_granted {s : State} (active : s.regs.decState = .active) {sym : Nat} {coded : List Shift × Interval}
    (hs : lookup s.regs.cum (currentValue s.regs) = sym)
    (hc : renorm s.width (narrow s.regs.cum s.regs.total s.regs.decInterval sym) = coded)
    (granted : s.grants (s.regs.comingReads coded.1.length).length) :
    exec .decNext s =
      .next ((s.afterReads (s.regs.comingReads coded.1.length)).withRegs
        { s.regs with
          res := BitVec.ofNat 32 sym
          dlow := toReg coded.2.low
          dhigh := toReg coded.2.high
          dcode := toReg (shiftedCode s.width coded.1 (s.comingBits coded.1.length) s.regs.dcode.toNat)
          rpos := s.regs.rposAfter coded.1.length
          decState := decStateAfter sym .active }) := by
  refine (if_neg (not_not.mpr active)).trans ?_
  rw [decodeSymbol_granted s hs hc granted, ← active]
  rfl

/-! ## What is read next -/

/-- Past the bits read the reader returns what it would have returned behind them. -/
theorem State.inputBit_rposAfter (s : State) (n i : Nat) :
    s.inputBit (s.regs.rposAfter n + i) = s.inputBit (s.regs.rpos + (n + i)) := by
  unfold Regs.rposAfter
  by_cases inside : n ≤ s.regs.inputBits - s.regs.rpos
  · rw [Nat.min_eq_left inside, Nat.add_assoc]
  · rw [State.inputBit_at_end s (by omega), State.inputBit_at_end s (by omega)]

theorem State.grants_of_all {s : State} (success : ∀ a ∈ s.draws, a = .success) (n : Nat) : s.grants n :=
  fun a ha => success a (List.mem_of_mem_take ha)

/-- A decode under way, from the interval on, of the stream of these symbols coded with the model of `r`. -/
structure Decoding (w : Width) (r : Regs) (iv : Interval) (syms : List Nat) (d : State) : Prop where
  clean    : d.err = .noError
  width    : d.width = w
  cum      : d.regs.cum = r.cum
  total    : d.regs.total = r.total
  active   : d.regs.decState = .active
  interval : d.regs.decInterval = iv
  code     : d.regs.dcode.toNat = streamCode w (symbolShifts w r.cum r.total iv syms)
  coming   : ∀ i, d.inputBit (d.regs.rpos + i) = streamBit 0 (symbolShifts w r.cum r.total iv syms) (w.bits + i)
  success  : ∀ a ∈ d.draws, a = .success

/-- `DEC_INIT` on the first bit of a stream starts its decode. -/
theorem Decoding.of_decInit {w : Width} {r : Regs} {syms : List Nat} {d : State} (clean : d.err = .noError)
    (width : d.width = w) (cum : d.regs.cum = r.cum) (total : d.regs.total = r.total) (ready : d.regs.fmState = .ready)
    (dec : d.regs.decState ≠ .active) (success : ∀ a ∈ d.draws, a = .success)
    (stream : ∀ i, d.inputBit (d.regs.rpos + i) = streamBit 0 (symbolShifts w r.cum r.total (fullInterval w) syms) i) :
    ∃ t, exec .decInit d = .next t ∧ Decoding w r (fullInterval w) syms t := by
  subst width
  have window : bitsToNat (d.comingBits d.width.bits)
      = streamCode d.width (symbolShifts d.width r.cum r.total (fullInterval d.width) syms) :=
    congrArg bitsToNat (List.map_congr_left fun i _ => stream i)
  refine ⟨_, execDecInit_granted ready dec (State.grants_of_all success _), ?_⟩
  rw [window]
  exact {
    clean := clean
    width := rfl
    cum := cum
    total := total
    active := rfl
    interval := Regs.decInterval_setDecInterval_of_legal (fullInterval_settled d.width).legal d.regs
    code := toReg_toNat (streamCode_le_mask _ _)
    coming := fun i => (d.inputBit_rposAfter _ i).trans (stream _)
    success := fun a ha => success a (List.mem_of_mem_drop ha) }

theorem execAll_cons {i : Instr} {is : List Instr} {s t : State} (h : exec i s = .next t) :
    execAll (i :: is) s = execAll is t := by rw [execAll, h]

section
variable {w : Width} {r : Regs} (table : SealedTable w r)
include table

/-- `DEC_NEXT` returns the first symbol of the stream, and goes on with the others unless it was the sentinel. -/
theorem SealedTable.decNext_decoding {iv : Interval} (settled : iv.Settled w) {sym : Nat} {syms : List Nat}
    (counted : ∀ s ∈ sym :: syms, r.Counts s) {d : State} (h : Decoding w r iv (sym :: syms) d) :
    ∃ t, exec .decNext d = .next t ∧ t.err = .noError ∧ t.regs.res.toNat = sym
      ∧ t.regs.decState = decStateAfter sym .active
      ∧ (sym ≠ sentinel → Decoding w r (renorm w (narrow r.cum r.total iv sym)).2 syms t) := by
  obtain ⟨clean, rfl, cum, total, active, rfl, code, coming, success⟩ := h
  obtain ⟨first, rest⟩ := List.forall_mem_cons.mp counted
  have legal := table.narrow_legal_of_settled settled first
  have after := table.holds_symbols rest (renorm_settled legal)
  have part := table.narrow_holds settled first after
  have found : lookup d.regs.cum (currentValue d.regs) = sym := by
    rw [currentValue, cum, total, code]
    exact table.lookup_of_narrow_holds settled first part
  have symbol := first.symbol
  have next := execDecNext_granted active found rfl (State.grants_of_all success _)
  rw [cum, total] at next
  refine ⟨_, next, clean, ?_, rfl, fun goesOn => ?_⟩
  · exact Nat.mod_eq_of_lt (by omega)
  · have bits : d.comingBits (renorm d.width (narrow r.cum r.total d.regs.decInterval sym)).1.length
        = bitsBehind d.width (symbolShifts d.width r.cum r.total d.regs.decInterval (sym :: syms))
            (renorm d.width (narrow r.cum r.total d.regs.decInterval sym)).1.length :=
      List.map_congr_left fun i _ => coming i
    rw [bits, code, symbolShifts, shiftedCode_streamCode]
    exact {
      clean := clean
      width := rfl
      cum := cum
      total := total
      active := if_neg goesOn
      interval := Interval.toReg_eq (renorm_settled legal).legal
      code := toReg_toNat (streamCode_le_mask _ _)
      coming := fun i => (d.inputBit_rposAfter _ i).trans ((coming _).trans (streamBit_append_width _ _ _ i))
      success := fun a ha => success a (List.mem_of_mem_drop ha) }

/-- `DEC_NEXT` again and again returns the bytes of a stream one by one, then the sentinel, and then the decode is `DONE`. -/
theorem SealedTable.decNexts_decoding {syms : List Byte} (counted : ∀ b ∈ syms, r.Counts b.toNat) {iv : Interval}
    (settled : iv.Settled w) {d : State} (h : Decoding w r iv (syms.map BitVec.toNat ++ [sentinel]) d) {k : Nat}
    (hk : k ≤ syms.length) :
    ∃ t, execAll (List.replicate (k + 1) .decNext) d = .next t ∧ t.err = .noError
      ∧ t.regs.res.toNat = (syms.map BitVec.toNat).getD k sentinel ∧ (t.regs.decState = .done ↔ k = syms.length) := by
  induction syms generalizing iv d k with
  | nil =>
    obtain rfl : k = 0 := Nat.le_zero.mp hk
    obtain ⟨t, run, clean, res, state, -⟩ := table.decNext_decoding settled
      (List.forall_mem_singleton.mpr table.counts_sentinel) h
    exact ⟨t, execAll_cons run, clean, res, by simp [state, decStateAfter]⟩
  | cons b syms ih =>
    obtain ⟨first, rest⟩ := List.forall_mem_cons.mp counted
    have all : ∀ s ∈ b.toNat :: (syms.map BitVec.toNat ++ [sentinel]), r.Counts s := by
      refine List.forall_mem_cons.mpr ⟨first, List.forall_mem_append.mpr ⟨?_, ?_⟩⟩
      · exact List.forall_mem_map.mpr rest
      · exact List.forall_mem_singleton.mpr table.counts_sentinel
    obtain ⟨t, run, clean, res, state, goesOn⟩ := table.decNext_decoding settled all h
    have byte : b.toNat ≠ sentinel := b.isLt.ne
    cases k with
    | zero => exact ⟨t, execAll_cons run, clean, res, by simp [state, decStateAfter, byte]⟩
    | succ k =>
      obtain ⟨u, runs, last⟩ := ih rest (renorm_settled (table.narrow_legal_of_settled settled first)) (goesOn byte)
        (Nat.le_of_succ_le_succ hk)
      refine ⟨u, (execAll_cons run).trans runs, ?_⟩
      simpa using last

end

end Sys2Proof.Machine
end

section
/-! PROOFS. The round trip (42_encoder.md R183), the encoder: what an encode of a list of symbols sends; and the theorem. -/

namespace Sys2Proof.Machine

/-! ## Runs of commands without an error -/

theorem execAll_cons_inv {i : Instr} {is : List Instr} {s t : State} (h : execAll (i :: is) s = .next t) :
    ∃ u, exec i s = .next u ∧ execAll is u = .next t := by
  obtain ⟨u, run, -⟩ := exec_ended i s
  exact ⟨u, run, (execAll_cons run).symm.trans h⟩

/-- Only a reset ends an error (60_exceptions.md R247). -/
theorem Ended.clean_before {i : Instr} {s t : State} (h : Ended i s t) (notReset : i ≠ .coreReset) (clean : t.err = .noError) :
    s.err = .noError := by
  cases h with
  | error e reads no => exact absurd clean no
  | ioFailure => cases clean
  | completed t es trace => exact trace.err.symm.trans clean
  | attached => exact clean
  | reset is => exact absurd is notReset

theorem execAll_clean_before {is : List Instr} {s t : State} (h : execAll is s = .next t)
    (noReset : ∀ i ∈ is, i ≠ .coreReset) (clean : t.err = .noError) : s.err = .noError := by
  induction is generalizing s with
  | nil =>
    cases h
    exact clean
  | cons i is ih =>
    obtain ⟨first, rest⟩ := List.forall_mem_cons.mp noReset
    obtain ⟨u, run, runs⟩ := execAll_cons_inv h
    exact (Ended.of_exec run).clean_before first (ih runs rest)

/-! ## What an encode sends -/

theorem State.writtenBits_of_aligned {s : State} (aligned : s.regs.nacc = 0) : s.writtenBits = s.out.flatMap bitsMsbFirst := by
  simp [State.writtenBits, Regs.pendingBits, aligned]

/-- `BW_FINALIZE` completes the stream of written bits with zeros (41_bit_packer.md R152). -/
theorem execBwFinalize_out {s t : State} (h : exec .bwFinalize s = .next t) (completed : t.err = .noError) :
    ∃ n, t.out.flatMap bitsMsbFirst = s.writtenBits ++ List.replicate n false := by
  obtain ⟨enc, h⟩ := passed_check (by decide) h completed
  by_cases pending : s.regs.nacc ≠ 0
  · rw [if_pos pending] at h
    obtain ⟨_, h⟩ := Access.done_of_finish h completed
    obtain ⟨_, u, hu, last⟩ := Access.done_of_andThen h
    have granted := (sinkWrite_makes _ s).grants_of_done hu
    rw [sinkWrite_granted _ _ granted] at hu
    cases hu
    cases last
    refine ⟨8 - s.regs.nacc.toNat, ?_⟩
    simp [State.writtenBits, bitsMsbFirst_paddedByte]
  · rw [if_neg pending] at h
    cases h
    exact ⟨0, by rw [State.writtenBits_of_aligned (not_not.mp pending), List.replicate_zero, List.append_nil]; rfl⟩

/-- An encode under way, on the interval, with the model of `r`. -/
structure Encoding (w : Width) (r : Regs) (iv : Interval) (s : State) : Prop where
  width    : s.width = w
  cum      : s.regs.cum = r.cum
  total    : s.regs.total = r.total
  interval : s.regs.encInterval = iv

/-- The commands that encode the symbols, finish and pad. -/
abbrev encodeRest (syms : List Byte) : List Instr :=
  syms.map (fun b => .encUpdate (b.setWidth 9)) ++ [.encFinish, .bwFinalize]

theorem encodeRest_noReset (syms : List Byte) : ∀ i ∈ encodeRest syms, i ≠ .coreReset := by
  rintro i hi rfl
  simp [encodeRest] at hi

/-- The bits of the stream of shifts, as a core with `ufc` bits deferred sends them, and the final 1. -/
abbrev finalBits (ufc : Nat) (xs : List Shift) : List Bool := (codedBits ufc xs).1 ++ [true]

/-- `ENC_INIT` starts an encode with no bit deferred, and writes none. -/
theorem Encoding.of_encInit {e s : State} (ready : e.regs.fmState = .ready) (idle : e.regs.encState ≠ .active)
    (h : exec .encInit e = .next s) :
    Encoding e.width e.regs (fullInterval e.width) s ∧ s.regs.ufc = 0 ∧ s.writtenBits = e.writtenBits := by
  rw [execEncInit_of_ready ready idle] at h
  cases h
  have legal := (fullInterval_settled e.width).legal
  exact ⟨⟨rfl, rfl, rfl, Regs.encInterval_setEncInterval_of_legal legal e.regs⟩, rfl, rfl⟩

/-- `ENC_UPDATE` writes its symbol's bits and goes on from the interval it leaves. -/
theorem Encoding.encUpdate {w : Width} {r : Regs} {iv : Interval} {s u : State} {b : Byte} (enc : Encoding w r iv s)
    (legal : (narrow r.cum r.total iv b.toNat).legal w) {coded : List Shift × Interval}
    (hc : renorm w (narrow r.cum r.total iv b.toNat) = coded) (h : exec (.encUpdate (b.setWidth 9)) s = .next u)
    (completed : u.err = .noError) :
    Encoding w r coded.2 u ∧ u.regs.ufc = (codedBits s.regs.ufc coded.1).2
      ∧ u.writtenBits = s.writtenBits ++ (codedBits s.regs.ufc coded.1).1 := by
  obtain ⟨rfl, cum, total, rfl⟩ := enc
  have byte : (b.setWidth 9).toNat = b.toNat := BitVec.toNat_setWidth_of_le (by decide)
  have written := execEncUpdate_writtenBits h completed
  obtain ⟨-, -, -, encodes⟩ := exec_after h completed
  have regs := encodes.regs
  rw [byte, Regs.encoded, cum, total, hc] at written regs
  refine ⟨⟨(Ended.of_exec h).width, ?_, ?_, ?_⟩, ?_, written⟩
  · exact (congrArg Regs.cum regs).trans cum
  · exact (congrArg Regs.total regs).trans total
  · exact (congrArg Regs.encInterval regs).trans (Interval.toReg_eq (hc ▸ (renorm_settled legal).legal))
  · exact congrArg Regs.ufc regs

/-- Each update adds its symbol's bits, and the finish the sentinel's and the final 1 (R181, R182). -/
theorem SealedTable.encodeRest_out {w : Width} {r : Regs} (table : SealedTable w r) {syms : List Byte}
    (counted : ∀ b ∈ syms, r.Counts b.toNat) {iv : Interval} (settled : iv.Settled w) {s t : State}
    (enc : Encoding w r iv s) (run : execAll (encodeRest syms) s = .next t) (completed : t.err = .noError) :
    ∃ n, t.out.flatMap bitsMsbFirst
      = s.writtenBits ++ (finalBits s.regs.ufc (symbolShifts w r.cum r.total iv (syms.map BitVec.toNat ++ [sentinel]))
          ++ List.replicate n false) := by
  induction syms generalizing iv s with
  | nil =>
    obtain ⟨u, finish, run⟩ := execAll_cons_inv run
    obtain ⟨v, finalize, run⟩ := execAll_cons_inv run
    cases run
    have clean := (Ended.of_exec finalize).clean_before nofun completed
    obtain ⟨n, out⟩ := execBwFinalize_out finalize completed
    refine ⟨n, ?_⟩
    rw [out, execEncFinish_writtenBits finish clean, Regs.encoded, enc.width, enc.cum, enc.total, enc.interval]
    simp [symbolShifts]
  | cons b syms ih =>
    obtain ⟨u, update, run⟩ := execAll_cons_inv run
    obtain ⟨first, rest⟩ := List.forall_mem_cons.mp counted
    have clean := execAll_clean_before run (encodeRest_noReset syms) completed
    have legal := table.narrow_legal_of_settled settled first
    obtain ⟨enc', ufc, written⟩ := enc.encUpdate legal rfl update clean
    obtain ⟨n, out⟩ := ih rest (renorm_settled legal) enc' run
    refine ⟨n, ?_⟩
    rw [out, written, ufc]
    simp [symbolShifts, codedBits_append]

/-! ## The bytes sent, as the decoder reads them -/

/-- Bit `i` of a byte sequence, 0 behind its end. -/
theorem flatMap_bitsMsbFirst_getD (bytes : List Byte) (i : Nat) :
    (bytes.flatMap bitsMsbFirst).getD i false = (bytes.getD (i / 8) 0).getLsbD (7 - i % 8) := by
  induction bytes generalizing i with
  | nil => simp
  | cons b bytes ih =>
    have eight : (bitsMsbFirst b).length = 8 := rfl
    rw [List.flatMap_cons]
    by_cases inside : i < 8
    · rw [List.getD_append _ _ _ _ (by omega), Nat.div_eq_of_lt inside, Nat.mod_eq_of_lt inside]
      simp [bitsMsbFirst, inside]
    · obtain ⟨j, rfl⟩ := Nat.exists_eq_add_of_le (Nat.le_of_not_lt inside)
      rw [List.getD_append_right _ _ _ _ (by omega), eight, Nat.add_sub_cancel_left, ih, Nat.add_mod_left,
        Nat.add_div_left _ (by decide), List.getD_cons_succ]

/-- Padding with zeros does not change what a stream reads as. -/
theorem getD_append_zeros (bits : List Bool) (n i : Nat) :
    (bits ++ List.replicate n false).getD i false = bits.getD i false := by
  by_cases inside : i < bits.length
  · rw [List.getD_append _ _ _ _ inside]
  · have behind := Nat.le_of_not_lt inside
    rw [List.getD_append_right _ _ _ _ behind, List.getD_eq_default _ _ behind, List.getD_eq_getElem?_getD,
      List.getElem?_replicate]
    split <;> rfl

/-- A reader that holds these bytes from the byte `start` to the end of its input reads their bits, and then zeros. -/
theorem State.inputBit_of_bytes {d : State} {start : Nat} {body : List Byte} (len : d.regs.brLen.toNat = start + body.length)
    (held : ∀ k, (h : k < body.length) → d.input.read (start + k) = body[k]) (i : Nat) :
    d.inputBit (8 * start + i) = (body.flatMap bitsMsbFirst).getD i false := by
  have size : d.regs.inputBits = 8 * (start + body.length) := congrArg (8 * ·) len
  rw [flatMap_bitsMsbFirst_getD]
  by_cases inside : i / 8 < body.length
  · rw [State.inputBit_of_lt (by omega), Nat.mul_add_div (by decide), Nat.mul_add_mod, held _ inside,
      List.getD_eq_getElem _ _ inside]
  · rw [State.inputBit_at_end d (by omega), List.getD_eq_default _ _ (Nat.le_of_not_lt inside)]
    simp

/-- Settles O58: the encode sends the bits of its symbols' shifts, the decoder reads them as one stream, and the code of that
stream lies in the part of the interval that each symbol took. -/
theorem decodingReturnsTheEncodedSymbols : Obligations.DecodingReturnsTheEncodedSymbols := by
  intro e e' d syms body start _ ready sealed idle aligned counted run completed sent clean width readyD cum total dec success
    pos len held k hk
  have table := SealedTable.of_ready sealed ready
  have counts : ∀ b ∈ syms, e.regs.Counts b.toNat := fun b hb => table.counts_byte (counted b hb)
  obtain ⟨e₁, init, run⟩ := execAll_cons_inv run
  obtain ⟨enc, ufc, before⟩ := Encoding.of_encInit ready idle init
  obtain ⟨n, out⟩ := table.encodeRest_out counts (fullInterval_settled e.width) enc run completed
  have bits : body.flatMap bitsMsbFirst = finalBits 0 (symbolShifts e.width e.regs.cum e.regs.total (fullInterval e.width)
      (syms.map BitVec.toNat ++ [sentinel])) ++ List.replicate n false := by
    rw [sent, List.flatMap_append, before, State.writtenBits_of_aligned aligned, ufc] at out
    exact List.append_cancel_left out
  have stream : ∀ i, d.inputBit (d.regs.rpos + i) = streamBit 0 (symbolShifts e.width e.regs.cum e.regs.total
      (fullInterval e.width) (syms.map BitVec.toNat ++ [sentinel])) i := fun i => by
    rw [pos, State.inputBit_of_bytes len held, bits, getD_append_zeros]
    rfl
  obtain ⟨d₁, start, decoding⟩ := Decoding.of_decInit clean width cum total readyD dec success stream
  obtain ⟨t, runs, last⟩ := table.decNexts_decoding counts (fullInterval_settled e.width) decoding hk
  exact ⟨t, (execAll_cons start).trans runs, last⟩

end Sys2Proof.Machine
end

section
/-! PROOFS. The family `43_decoder.md`: the symbol of the code (R200, R201), the decoder's commands (R210, R211), and the agreement
of encoder and decoder (R205). -/

namespace Sys2Proof.Machine

/-! ## The symbol of the code (R200, R201) -/

/-- Settles O49: the symbol looked up has the code in its sub-interval, and a code in a counted symbol's sub-interval has its
value in that symbol's part of the total, which no other symbol's part meets. -/
theorem decoderFindsTheSubintervalOfItsCode : Obligations.DecoderFindsTheSubintervalOfItsCode := by
  intro count iv code low high fits total value
  have pos : 0 < total := one_le_total count
  have below : value < total := decValue_lt pos low high
  obtain ⟨bound, found⟩ := lookup_subinterval (cumAt_cumTable count) below
  refine ⟨below, fun s hs counted => ⟨?_, fun ⟨above, inside⟩ => ?_⟩⟩
  · rintro rfl
    refine narrow_holds_code pos low ?_ ?_
    · exact (cumAt_cumTable count _ (by omega)).trans_le found.low
    · exact found.high.trans_eq (cumAt_cumTable count _ (by omega)).symm
  · obtain ⟨start, stop⟩ := decValue_of_narrow_holds pos (cumTable_counted hs counted) fits ⟨above, inside⟩
    rw [cumAt_cumTable _ _ (by omega)] at start stop
    exact found.unique ⟨start, stop⟩

/-! ## A command that only reads -/

/-- When one of its reads fails a command ends in `IO_FAILURE`, and the sink has gained nothing (60_exceptions.md R245). -/
theorem Access.Makes.finish_failed_reads {α : Type} {indices : List Nat} {s : State} {x : Access α}
    (h : x.Makes (readEvents indices) s) (op : BitVec 8) (failing : ¬ s.grants indices.length) :
    ∃ t, x.finish op = .next t ∧ t.err = .ioFailure ∧ t.errOp = op ∧ t.out = s.out := by
  have failed := h.finish_failed op
  simp only [List.length_map, sunkBytes_readEvents, List.append_nil] at failed
  obtain ⟨_, t, -, -, -, ended⟩ := failed failing
  exact ⟨t, ended⟩

/-! ## DEC_INIT (R210) -/

/-- The check of the model and the decoder. -/
theorem decInitCheck_fails {r : Regs} (h : r.fmState = .openModel ∨ r.decState = .active) :
    (!r.fmReady || r.decState == .active) = true :=
  (Bool.or_eq_true _ _).mpr (h.imp readyCheck_fails beq_iff_eq.mpr)

theorem execDecInit_failed {s : State} (ready : s.regs.fmState = .ready) (dec : s.regs.decState ≠ .active)
    (failing : ¬ s.grants (s.regs.comingReads s.width.bits).length) :
    ∃ t, exec .decInit s = .next t ∧ t.err = .ioFailure ∧ t.errOp = Instr.decInit.opcode ∧ t.out = s.out := by
  have reads := (prime_makes (s.withRegs (s.regs.setDecInterval (fullInterval s.width)))).fromRegs
  obtain ⟨t, run, ended⟩ := reads.thenRegs.finish_failed_reads Instr.decInit.opcode failing
  exact ⟨t, (if_neg (decInitCheck_passes ready dec)).trans run, ended⟩

/-- Settles O55: past its check the command primes the code on the full interval, `[0, MASK]`, with one read for each bit below
the end. -/
theorem decInitPrimesTheCode : Obligations.DecInitPrimesTheCode := fun _ =>
  ⟨fun busy => if_pos (decInitCheck_fails busy), execDecInit_granted, execDecInit_failed⟩

/-! ## DEC_NEXT (R211) -/

theorem execDecNext_failed {s : State} (active : s.regs.decState = .active)
    (failing : ¬ s.grants (s.regs.comingReads (s.regs.decoded s.width).1.length).length) :
    ∃ t, exec .decNext s = .next t ∧ t.err = .ioFailure ∧ t.errOp = Instr.decNext.opcode ∧ t.out = s.out := by
  have reads := decodeSymbol_makes s (sym := s.regs.decodedSymbol) (coded := s.regs.decoded s.width) rfl rfl
  obtain ⟨t, run, ended⟩ := reads.thenRegs.finish_failed_reads Instr.decNext.opcode failing
  exact ⟨t, (if_neg (not_not.mpr active)).trans run, ended⟩

/-- Settles O56: past its check the command decodes the symbol of its code, with one read for each shift below the end. -/
theorem decNextDecodesOneSymbol : Obligations.DecNextDecodesOneSymbol := fun _ =>
  ⟨fun idle => if_pos idle, fun active => ⟨execDecNext_granted active rfl rfl, execDecNext_failed active⟩⟩

/-! ## Encoder and decoder in step (R205) -/

/-- The search stays in the range it starts from, on any table. -/
theorem searchCum_lt (cum : Vector Nat 258) (value : Nat) (n : Nat) {lo hi : Nat} (order : lo < hi) :
    searchCum cum value n lo hi < hi := by
  induction n generalizing lo hi with
  | zero => exact order
  | succ n ih =>
    rw [searchCum]
    split
    case isTrue many =>
      dsimp only
      split
      case isTrue => exact ih (by omega)
      case isFalse => exact (ih (by omega)).trans (by omega)
    case isFalse => exact order

theorem lookup_le (cum : Vector Nat 258) (value : Nat) : lookup cum value ≤ 256 :=
  Nat.le_of_lt_succ (searchCum_lt cum value 9 (by decide))

theorem Regs.Decodes.res_toNat {w : Width} {r r' : Regs} {bits : List Bool} {st : DecState}
    (h : r.Decodes w r' bits (BitVec.ofNat 32 r.decodedSymbol) st) : r'.res.toNat = r.decodedSymbol := by
  have bound : r.decodedSymbol ≤ 256 := lookup_le r.cum _
  rw [congrArg Regs.res h.regs]
  exact Nat.mod_eq_of_lt (by omega)

/-- The same symbol takes encoder and decoder from one interval to one interval, with one model. -/
theorem Regs.Encodes.interval_eq_of_decodes {w : Width} {e e' d d' : Regs} {sym : Nat} {encState : EncState} {bits : List Bool}
    {res : Word} {decState : DecState} (enc : e.Encodes w e' sym encState) (dec : d.Decodes w d' bits res decState)
    (cum : e.cum = d.cum) (total : e.total = d.total) (interval : e.encInterval = d.decInterval)
    (symbol : d.decodedSymbol = sym) : e'.elow = d'.dlow ∧ e'.ehigh = d'.dhigh := by
  have same : e.encoded w sym = d.decoded w := by rw [Regs.encoded, cum, total, interval, ← symbol]
  rw [congrArg Regs.elow enc.regs, congrArg Regs.ehigh enc.regs, congrArg Regs.dlow dec.regs,
    congrArg Regs.dhigh dec.regs, same]
  exact ⟨rfl, rfl⟩

/-- Settles O57: each command narrows and renormalises by the one algebra, and `RES` names the symbol that was decoded. -/
theorem encoderAndDecoderStayInStep : Obligations.EncoderAndDecoderStayInStep := by
  intro e e' d d' width cum total low high _ _ encClean decClean decode
  obtain ⟨-, bits, decodes⟩ := exec_after decode decClean
  have interval : e.regs.encInterval = d.regs.decInterval := by rw [Regs.encInterval, low, high, Regs.decInterval]
  rw [decodes.res_toNat]
  refine ⟨fun sym encode symbol => ?_, fun encode symbol => ?_⟩
  · obtain ⟨-, -, -, encodes⟩ := exec_after encode encClean
    exact (width ▸ encodes).interval_eq_of_decodes decodes cum total interval symbol
  · obtain ⟨-, encodes⟩ := exec_after encode encClean
    obtain ⟨lows, highs⟩ := (width ▸ encodes).interval_eq_of_decodes decodes cum total interval symbol
    refine ⟨lows, highs, (congrArg Regs.decState decodes.regs).trans ?_⟩
    exact if_pos symbol

end Sys2Proof.Machine
end

section
/-! PROOFS. The family `44_core_control.md`: `NOP` (R230). -/

namespace Sys2Proof.Machine

/-- Settles O17: `exec` runs `execNop`, which answers the state it is given, by definition. -/
theorem nopChangesNothing : Obligations.NopChangesNothing := fun _ => rfl

end Sys2Proof.Machine
end

section
/-! PROOFS. The family `60_exceptions.md`: how a step ends (R240), how an error is entered (R244, R245), and how the error state
is left (R242, R247). -/

namespace Sys2Proof.Machine

/-! ## The error state (R242, R247) -/

/-- Only the word of `CORE_RESET` gets past a latched error. -/
theorem stepCommand_refused {s : State} {w : Cmd} (error : s.err ≠ .noError) (other : w ≠ coreResetWord) :
    stepCommand w s = .next s := by
  obtain ⟨-, -, refused⟩ | ⟨allowed, -⟩ | ⟨clean, -⟩ := stepCommand_cases w s
  · exact refused
  · exact absurd allowed (not_or.mpr ⟨error, other⟩)
  · exact absurd clean error

/-- The word of `CORE_RESET` runs its command in every state. -/
theorem step_coreResetWord {s : State} {rest : List HostAction} (waiting : s.queue = .command coreResetWord :: rest) :
    step s = exec .coreReset (s.withQueue rest) :=
  stepRunsTheDecodedCommand s coreResetWord .coreReset rest waiting decode_coreResetWord (.inr rfl)

theorem step_resetInput {s : State} {rest : List HostAction} (waiting : s.queue = .resetInput :: rest) :
    step s = .next (resetAll (s.withQueue rest)) := by
  unfold step
  rw [waiting]

/-- No other word decodes to `CORE_RESET` (30_encoding.md R77). -/
theorem eq_coreResetWord_of_decode {w : Cmd} (read : decode w = some .coreReset) : w = coreResetWord :=
  calc w = encode .coreReset := (encodeOfDecodeGivesWord w .coreReset read).symm
    _ = coreResetWord := by decide

/-- Settles O7: the screen stops every word but `CORE_RESET`'s, which runs its command. -/
theorem errorStateRefusesEveryOtherWord : Obligations.ErrorStateRefusesEveryOtherWord := by
  refine fun s w rest waiting error => ⟨fun other => ?_, fun is => ?_⟩
  · rw [step_command s w rest waiting]
    exact stepCommand_refused error other
  · subst is
    exact step_coreResetWord waiting

/-- One step from an error state keeps the error and the registers, or takes one of the two resets. -/
theorem Stepped.from_error {s t : State} (h : Stepped s t) (error : s.err ≠ .noError) :
    (t.err = s.err ∧ t.errOp = s.errOp ∧ t.regs = s.regs)
    ∨ (t.err = .noError ∧ ∃ rest, s.queue = .command coreResetWord :: rest ∨ s.queue = .resetInput :: rest) := by
  cases h with
  | idle | presented | portRead | refused => exact .inl ⟨rfl, rfl, rfl⟩
  | resetInput rest waiting => exact .inr ⟨rfl, rest, .inr waiting⟩
  | illegal _ _ _ clean => exact absurd clean error
  | ran w rest i t waiting read allowed run =>
    obtain rfl : i = .coreReset := allowed.resolve_left error
    obtain rfl : w = coreResetWord := eq_coreResetWord_of_decode read
    cases run
    exact .inr ⟨rfl, rest, .inl waiting⟩

/-- Settles O8: of the steps from an error state only the two resets change `ERR`, and both end in the reset registers. -/
theorem errorStateEndsOnlyByReset : Obligations.ErrorStateEndsOnlyByReset := by
  refine ⟨fun s t error h => (step_stepped h).from_error error, fun s rest waiting => ?_⟩
  obtain waiting | waiting := waiting
  · exact ⟨_, step_coreResetWord waiting, rfl, rfl⟩
  · exact ⟨_, step_resetInput waiting, rfl, rfl⟩

/-! ## How a command without a latched error ends (R240, R244, R245) -/

theorem stepCommand_answers (w : Cmd) (s : State) : ∃ t, stepCommand w s = .next t := by
  obtain ⟨-, -, refused⟩ | ⟨-, i, -, run⟩ | ⟨-, -, illegal⟩ := stepCommand_cases w s
  · exact ⟨s, refused⟩
  · obtain ⟨t, ends, -⟩ := exec_ended i s
    exact ⟨t, run.trans ends⟩
  · exact ⟨_, illegal⟩

theorem step_answers (s : State) : ∃ t, step s = .next t := by
  unfold step
  split
  case h_2 w rest _ => exact stepCommand_answers w (s.withQueue rest)
  all_goals exact ⟨_, rfl⟩

/-- An error is latched under the opcode of the command that raised it (R240). -/
theorem Ended.clean_or_errOp {i : Instr} {s t : State} (h : Ended i s t) (clean : s.err = .noError) :
    t.err = .noError ∨ t.errOp = i.opcode := by
  cases h with
  | error | ioFailure => exact .inr rfl
  | completed t es trace => exact .inl (trace.err.trans clean)
  | attached => exact .inl clean
  | reset => exact .inl rfl

/-- Settles O9: every kind of action is answered, and every command ends in a state of `Ended`. -/
theorem everyStepAnswersANextState : Obligations.EveryStepAnswersANextState := by
  refine ⟨step_answers, fun i s clean => ?_⟩
  obtain ⟨t, run, ended⟩ := exec_ended i s
  exact ⟨t, run, ended.clean_or_errOp clean⟩

/-- With no error latched a word is illegal, or its command ends under the word's opcode. -/
theorem step_command_clean {s t : State} {w : Cmd} {rest : List HostAction} (waiting : s.queue = .command w :: rest)
    (clean : s.err = .noError) (h : step s = .next t) :
    t = errorEntry .illegalCommand (opField w) (s.withQueue rest)
    ∨ ∃ i, decode w = some i ∧ opField w = i.opcode ∧ Ended i (s.withQueue rest) t := by
  rw [step_command s w rest waiting] at h
  obtain ⟨error, -⟩ | ⟨-, i, read, run⟩ | ⟨-, -, illegal⟩ := stepCommand_cases w (s.withQueue rest)
  · exact absurd clean error
  · exact .inr ⟨i, read, opField_of_decode w i read, Ended.of_exec (run.symm.trans h)⟩
  · exact .inl (Host.Outcome.next.inj (h.symm.trans illegal))

/-- A precise error enters itself, after nothing but the source reads of an over-budget header (R244). -/
theorem Ended.precise_error {i : Instr} {s t : State} (h : Ended i s t) (clean : s.err = .noError)
    (error : t.err ≠ .noError) (precise : t.err ≠ .ioFailure) :
    ∃ reads, t = errorEntry t.err i.opcode (s.afterReads reads)
      ∧ (reads ≠ [] → i = .fmReadHeader ∧ t.err = .corruptHeader) := by
  cases h with
  | error e reads _ _ _ header => exact ⟨reads, rfl, header⟩
  | ioFailure => exact absurd rfl precise
  | completed t es trace => exact absurd (trace.err.trans clean) error
  | attached => exact absurd clean error
  | reset => exact absurd rfl error

/-- Settles O10: an illegal word enters its error at once, and a command's precise error is entered after its reads. -/
theorem preciseErrorsChangeNothingElse : Obligations.PreciseErrorsChangeNothingElse := by
  intro s t w rest waiting clean h error precise
  obtain rfl | ⟨i, read, opcode, ended⟩ := step_command_clean waiting clean h
  · exact ⟨[], congrArg (errorEntry .illegalCommand (opField w)) (s.withQueue rest).afterReads_nil.symm, absurd rfl⟩
  · obtain ⟨reads, entered, header⟩ := ended.precise_error clean error precise
    rw [← opcode] at entered
    refine ⟨reads, entered, fun nonempty => ?_⟩
    obtain ⟨rfl, corrupt⟩ := header nonempty
    exact ⟨read, corrupt⟩

/-- An `IO_FAILURE` is entered after a run of accesses of which the last one failed (R245). -/
theorem Ended.io_failure {i : Instr} {s t : State} (h : Ended i s t) (clean : s.err = .noError) (failure : t.err = .ioFailure) :
    ∃ u es last, Trace s u (es ++ [last]) ∧ AllSucceeded es ∧ last.answer = .failure ∧ t = ioFailureEntry i.opcode u := by
  cases h with
  | error e reads _ io => exact absurd failure io
  | ioFailure u es last trace ok failed => exact ⟨u, es, last, trace, ok, failed, rfl⟩
  | completed t es trace => cases (trace.err.trans clean).symm.trans failure
  | attached => cases clean.symm.trans failure
  | reset => cases failure

/-- The failed access takes its answer and is recorded, but the sink gains only the bytes before it (R245). -/
theorem Trace.ioFailureEntry_eq {s u : State} {es : List IoEvent} {last : IoEvent} (trace : Trace s u (es ++ [last]))
    (failed : last.answer = .failure) (op : BitVec 8) :
    ioFailureEntry op u =
      { s with
          err := .ioFailure
          errOp := op
          regs := freeRegs s.freeCtr
          freeCtr := s.freeCtr + 1
          draws := s.draws.drop (es.length + 1)
          history := s.history ++ (es ++ [last])
          out := s.out ++ es.filterMap IoEvent.sunk } := by
  have sunk : (es ++ [last]).filterMap IoEvent.sunk = es.filterMap IoEvent.sunk := by
    simp [IoEvent.sunk_of_failure failed]
  rw [trace.state_eq, sunk, List.length_append]
  rfl

/-- Settles O11: the command's last access failed, and its bytes in the sink are those of the accesses before. -/
theorem ioFailureKeepsOnlyLatchAndSink : Obligations.IoFailureKeepsOnlyLatchAndSink := by
  intro s t w rest waiting clean h failure
  obtain rfl | ⟨i, -, opcode, ended⟩ := step_command_clean waiting clean h
  · cases failure
  · obtain ⟨u, es, last, trace, ok, failed, rfl⟩ := ended.io_failure clean failure
    refine ⟨es, last, ok, failed, ?_⟩
    rw [← opcode]
    exact trace.ioFailureEntry_eq failed (opField w)

end Sys2Proof.Machine
end

section
/-! PROOFS. The family `70_reset_and_hazards.md`: what reset leaves (R270, R271), and the idle core and the presented array
(R282, R283). -/

namespace Sys2Proof.Machine

/-! ## Reset (R270, R271) -/

/-- `STATUS` shows only the exhausted reader after a reset; it has no field for the width (R270, 10_state.md R24). -/
theorem status_resetAll (s : State) : status (resetAll s) = 0x00008000 :=
  calc status (resetAll s) = status State.reset := rfl
    _ = 0x00008000 := by decide

/-- Settles O60: the reset registers meet the registers' invariant, and nothing is attached, presented or written. -/
theorem resetHasTheInvariant : Obligations.ResetHasTheInvariant :=
  ⟨fun _ => Regs.reset_inv Config.defaultWidth, fun _ => rfl, Memory.ofBytes_wf [], Memory.ofBytes_wf [], rfl⟩

/-- A reset of the reset state changes nothing (R271). -/
theorem resetAll_reset : resetAll State.reset = State.reset := rfl

/-- Settles O19: reset leaves the reset state as it is, so it shows the `STATUS` of every reset. -/
theorem modelStartsInTheResetState : Obligations.ModelStartsInTheResetState :=
  ⟨congrArg Host.Outcome.next resetAll_reset, status_resetAll State.reset, by decide, rfl⟩

/-- Settles O18: the command and the reset input both end in `resetAll`, which gives each register the value of R270. -/
theorem resetSetsEveryRegister : Obligations.ResetSetsEveryRegister := by
  intro s
  have count : ∀ k, (h : k < 256) → (Regs.reset s.width).count[k] = 0 := fun k h => Vector.getElem_replicate h
  have cum : ∀ k, (h : k < 258) → (Regs.reset s.width).cum[k] = 0 := fun k h => Vector.getElem_replicate h
  have bound : (Regs.resetBound s.width).toNat = 2 ^ s.width.bits - 1 := resetBound_toNat s.width
  exact ⟨resetAll s, rfl, fun _ => step_resetInput, fun _ => step_coreResetWord, rfl, rfl, rfl, count, cum, rfl, rfl,
    rfl, rfl, rfl, rfl, rfl, rfl, bound, rfl, rfl, rfl, bound, rfl, rfl, status_resetAll s, rfl⟩

/-! ## The idle core and the presented array (R282, R283) -/

theorem step_idle {s : State} (empty : s.queue = []) : step s = .next s := by
  unfold step
  rw [empty]

theorem step_present {s : State} {bytes : List Byte} {rest : List HostAction} (waiting : s.queue = .present bytes :: rest) :
    step s = .next (presentInput bytes (s.withQueue rest)) := by
  unfold step
  rw [waiting]

/-- Settles O23: the array stands on the source port as a memory, and no register changes. -/
theorem idleAndPresentKeepTheCore : Obligations.IdleAndPresentKeepTheCore :=
  ⟨fun _ => step_idle, fun _ bytes _ waiting =>
    ⟨Memory.ofBytes bytes, step_present waiting, fun k => Memory.read_ofBytes k bytes⟩⟩

end Sys2Proof.Machine
end
